-- ==== Sys2Proof/Word.lean ====
section
/-! DEFINITION. The two widths the block moves (20_memory.md R45): the byte and the 16-bit value. -/

namespace Sys2Proof

/-- `u8` of 00_scope.md R8. -/
abbrev Byte := BitVec 8

/-- `u16` of 00_scope.md R8. -/
abbrev U16 := BitVec 16

end Sys2Proof
end

