-- ==== Sys2Proof/Config.lean ====
section
/-! DEFINITION. What an implementation fixes (00_scope.md R6, 45_host_sequences.md R201), the moves the
environment can make, and the free values the spec leaves open. -/

namespace Sys2Proof

/-- Status codes of a bus operation (10_state.md R29). -/
inductive Status where
  | ok
  | busError
  | timeout
  deriving DecidableEq, Repr, Inhabited

/-- The three values of the platform's input `bus_state` (10_state.md R25). -/
inductive BusState where
  | idle
  | busyRx
  | busy
  deriving DecidableEq, Repr, Inhabited

/-- One move of an agent other than the host and the sequencer: the platform, its bus engine, its scheduler or
the chain. A move that is not enabled in the state it meets does not happen (log 13). -/
inductive EnvEvent where
  /-- One iteration of an idle wait: what `bus_state` shows, and whether the time spent in the loop has reached
  the timeout (43_transport.md R156, R157). -/
  | poll (bus : BusState) (expired : Bool)
  /-- The bus engine moves the next byte of the transfer and the chain sends `b` in the same byte time
  (20_memory.md R45, 43_transport.md R171). -/
  | byte (b : Byte)
  /-- The platform's blocking `transfer` returns (43_transport.md R159). -/
  | ret (st : Status)
  /-- The bus engine's Complete step (43_transport.md R163). -/
  | complete
  /-- The bus engine's Error step (43_transport.md R164). -/
  | error
  /-- The scheduler resumes the suspended sequencer (43_transport.md R160 step A5). -/
  | resume
  /-- The chain's Sleep step (43_transport.md R153). -/
  | sleep
  deriving DecidableEq, Repr, Inhabited

/-- Byte order of a 16-bit code inside a chip block: `REG_DATA_ORDER` (20_memory.md R43). -/
inductive ByteOrder where
  | be
  | le
  deriving DecidableEq, Repr, Inhabited

/-- `INIT_AGG` of 45_host_sequences.md R203. -/
inductive InitAgg where
  | lastNonzero
  | finalOnly
  deriving DecidableEq, Repr, Inhabited

/-- The two self-test pattern selectors (45_host_sequences.md R201, `s` in 1, 2). -/
inductive Selector where
  | one
  | two
  deriving DecidableEq, Repr, Inhabited

/-- A value for each selector. -/
structure PerSelector where
  s1 : U16
  s2 : U16
  deriving DecidableEq, Repr, Inhabited

/-- A band `[lo, hi]` of 45_host_sequences.md R208. -/
structure Band where
  lo : U16
  hi : U16
  deriving DecidableEq, Repr, Inhabited

/-- A fault code that is not zero (45_host_sequences.md R201: "non-zero `u16`"), held as its predecessor. -/
structure FaultCode where
  pred : Fin 65535
  deriving DecidableEq, Repr, Inhabited

/-- The values the spec leaves to the constructor and gives no number for. -/
structure Given where
  cmdWrcfg : U16
  cmdCvBase : U16
  cmdAxBase : U16
  cmdCombined : U16
  cmdClrcell : U16
  cmdClraux : U16
  cmdClrstat : U16
  /-- `T_WAKE`, argument of the fine delay primitive: microseconds (log 35). -/
  tWake : Nat
  /-- How many milliseconds `T_REFRESH` has beyond the fewest that exceed `T_WAKE` (log 35): every `T_REFRESH` longer
  than `T_WAKE` (00_scope.md R6), and no other, is `Machine.refreshDelay` for some value of this field. -/
  tRefreshMore : Nat
  /-- `T_POLL`: which primitive it is an argument of, and so its unit, is open (91_not_in_source.md N16; log 35). -/
  tPoll : Nat
  /-- `CS_ACTIVE_LEVEL`: whether the asserted line is electrically high. -/
  csActiveHigh : Bool
  /-- The callback references of 10_state.md R31. -/
  onTransferComplete : Nat
  onError : Nat
  /-- `CMD_CVST`, `CMD_AXST`, `CMD_STATST`, `PATTERN`, `SEL` of 45_host_sequences.md R201. -/
  cmdCvst : PerSelector
  cmdAxst : PerSelector
  cmdStatst : PerSelector
  pattern : PerSelector
  sel : Selector
  cmdRdcv : Vector U16 4
  cmdRdaux : Vector U16 2
  cmdRdstat : Vector U16 2
  /-- `CMD_RDCFG`: listed by R201; no sequence uses it. -/
  cmdRdcfg : U16
  cmdAdstat : U16
  cmdDiagn : U16
  cmdRef2 : U16
  /-- `T_REFUP`, `T_ST`, `T_DIAG`, `T_ACC`: their primitive and unit are open, like `T_POLL`'s (log 35). -/
  tRefup : Nat
  tSt : Nat
  tDiag : Nat
  tAcc : Nat
  bandVa : Band
  bandVd : Band
  bandVref2 : Band
  fcCv : Vector FaultCode 4
  fcAux : Vector FaultCode 2
  fcStat : Vector FaultCode 2
  /-- `IDX_VA`: element 0..2 of status group A. -/
  idxVa : Fin 3
  /-- `IDX_VD` less 3: which of the elements 3..5 of status group B. -/
  idxVd : Fin 3
  /-- `IDX_FLAGS` less 3: which of the elements 3..5 of status group B. -/
  idxFlags : Fin 3
  maskThsd : U16
  maskMuxfail : U16
  deriving DecidableEq, Repr, Inhabited

/-- The parameters of a session: those given by the constructor and those with a normative value. They are
constant for the life of the session (10_state.md R33); State carries them so that every statement holds for
every choice (log 6). -/
structure Params where
  given : Given
  /-- `REG_DATA_ORDER`, normative `BE` (20_memory.md R43). -/
  regDataOrder : ByteOrder
  /-- `MODE_HI_POS`, normative 7 (30_encoding.md R68). -/
  modeHiPos : Fin 8
  /-- `INIT_AGG`, normative `LAST_NONZERO` (45_host_sequences.md R203). -/
  initAgg : InitAgg
  /-- `IDX_REF2` less 3, normative element 5 (10_state.md R17). -/
  idxRef2 : Fin 3
  deriving DecidableEq, Repr, Inhabited

/-- The arguments of the session that State.reset constructs: open, so no value can be proved of them (log 6). -/
opaque Config.given : Given

/-- The session parameters at reset: the open arguments with the spec's normative choices. -/
def Config.params : Params :=
  { given := Config.given, regDataOrder := .be, modeHiPos := 7, initAgg := .lastNonzero, idxRef2 := 2 }

/-- The chain length State.reset constructs the session with: DESIGN CHOICE, unsafe (log 5). -/
def Config.resetChainLength : Nat := 1

/-- The environment's move where `script` names none: any move at all, by the number of the draw (log 4). -/
opaque Config.freeEvent : Nat → EnvEvent

/-- A 16-bit value the spec leaves open: by the number of the draw, the position and the value's index (log 10, 36). -/
opaque Config.freeWord : Nat → Nat → Nat → U16

/-- A byte the spec leaves open: by the number of the draw, the position and the byte's index (log 8, 10, 36). -/
opaque Config.freeByte : Nat → Nat → Nat → Byte

/-- A bit the spec leaves open: by the number of the draw and the position (log 8, 9, 11, 36, 37). -/
opaque Config.freeFlag : Nat → Nat → Bool

/-- A status code the spec leaves open: what a torn-down session leaves of `status` (log 36). -/
opaque Config.freeStatus : Nat → Status

/-- A count the spec leaves open: what a torn-down session leaves of `err_count` (log 36). -/
opaque Config.freeCount : Nat → Int

end Sys2Proof
end

