-- ==== Sys2Proof/Syntax.lean ====
section
/-! DEFINITION. The operations a host can request (30_encoding.md R70), one constructor per row of
spec/opcode_table.json. -/

namespace Sys2Proof

/-- The transfer mode of a bus operation (30_encoding.md R69): blocking with its timeout, or asynchronous. -/
inductive Mode where
  /-- `.B`: the timeout operand `tmo` comes with the mode, since only a blocking operation takes one. -/
  | b (tmo : BitVec 32)
  /-- `.A`. -/
  | a
  deriving DecidableEq, Repr, Inhabited

/-- One request of the host. Operands are as presented; which values are in range is `Instr.wellFormed`. -/
inductive Instr where
  | pec15 (s : List Byte)
  | pecchk (p : U16) (s : List Byte)
  | wake
  | refresh
  | wrcmd (m : Mode) (code : U16)
  | wrbcast (m : Mode) (addr : U16) (p6 : List Byte)
  | wrcfg (m : Mode) (payloads : List (List Byte))
  | rdreg (m : Mode) (addr : U16)
  | parsecv (g : Byte)
  | parseaux (g : Byte)
  | parsestat (g : Byte)
  | parsecfg
  | setconv (mode dcp ch chg : Byte)
  | startcv (m : Mode)
  | startax (m : Mode)
  | startcomb (m : Mode)
  | clrcell (m : Mode)
  | clraux (m : Mode)
  | clrstat (m : Mode)
  | init (m : Mode) (payloads : List (List Byte))
  | cvtest (m : Mode)
  | auxtest (m : Mode)
  | stattest (m : Mode)
  | adstattest (m : Mode)
  | acctest (m : Mode)
  deriving DecidableEq, Repr, Inhabited

end Sys2Proof
end

