-- ==== Sys2Proof/Machine/Operands.lean ====
section
/-! DEFINITION. The operand forms: joining and splitting of bytes (00_scope.md R8), the byte order of register
data (20_memory.md R43), the ranges of the operands (30_encoding.md R71), the offsets of chip blocks
(20_memory.md R41). -/

namespace Sys2Proof.Machine

/-- `hi(v)` of 00_scope.md R8: `v[15:8]`. -/
def hi (v : U16) : Byte := v.extractLsb' 8 8

/-- `lo(v)` of 00_scope.md R8: `v[7:0]`. -/
def lo (v : U16) : Byte := v.extractLsb' 0 8

/-- `be16(a, b)` of 00_scope.md R8: `a` is the high byte. -/
def be16 (a b : Byte) : U16 := a ++ b

/-- The timeout operand as four bytes, high byte first (log 2). -/
def be32 (a b c d : Byte) : BitVec 32 := a ++ b ++ c ++ d

/-- The four bytes of a timeout operand, high byte first (log 2). -/
def split32 (v : BitVec 32) : List Byte :=
  [v.extractLsb' 24 8, v.extractLsb' 16 8, v.extractLsb' 8 8, v.extractLsb' 0 8]

/-- A 16-bit code from two adjacent bytes of a chip block, by `REG_DATA_ORDER` (20_memory.md R43 case (c)). -/
def regWord (order : ByteOrder) (first second : Byte) : U16 :=
  match order with
  | .be => be16 first second
  | .le => be16 second first

/-- `L = 4 + 8N` (10_state.md R11). -/
def bufLen (n : Nat) : Nat := 4 + 8 * n

/-- `B(j) = 4 + 8j`, the offset of chip block `j` (20_memory.md R41). -/
def blockAt (j : Nat) : Nat := 4 + 8 * j

/-- The value of a per-selector parameter (45_host_sequences.md R201). -/
def pickSelector (v : PerSelector) (sel : Selector) : U16 :=
  match sel with
  | .one => v.s1
  | .two => v.s2

/-- A fault code as the `u16` it stands for. -/
def faultWord (f : FaultCode) : U16 := BitVec.ofNat 16 (f.pred.val + 1)

/-- How many units of the fine delay primitive make one of the coarse: 1000, read from the names `delayMicros` and
`delayMillis` (10_state.md R24). The spec states no unit (91_not_in_source.md N16): DEDUCED, log 35. -/
def fineUnitsPerCoarse : Nat := 1000

/-- `T_REFRESH`, the argument of the coarse delay primitive: longer than `T_WAKE`, the argument of the fine one, as
durations (00_scope.md R6). That the two compare as milliseconds and microseconds is the model's choice (log 35). -/
def refreshDelay (p : Given) : Nat := p.tWake / fineUnitsPerCoarse + 1 + p.tRefreshMore

/-- A cell-voltage group index is 0..3 (30_encoding.md R70, R71). -/
def okCvGroup (g : Byte) : Bool := g.toNat < 4

/-- An auxiliary or status group index is 0..1 (30_encoding.md R70, R71). -/
def okPairGroup (g : Byte) : Bool := g.toNat < 2

/-- A payload is exactly six bytes (30_encoding.md R71). -/
def okPayload (p6 : List Byte) : Bool := p6.length == 6

/-- Every payload has six bytes; the count is checked by `okPayloads`. -/
def okPayloadSizes (payloads : List (List Byte)) : Bool := payloads.all okPayload

/-- `P : u8[N][6]`: exactly `N` payloads of exactly six bytes (30_encoding.md R71). -/
def okPayloads (n : Nat) (payloads : List (List Byte)) : Bool :=
  payloads.length == n && okPayloadSizes payloads

/-- The operand ranges of SETCONV (30_encoding.md R70, R71). -/
def okConv (mode dcp ch chg : Byte) : Bool :=
  mode.toNat < 4 && dcp.toNat < 2 && ch.toNat < 8 && chg.toNat < 8

end Sys2Proof.Machine
end

