-- ==== Sys2Proof/Machine/Pec.lean ====
section
/-! DEFINITION. The checksum engine (40_pec_engine.md). -/

namespace Sys2Proof.Machine

/-- `PEC_SEED` (00_scope.md R6). -/
def pecSeed : U16 := 0x0010

/-- The generator polynomial (40_pec_engine.md R93; log 25). -/
def pecPoly : U16 := 0x4599

/-- One of the eight divisions of 40_pec_engine.md R94. -/
def pecShift (r : U16) : U16 := if r.getLsbD 14 then (r <<< 1) ^^^ pecPoly else r <<< 1

/-- Entry `i` of `PEC_TABLE`, by its construction (40_pec_engine.md R94). -/
def pecTable (i : Byte) : U16 := Nat.iterate pecShift 8 (i.setWidth 16 <<< 7)

/-- The update of the remainder by one byte (40_pec_engine.md R91). -/
def pecStep (rem : U16) (b : Byte) : U16 :=
  (rem <<< 8) ^^^ pecTable (((rem >>> 7) ^^^ b.setWidth 16).setWidth 8)

/-- `pec15` (40_pec_engine.md R91): the remainder over the bytes in order, doubled at the end. -/
def pec15 (s : List Byte) : U16 := s.foldl pecStep pecSeed * 2

/-- The validator `PECCHK` (40_pec_engine.md R99): equality of all 16 bits. -/
def pecCheck (s : List Byte) (p : U16) : Bool := pec15 s == p

/-- One bit of the serial generator (40_pec_engine.md R95): `din` against bit 14, then shift and feed back. -/
def serialBit (pec : BitVec 15) (din : Bool) : BitVec 15 :=
  if din ^^ pec.getLsbD 14 then (pec <<< 1) ^^^ 0x4599 else pec <<< 1

/-- The eight bits of a byte, bit 7 first (40_pec_engine.md R95). -/
def bitsOf (b : Byte) : List Bool :=
  [b.getLsbD 7, b.getLsbD 6, b.getLsbD 5, b.getLsbD 4, b.getLsbD 3, b.getLsbD 2, b.getLsbD 1, b.getLsbD 0]

/-- The serial form of the generator (40_pec_engine.md R95). -/
def pecSerial (s : List Byte) : U16 :=
  ((s.flatMap bitsOf).foldl serialBit 0x0010#15).setWidth 16 <<< 1

end Sys2Proof.Machine
end

