-- ==== Sys2Proof/WellFormed.lean ====
section
/-! DEFINITION. Which requests have operands the block gives a meaning to (30_encoding.md R71). -/

namespace Sys2Proof

open Machine

/-- The operands are in the ranges that do not depend on the chain length: what the decoder checks. -/
def Instr.inRange : Instr → Bool
  | .pec15 _ => true
  | .pecchk _ _ => true
  | .wake => true
  | .refresh => true
  | .wrcmd _ _ => true
  | .wrbcast _ _ p6 => okPayload p6
  | .wrcfg _ payloads => okPayloadSizes payloads
  | .rdreg _ _ => true
  | .parsecv g => okCvGroup g
  | .parseaux g => okPairGroup g
  | .parsestat g => okPairGroup g
  | .parsecfg => true
  | .setconv mode dcp ch chg => okConv mode dcp ch chg
  | .startcv _ => true
  | .startax _ => true
  | .startcomb _ => true
  | .clrcell _ => true
  | .clraux _ => true
  | .clrstat _ => true
  | .init _ payloads => okPayloadSizes payloads
  | .cvtest _ => true
  | .auxtest _ => true
  | .stattest _ => true
  | .adstattest _ => true
  | .acctest _ => true

/-- The payloads of a per-chip operand, for the operations that take one. -/
def Instr.perChip : Instr → Option (List (List Byte))
  | .wrcfg _ payloads => some payloads
  | .init _ payloads => some payloads
  | .pec15 _ | .pecchk _ _ | .wake | .refresh | .wrcmd _ _ | .wrbcast _ _ _ | .rdreg _ _ => none
  | .parsecv _ | .parseaux _ | .parsestat _ | .parsecfg | .setconv _ _ _ _ => none
  | .startcv _ | .startax _ | .startcomb _ | .clrcell _ | .clraux _ | .clrstat _ => none
  | .cvtest _ | .auxtest _ | .stattest _ | .adstattest _ | .acctest _ => none

/-- The request has a meaning in a session of `n` chips: in range, with one payload per chip where it takes `P`. -/
def Instr.wellFormed (n : Nat) (i : Instr) : Bool :=
  i.inRange && (i.perChip.all fun payloads => payloads.length == n)

end Sys2Proof
end

