-- ==== Sys2Proof/Decode.lean ====
section
/-! DEFINITION. The request message and its decoding (30_encoding.md R69 to R71): the request byte `00m ooooo`
and the operands after it. The spec fixes the request byte; how the operands are laid out behind it is this
model's choice (log 1): the timeout of a blocking operation first, then the operands in the table's order, 16-bit
values high byte first, the operand of open length last. -/

namespace Sys2Proof

open Machine

/-- Why a request message has no meaning (30_encoding.md R71). -/
inductive DecodeError where
  /-- No request byte. -/
  | emptyRequest
  /-- Bits 7:6 of the request byte are not zero. -/
  | reservedBits
  /-- An operation number outside the table of R70. -/
  | noSuchOperation
  /-- `m = 1` on an operation whose mode column says "none". -/
  | modeNotAllowed
  /-- The bytes after the request byte are not the operands of the operation. -/
  | operandLength
  /-- An operand outside its range. -/
  | operandRange
  deriving DecidableEq, Repr, Inhabited

/-- The operation number `o` of each row of 30_encoding.md R70. -/
def Instr.opNumber : Instr → BitVec 5
  | .pec15 _ => 0x01
  | .pecchk _ _ => 0x02
  | .wake => 0x03
  | .refresh => 0x04
  | .wrcmd _ _ => 0x05
  | .wrbcast _ _ _ => 0x06
  | .wrcfg _ _ => 0x07
  | .rdreg _ _ => 0x08
  | .parsecv _ => 0x09
  | .parseaux _ => 0x0A
  | .parsestat _ => 0x0B
  | .parsecfg => 0x0C
  | .setconv _ _ _ _ => 0x0D
  | .startcv _ => 0x0E
  | .startax _ => 0x0F
  | .startcomb _ => 0x10
  | .clrcell _ => 0x11
  | .clraux _ => 0x12
  | .clrstat _ => 0x13
  | .init _ _ => 0x18
  | .cvtest _ => 0x19
  | .auxtest _ => 0x1A
  | .stattest _ => 0x1B
  | .adstattest _ => 0x1C
  | .acctest _ => 0x1D

/-- A message cut into payloads of six bytes, if its length allows it. -/
def splitPayloads : List Byte → Option (List (List Byte))
  | [] => some []
  | a :: b :: c :: d :: e :: f :: rest => (splitPayloads rest).map ([a, b, c, d, e, f] :: ·)
  | _ => none

/-- An operation without a mode requires `m = 0` (30_encoding.md R69). -/
def modeless (m : Bool) (r : Except DecodeError Instr) : Except DecodeError Instr :=
  if m then .error .modeNotAllowed else r

/-- A bus operation takes the mode from bit 5 and, when blocking, the timeout operand (30_encoding.md R69). -/
def withMode (m : Bool) (ops : List Byte) (k : Mode → List Byte → Except DecodeError Instr) :
    Except DecodeError Instr :=
  if m then k .a ops
  else
    match ops with
    | a :: b :: c :: d :: rest => k (.b (be32 a b c d)) rest
    | _ => .error .operandLength

/-- No operand bytes may follow. -/
def noOperand (i : Instr) (ops : List Byte) : Except DecodeError Instr :=
  match ops with
  | [] => .ok i
  | _ => .error .operandLength

/-- A leading 16-bit operand. -/
def word16 (ops : List Byte) (k : U16 → List Byte → Except DecodeError Instr) : Except DecodeError Instr :=
  match ops with
  | h :: l :: rest => k (be16 h l) rest
  | _ => .error .operandLength

/-- The operand `P`: payloads of six bytes to the end of the message. -/
def payloadList (ops : List Byte) (k : List (List Byte) → Instr) : Except DecodeError Instr :=
  match splitPayloads ops with
  | some payloads => .ok (k payloads)
  | none => .error .operandLength

/-- The operand `p6`: the rest of the message, exactly six bytes. -/
def payload (ops : List Byte) (k : List Byte → Instr) : Except DecodeError Instr :=
  if okPayload ops then .ok (k ops) else .error .operandLength

/-- A group index, refused out of range (30_encoding.md R71). -/
def groupOperand (ok : Byte → Bool) (ops : List Byte) (k : Byte → Instr) : Except DecodeError Instr :=
  match ops with
  | [g] => if ok g then .ok (k g) else .error .operandRange
  | _ => .error .operandLength

/-- The four operands of SETCONV, refused out of range (30_encoding.md R71). -/
def convOperands (ops : List Byte) : Except DecodeError Instr :=
  match ops with
  | [mode, dcp, ch, chg] =>
    if okConv mode dcp ch chg then .ok (.setconv mode dcp ch chg) else .error .operandRange
  | _ => .error .operandLength

/-- The operation table of 30_encoding.md R70: operation number, mode bit and operand bytes. -/
def decodeOperation (o : Nat) (m : Bool) (ops : List Byte) : Except DecodeError Instr :=
  match o with
  | 0x01 => modeless m (.ok (.pec15 ops))
  | 0x02 => modeless m (word16 ops fun p s => .ok (.pecchk p s))
  | 0x03 => modeless m (noOperand .wake ops)
  | 0x04 => modeless m (noOperand .refresh ops)
  | 0x05 => withMode m ops fun md rest => word16 rest fun code => noOperand (.wrcmd md code)
  | 0x06 => withMode m ops fun md rest => word16 rest fun addr more => payload more (.wrbcast md addr)
  | 0x07 => withMode m ops fun md rest => payloadList rest (.wrcfg md)
  | 0x08 => withMode m ops fun md rest => word16 rest fun addr => noOperand (.rdreg md addr)
  | 0x09 => modeless m (groupOperand okCvGroup ops .parsecv)
  | 0x0A => modeless m (groupOperand okPairGroup ops .parseaux)
  | 0x0B => modeless m (groupOperand okPairGroup ops .parsestat)
  | 0x0C => modeless m (noOperand .parsecfg ops)
  | 0x0D => modeless m (convOperands ops)
  | 0x0E => withMode m ops fun md => noOperand (.startcv md)
  | 0x0F => withMode m ops fun md => noOperand (.startax md)
  | 0x10 => withMode m ops fun md => noOperand (.startcomb md)
  | 0x11 => withMode m ops fun md => noOperand (.clrcell md)
  | 0x12 => withMode m ops fun md => noOperand (.clraux md)
  | 0x13 => withMode m ops fun md => noOperand (.clrstat md)
  | 0x18 => withMode m ops fun md rest => payloadList rest (.init md)
  | 0x19 => withMode m ops fun md => noOperand (.cvtest md)
  | 0x1A => withMode m ops fun md => noOperand (.auxtest md)
  | 0x1B => withMode m ops fun md => noOperand (.stattest md)
  | 0x1C => withMode m ops fun md => noOperand (.adstattest md)
  | 0x1D => withMode m ops fun md => noOperand (.acctest md)
  | _ => .error .noSuchOperation

/-- Decodes one request message: total on any bytes, refusing by name (30_encoding.md R69 to R71). -/
def decode (bytes : List Byte) : Except DecodeError Instr :=
  match bytes with
  | [] => .error .emptyRequest
  | r :: ops =>
    if r.extractLsb' 6 2 = 0#2 then decodeOperation (r.extractLsb' 0 5).toNat (r.getLsbD 5) ops
    else .error .reservedBits

/-- The request byte `00m ooooo` (30_encoding.md R69). -/
def requestByte (m : Bool) (o : BitVec 5) : Byte := 0#2 ++ BitVec.ofBool m ++ o

/-- Request byte and timeout operand of a bus operation in mode `m`. -/
def modeHead (m : Mode) (o : BitVec 5) : List Byte :=
  match m with
  | .b tmo => requestByte false o :: split32 tmo
  | .a => [requestByte true o]

/-- The message of a request, written from the same table as `decode` (30_encoding.md R69, R70; log 1, 2). -/
def encode (i : Instr) : List Byte :=
  let o := i.opNumber
  match i with
  | .pec15 s => requestByte false o :: s
  | .pecchk p s => requestByte false o :: hi p :: lo p :: s
  | .wake => [requestByte false o]
  | .refresh => [requestByte false o]
  | .wrcmd m code => modeHead m o ++ [hi code, lo code]
  | .wrbcast m addr p6 => modeHead m o ++ hi addr :: lo addr :: p6
  | .wrcfg m payloads => modeHead m o ++ payloads.flatten
  | .rdreg m addr => modeHead m o ++ [hi addr, lo addr]
  | .parsecv g => [requestByte false o, g]
  | .parseaux g => [requestByte false o, g]
  | .parsestat g => [requestByte false o, g]
  | .parsecfg => [requestByte false o]
  | .setconv mode dcp ch chg => [requestByte false o, mode, dcp, ch, chg]
  | .startcv m => modeHead m o
  | .startax m => modeHead m o
  | .startcomb m => modeHead m o
  | .clrcell m => modeHead m o
  | .clraux m => modeHead m o
  | .clrstat m => modeHead m o
  | .init m payloads => modeHead m o ++ payloads.flatten
  | .cvtest m => modeHead m o
  | .auxtest m => modeHead m o
  | .stattest m => modeHead m o
  | .adstattest m => modeHead m o
  | .acctest m => modeHead m o

/-- How many operand bytes follow a request byte, a byte sequence `s` being empty and `P` having `n` payloads:
what `tableMessage` fills with zeros (log 21). -/
def operandBytes (n : Nat) (r : Byte) : Nat :=
  let tmo := if r.getLsbD 5 then 0 else 4
  match (r.extractLsb' 0 5).toNat with
  | 0x02 => 2
  | 0x05 => tmo + 2
  | 0x06 => tmo + 8
  | 0x07 => tmo + 6 * n
  | 0x08 => tmo + 2
  | 0x09 => 1
  | 0x0A => 1
  | 0x0B => 1
  | 0x0D => 4
  | 0x0E => tmo
  | 0x0F => tmo
  | 0x10 => tmo
  | 0x11 => tmo
  | 0x12 => tmo
  | 0x13 => tmo
  | 0x18 => tmo + 6 * n
  | 0x19 => tmo
  | 0x1A => tmo
  | 0x1B => tmo
  | 0x1C => tmo
  | 0x1D => tmo
  | _ => 0

/-- The message whose bits are `w` as spec/opcode_table.json numbers them (the request byte is bits 7..0, the next
byte bits 15..8), every operand byte above `nbits` zero (log 21). -/
def tableMessage (n nbits w : Nat) : List Byte :=
  let given := (List.range (nbits / 8)).map fun k => BitVec.ofNat 8 (w / 2 ^ (8 * k))
  given ++ List.replicate (1 + operandBytes n (BitVec.ofNat 8 w) - nbits / 8) 0

/-- What the decoder reads from the table's word `w`, in a session of the chain length State.reset has. -/
def decodeTableWord (nbits w : Nat) : Option Instr :=
  (decode (tableMessage Config.resetChainLength nbits w)).toOption

end Sys2Proof
end

