-- ==== Sys2Proof/Machine/State.lean ====
section
/-! DEFINITION. The machine's state: everything 10_state.md gives the block, its environment's coming moves, and
the model's own bookkeeping. Plain data. -/

namespace Sys2Proof.Machine

/-- Positions of the sequencer inside an operation (10_state.md R21). -/
inductive Phase where
  | idle
  | wakeCs
  | assemble
  | waitIdle
  | xferB
  | waitDone
  | validate
  | compute
  deriving DecidableEq, Repr, Inhabited

/-- Power states of the chain's bus interface (10_state.md R22). -/
inductive Power where
  | asleep
  | idleReady
  deriving DecidableEq, Repr, Inhabited

/-- Direction of a transfer (10_state.md R24). -/
inductive Dir where
  | duplex
  | writeOnly
  deriving DecidableEq, Repr, Inhabited

/-- The descriptor of `inflight` (10_state.md R26). -/
structure Inflight where
  len : Nat
  dir : Dir
  deriving DecidableEq, Repr, Inhabited

/-- A register that may hold no value (10_state.md R34, R36): `known` says whether it holds one; while it is
false, `val` is only what the model names (log 7) or a free value (log 10). -/
structure Reg (α : Type) where
  val : α
  known : Bool
  deriving DecidableEq, Repr, Inhabited

/-- A stored conversion command code (10_state.md R20): `b0` is sent first. -/
structure Template where
  b0 : Byte
  b1 : Byte
  deriving DecidableEq, Repr, Inhabited

/-- `BoardRegisters` of one chip (10_state.md R14 to R19). -/
structure Board where
  config : Vector (Reg Byte) 6
  cellVoltage : Vector (Reg U16) 12
  auxVoltage : Vector (Reg U16) 6
  status : Vector (Reg U16) 6
  comm : Vector (Reg Byte) 3
  deriving DecidableEq, Repr

/-- A buffer space (20_memory.md R40): the bytes that hold a value, by offset, offsets strictly rising. An offset
that is not listed holds no value (10_state.md R34). -/
abbrev Memory := List Host.Cell

/-- A frame as the block transmits it (30_encoding.md R60): `CMD` (R61), `WR` with the payload of each block
(R62), `RD` (R63). -/
inductive Frame where
  | cmd (code : U16)
  | wr (code : U16) (blocks : List (List Byte))
  | rd (code : U16)
  deriving DecidableEq, Repr, Inhabited

/-- A register group as a parse operation names it (42_frame_read_parse.md R133 to R136). -/
inductive Group where
  | cv (g : Nat)
  | aux (g : Nat)
  | stat (g : Nat)
  | cfg
  deriving DecidableEq, Repr, Inhabited

/-- Delays: by the fine primitive, by the coarse one (10_state.md R24; their units: log 35), the yield between polls and
a host sequence's settle delay, whose primitive the spec leaves open (log 35). -/
inductive DelayUnit where
  | fine
  | coarse
  | poll
  | settle
  deriving DecidableEq, Repr, Inhabited

/-- One stage of an operation that the sequencer has still to do. -/
inductive Task where
  /-- Stages 1 to 3 of 41_frame_write.md R110: refresh, assemble, transfer of the frame. -/
  | bus (m : Mode) (f : Frame)
  /-- Stage 4 of a write. -/
  | endWrite
  /-- Stage 4 of a read: validation and result. -/
  | endRead
  /-- The operation REFRESH inside a host sequence. -/
  | refresh
  /-- A settle delay of a host sequence. -/
  | settle (d : Nat)
  /-- The block stands in phase IDLE between two operations of a host sequence, where the chain may fall asleep
  (43_transport.md R153). -/
  | lull
  /-- A parse operation inside a host sequence. -/
  | parse (g : Group)
  /-- `err_count` less the failing positions (45_host_sequences.md R211). -/
  | countErrors
  /-- `code <- 0` at the head of a test. -/
  | clearCode
  /-- The comparison loop of 45_host_sequences.md R204. -/
  | checkPattern (g : Group)
  /-- The loop over status group A of 45_host_sequences.md R208. -/
  | checkSupply
  /-- The loop over status group B of 45_host_sequences.md R208. -/
  | checkFlags
  /-- The loop of 45_host_sequences.md R210. -/
  | checkRef2
  /-- INIT's aggregate starts at 0. -/
  | clearAgg
  /-- INIT takes in a sub-test's code (45_host_sequences.md R203). -/
  | aggregate
  /-- A test returns its code. -/
  | answerCode
  /-- INIT returns its aggregate. -/
  | answerAgg
  deriving DecidableEq, Repr, Inhabited

/-- What the host can read through accessors (10_state.md R14, R29, R34). `err_count` has none: who reads it is open
(45_host_sequences.md R211, 91_not_in_source.md N14), and that nobody does is DESIGN CHOICE, log 17. -/
inductive HostElem where
  | tx (k : Nat)
  | rx (k : Nat)
  | config (i j : Nat)
  | cellVoltage (i j : Nat)
  | auxVoltage (i j : Nat)
  | boardStatus (i j : Nat)
  | comm (i j : Nat)
  | statusCode
  | pecFail (j : Nat)
  | pecOut
  deriving DecidableEq, Repr, Inhabited

/-- What the host does at the block (10_state.md R14, R32, R37). -/
inductive HostAction where
  /-- A request message on the request port. -/
  | request (bytes : List Byte)
  /-- A read through an accessor. -/
  | read (e : HostElem)
  /-- The session is torn down. -/
  | teardown
  deriving DecidableEq, Repr, Inhabited

/-- The result on the request port (10_state.md R32, 30_encoding.md R70). -/
inductive Answer where
  /-- No result yet. -/
  | none
  /-- The operation is over and has no result. -/
  | done
  | status (st : Status)
  | readResult (st : Status) (pecFail : List Bool)
  | pecOut (p : U16)
  | matched (b : Bool)
  | code (c : U16)
  /-- The value an accessor reads, zero-extended. -/
  | element (v : U16)
  deriving DecidableEq, Repr, Inhabited

/-- What an output port of the block does (10_state.md R24, 20_memory.md R40 WIRE). -/
inductive PortEvent where
  /-- The sequencer moves to a phase. -/
  | phase (p : Phase)
  /-- `setChipSelect`. -/
  | cs (asserted : Bool)
  /-- `delay_req`. -/
  | delay (unit : DelayUnit) (d : Nat)
  /-- `xfer_start`: byte count, direction, mode with its timeout. -/
  | xferStart (len : Nat) (dir : Dir) (m : Mode)
  /-- One byte on the wire; `heard` says whether the chain was awake to take it (43_transport.md R168). -/
  | wire (out : Option Byte) (heard : Bool)
  /-- A hook is invoked (10_state.md R31). -/
  | hook (ref : Nat)
  deriving DecidableEq, Repr, Inhabited

/-- The state of the block, of its environment's agents and of the model's own bookkeeping. -/
structure State where
  /-- `N` (10_state.md R11). -/
  n : Nat
  /-- The session's parameters (00_scope.md R6). -/
  par : Params
  /-- The transmit buffer (10_state.md R12). -/
  tx : Memory
  /-- The receive buffer (10_state.md R13). -/
  rx : Memory
  /-- How far the bytes of `rx` are unspecified (41_frame_write.md R115, 42_frame_read_parse.md R132): those at the
  offsets below it, of which a parse takes no value (R137 (e); log 8). -/
  rxUnspec : Nat
  /-- The register mirror, one entry per chip position (10_state.md R14). -/
  board : List Board
  /-- `tmpl_cv` (10_state.md R20). -/
  tmplCv : Template
  /-- `tmpl_ax` (10_state.md R20). -/
  tmplAx : Template
  /-- `phase` (10_state.md R21). -/
  phase : Phase
  /-- `pwr` (10_state.md R22). -/
  pwr : Power
  /-- `cs`, true = asserted (10_state.md R23). -/
  cs : Bool
  /-- `bus_state` (10_state.md R25). -/
  busState : BusState
  /-- `inflight` (10_state.md R26). -/
  inflight : Option Inflight
  /-- `done_sig` (10_state.md R27). -/
  doneSig : Bool
  /-- `err_flag` (10_state.md R28). -/
  errFlag : Bool
  /-- `status` (10_state.md R29). -/
  status : Status
  /-- `pec_fail` (10_state.md R29). -/
  pecFail : Reg (List Bool)
  /-- `pec_out` (10_state.md R29). -/
  pecOut : Reg U16
  /-- What the host presents, in order (10_state.md R32). -/
  pending : List HostAction
  /-- The result on the request port (10_state.md R32). -/
  answer : Answer
  /-- The session is torn down (10_state.md R37). -/
  tornDown : Bool
  /-- The fault code of the running host sequence (45_host_sequences.md R204). -/
  code : U16
  /-- INIT's aggregate (45_host_sequences.md R203). -/
  agg : U16
  /-- `err_count` (45_host_sequences.md R211). Its width and start, and that it has no reader, are the model's choice
  (log 17). -/
  errCount : Int
  /-- Model's own: the stages still to do; its head is the transfer in progress while the sequencer waits. -/
  todo : List Task
  /-- Model's own: bytes of the current transfer moved so far. -/
  moved : Nat
  /-- Model's own: the environment's coming moves, in order (log 4). -/
  script : List EnvEvent
  /-- Model's own: free values drawn so far (log 4). -/
  draws : Nat
  /-- Model's own: what the output ports have done, oldest first (log 15). -/
  ports : List PortEvent
  deriving DecidableEq, Repr

/-- Reasons the machine stops with a fault. -/
inductive Fault where
  /-- Raised by a host accessor: the element holds no value (10_state.md R34; 93_implementation_defined.md U13).
  Safe: the spec asks for the fault, and no value is claimed. -/
  | valueless (e : HostElem)
  /-- Raised by a host accessor: no such element in a session of this length (20_memory.md R40). Safe. -/
  | noSuchElement (e : HostElem)
  deriving DecidableEq, Repr

/-- Reasons the block gives a request no meaning. -/
inductive Refusal where
  /-- Raised by an arm of exec only: the instruction has no meaning in this model. Safe. -/
  | notModelled (mnemonic : String)
  /-- Raised by every meaning: a request while `phase` is not IDLE is never accepted (10_state.md R32; U17). Safe. -/
  | requestWhileBusy
  /-- Raised by every meaning and by the accessors: the session is torn down (10_state.md R37; U28). Safe. -/
  | sessionTornDown
  /-- Raised by every meaning: a session with `N = 0` does not exist (30_encoding.md R74; U1). Safe. -/
  | zeroChips
  /-- Raised by a meaning: an operand outside its range (30_encoding.md R71; U29). Safe. -/
  | operandOutOfRange
  /-- Raised by step: the request message has no meaning (30_encoding.md R71; U29). Safe. -/
  | undefinedRequest (e : DecodeError)
  deriving DecidableEq, Repr

/-- A mirror entry that no parse has written (10_state.md R36; log 7). -/
def emptyBoard : Board :=
  { config := Vector.replicate 6 { val := 0, known := false }
    cellVoltage := Vector.replicate 12 { val := 0, known := false }
    auxVoltage := Vector.replicate 6 { val := 0, known := false }
    status := Vector.replicate 6 { val := 0, known := false }
    comm := Vector.replicate 3 { val := 0, known := false } }

/-- The state right after the construction of a session of `n` chips with parameters `par` (10_state.md R36). -/
def State.fresh (n : Nat) (par : Params) : State :=
  { n := n
    par := par
    tx := []
    rx := []
    rxUnspec := 0
    board := List.replicate n emptyBoard
    tmplCv := { b0 := hi par.given.cmdCvBase, b1 := lo par.given.cmdCvBase }
    tmplAx := { b0 := hi par.given.cmdAxBase, b1 := lo par.given.cmdAxBase }
    phase := .idle
    pwr := .asleep
    cs := false
    busState := .idle
    inflight := none
    doneSig := false
    errFlag := false
    status := .ok
    pecFail := { val := List.replicate n false, known := false }
    pecOut := { val := 0, known := false }
    pending := []
    answer := .none
    tornDown := false
    code := 0
    agg := 0
    errCount := 0
    todo := []
    moved := 0
    script := []
    draws := 0
    ports := [] }

/-- Construction of a session: refused for `N = 0` (10_state.md R36, 30_encoding.md R74). -/
def State.construct (n : Nat) (par : Params) : Except Refusal State :=
  if n = 0 then .error .zeroChips else .ok (State.fresh n par)

/-- The machine right after reset (10_state.md R36, 70_reset_and_hazards.md R250). -/
def State.reset : State := State.fresh Config.resetChainLength Config.params

end Sys2Proof.Machine
end

