-- ==== Sys2Proof/Machine/Frames.lean ====
section
/-! DEFINITION. The wire frames (30_encoding.md R60 to R67): what the codec serialises. -/

namespace Sys2Proof.Machine

/-- The command envelope: the code and its checksum, each high byte first (30_encoding.md R61, R66, R67). -/
def envelope (code : U16) : List Byte :=
  let p := pec15 [hi code, lo code]
  [hi code, lo code, hi p, lo p]

/-- A chip block: six data bytes and the checksum of those bytes alone (30_encoding.md R62). -/
def chipBlock (d : List Byte) : List Byte :=
  let q := pec15 d
  d ++ [hi q, lo q]

/-- The bytes of a frame for a chain of `n` chips (30_encoding.md R61, R62, R63). -/
def frameBytes (n : Nat) (f : Frame) : List Byte :=
  match f with
  | .cmd code => envelope code
  | .wr code blocks => envelope code ++ (blocks.map chipBlock).flatten
  | .rd code => envelope code ++ List.replicate (8 * n) 0

/-- The exact envelope length of the transfer (30_encoding.md R65). -/
def frameLen (n : Nat) (f : Frame) : Nat :=
  match f with
  | .cmd _ => 4
  | .wr _ _ => bufLen n
  | .rd _ => bufLen n

/-- The direction the operation requests (41_frame_write.md R111 to R115, 42_frame_read_parse.md R130). -/
def frameDir (f : Frame) : Dir :=
  match f with
  | .cmd _ => .writeOnly
  | .wr _ _ => .writeOnly
  | .rd _ => .duplex

/-- The blocks of a broadcast: all `n` carry the same payload (41_frame_write.md R112). -/
def broadcastBlocks (n : Nat) (p6 : List Byte) : List (List Byte) := List.replicate n p6

/-- The blocks of a configuration write: block `j` carries the payload of position `n - 1 - j`
(41_frame_write.md R113, 20_memory.md R49). -/
def configBlocks (n : Nat) (payloads : List (List Byte)) : List (List Byte) :=
  (List.range n).map fun j => payloads.getD (n - 1 - j) []

/-- The command code a template holds (30_encoding.md R66, R77). -/
def templateCode (t : Template) : U16 := be16 t.b0 t.b1

end Sys2Proof.Machine
end

