-- ==== Sys2Proof/Machine/Ops.lean ====
section
/-! DEFINITION. The named operations over the buffers, the mirror, the lines and the signals, among them the
completion interrupt and the return from it. -/

namespace Sys2Proof.Machine

/-! ### Buffer spaces (20_memory.md R40, 10_state.md R34) -/

/-- The canonical form of a buffer space: offsets strictly rising. (An unlisted offset holds no value, so no entry
can equal what it reads as.) -/
abbrev Memory.wf (m : Memory) : Prop := m.Pairwise fun c d => c.1 < d.1

/-- The byte at an offset, or none where it holds no value. -/
def memRead (m : Memory) (a : Nat) : Option Byte :=
  match m with
  | [] => none
  | c :: rest => if a = c.1 then some c.2 else memRead rest a

/-- `x[a] <- v`. -/
def memWrite (m : Memory) (a : Nat) (v : Byte) : Memory :=
  match m with
  | [] => [(a, v)]
  | c :: rest =>
    if a < c.1 then (a, v) :: c :: rest
    else if a = c.1 then (a, v) :: rest
    else c :: memWrite rest a v

/-- `MemWrite` of 00_scope.md R8: a byte sequence from offset `a` up. -/
def memWriteBytes (m : Memory) (a : Nat) (bs : List Byte) : Memory :=
  match bs with
  | [] => m
  | b :: rest => memWriteBytes (memWrite m a b) (a + 1) rest

/-- `MemRead` of 00_scope.md R8: `k` bytes from offset `a` up, if all hold a value. -/
def memReadBytes (m : Memory) (a k : Nat) : Option (List Byte) :=
  match k with
  | 0 => some []
  | k + 1 =>
    match memRead m a, memReadBytes m (a + 1) k with
    | some b, some rest => some (b :: rest)
    | _, _ => none

/-- What a byte becomes when a rule leaves it unspecified: what it was, or any other value (41_frame_write.md R115,
93_implementation_defined.md U11, U12), by draw `d` (log 8). -/
def unspecifiedByte (d k : Nat) (old : Option Byte) : Option Byte :=
  match old with
  | some b => some (if Config.freeFlag d k then Config.freeByte d 0 k else b)
  | none => if Config.freeFlag d k then some (Config.freeByte d 0 k) else none

/-- The bytes at offsets `0 .. len-1` are left unspecified, by draw `d`. -/
def memUnspecify (d : Nat) (m : Memory) (len : Nat) : Memory :=
  match len with
  | 0 => m
  | k + 1 =>
    let m := memUnspecify d m k
    match unspecifiedByte d k (memRead m k) with
    | some b => memWrite m k b
    | none => m

/-! ### Output ports (10_state.md R24) -/

/-- An output port does something (log 15). -/
def emit (e : PortEvent) (s : State) : State := { s with ports := s.ports ++ [e] }

/-- `phase <- p` (10_state.md R21). -/
def setPhase (p : Phase) (s : State) : State := emit (.phase p) { s with phase := p }

/-- `cs <- b` through `setChipSelect` (10_state.md R23). -/
def setCs (b : Bool) (s : State) : State := emit (.cs b) { s with cs := b }

/-- A delay: a step with no effect on state (60_exceptions.md R234). -/
def delayFor (unit : DelayUnit) (d : Nat) (s : State) : State := emit (.delay unit d) s

/-- The electrical level of the chip-select pin (00_scope.md R6 `CS_ACTIVE_LEVEL`). -/
def csPin (s : State) : Bool := s.cs == s.par.given.csActiveHigh

/-! ### Power (43_transport.md R150 to R153) -/

/-- The chip-select pulse of the wake and refresh sequences (43_transport.md R151, R152). -/
def wakePulse (unit : DelayUnit) (d : Nat) (s : State) : State :=
  let s := setPhase .wakeCs s
  let s := setCs true s
  let s := delayFor unit d s
  let s := setCs false s
  { s with pwr := .idleReady }

/-- `Refresh()` (43_transport.md R152). -/
def refreshPulse (s : State) : State := wakePulse .coarse (refreshDelay s.par.given) s

/-- The chain's Sleep step (43_transport.md R153). -/
def chainSleep (s : State) : State := { s with pwr := .asleep }

/-- A moment the block spends in phase IDLE, at which the Sleep step is enabled: whether the chain takes it is free
(43_transport.md R153, 93_implementation_defined.md U20; log 37). -/
def idleMoment (s : State) : State :=
  { s with
    pwr := if Config.freeFlag s.draws 0 then (chainSleep s).pwr else s.pwr
    draws := s.draws + 1 }

/-! ### Stage 2 of a bus operation (41_frame_write.md R110, R114) -/

/-- Every byte of the frame is written into `tx`. -/
def assembleFrame (f : Frame) (s : State) : State :=
  let s := setPhase .assemble s
  { s with tx := memWriteBytes s.tx 0 (frameBytes s.n f) }

/-! ### The receive buffer where a rule leaves it unspecified (41_frame_write.md R115, 42_frame_read_parse.md R132) -/

/-- `rx[0 .. len-1]` is unspecified: each byte is what it was or any other value, and a parse takes none of them
(R137 (e); log 8). -/
def unspecifyRx (len : Nat) (s : State) : State :=
  { s with
    rx := memUnspecify s.draws s.rx len
    rxUnspec := max s.rxUnspec len
    draws := s.draws + 1 }

/-- The value a parse finds at an offset of `rx`: none where nothing was received or where the byte is unspecified
(42_frame_read_parse.md R137 (e)). -/
def rxValue (s : State) (a : Nat) : Option Byte := if a < s.rxUnspec then none else memRead s.rx a

/-! ### The completion interrupt (60_exceptions.md R226 to R228) -/

/-- Taking the completion interrupt: the bus engine's Complete step (43_transport.md R163). It saves nothing and
touches neither buffer nor `cs` (60_exceptions.md R227). -/
def completionHandler (s : State) : State :=
  emit (.hook s.par.given.onTransferComplete)
    { s with inflight := none, doneSig := true, busState := .idle }

/-- The bus engine's Error step (43_transport.md R164): it does not give the completion signal. -/
def errorHandler (s : State) : State :=
  emit (.hook s.par.given.onError) { s with errFlag := true }

/-- The return: the sequencer takes the signal and goes on with steps A5 to A7 of 43_transport.md R160. A read
releases chip-select (R162), a write leaves it asserted (R161); after an error the received bytes are unspecified
(R164). -/
def takeCompletion (len : Nat) (dir : Dir) (s : State) : State :=
  let s := { s with doneSig := false, moved := 0 }
  let s := if dir = .duplex then setCs false s else s
  let s := if s.errFlag then unspecifyRx len s else s
  { s with status := if s.errFlag then .busError else .ok }

/-! ### The mirror (42_frame_read_parse.md R133 to R137) -/

/-- Value `k` of the chip block of position `i` in `rx`; a register without a value where a byte has none
(42_frame_read_parse.md R137 (e); log 10). -/
def rxWord (s : State) (i k : Nat) : Reg U16 :=
  match rxValue s (blockAt i + 2 * k), rxValue s (blockAt i + 2 * k + 1) with
  | some a, some b => { val := regWord s.par.regDataOrder a b, known := true }
  | _, _ => { val := Config.freeWord s.draws i k, known := false }

/-- Byte `k` of the chip block of position `i` in `rx` (42_frame_read_parse.md R136, R137 (e)). -/
def rxByte (s : State) (i k : Nat) : Reg Byte :=
  match rxValue s (blockAt i + k) with
  | some a => { val := a, known := true }
  | none => { val := Config.freeByte s.draws i k, known := false }

/-- Elements `3g`, `3g+1`, `3g+2` of a register array. -/
def setTriple {k : Nat} (v : Vector (Reg U16) k) (g : Nat) (w : Nat → Reg U16) : Vector (Reg U16) k :=
  ((v.setIfInBounds (3 * g) (w 0)).setIfInBounds (3 * g + 1) (w 1)).setIfInBounds (3 * g + 2) (w 2)

/-- What a parse of `grp` makes of the entry of position `i`. -/
def parseBoard (s : State) (grp : Group) (i : Nat) (b : Board) : Board :=
  match grp with
  | .cv g => { b with cellVoltage := setTriple b.cellVoltage g (rxWord s i) }
  | .aux g => { b with auxVoltage := setTriple b.auxVoltage g (rxWord s i) }
  | .stat g => { b with status := setTriple b.status g (rxWord s i) }
  | .cfg => { b with config := Vector.ofFn fun k => rxByte s i k.val }

/-- Every position's block into the named slice of the mirror, whatever `pec_fail` holds
(42_frame_read_parse.md R137 (b)). -/
def parseGroup (grp : Group) (s : State) : State :=
  { s with board := s.board.mapIdx (parseBoard s grp), draws := s.draws + 1 }

/-! ### The request port (10_state.md R32) -/

/-- A request is accepted only in phase IDLE, by a live session of at least one chip, with operands in range;
otherwise it is refused and no state changes (10_state.md R32, R37; 30_encoding.md R71, R74). -/
def request (inRange : Bool) (s : State) (k : State → State) : Host.Outcome State Fault Refusal :=
  if s.tornDown then .refused .sessionTornDown
  else if s.n = 0 then .refused .zeroChips
  else if s.phase ≠ .idle then .refused .requestWhileBusy
  else if inRange then .next (k { s with answer := .none })
  else .refused .operandOutOfRange

/-- An operation that performs no transfer: phase COMPUTE, its effect, phase IDLE (10_state.md R21). -/
def computing (k : State → State) (s : State) : State := setPhase .idle (k (setPhase .compute s))

/-- A parse operation and its result, none (42_frame_read_parse.md R133 to R136). -/
def parseOperation (grp : Group) (s : State) : State :=
  { computing (parseGroup grp) s with answer := .done }

/-- The operation REFRESH: the sequence, then phase IDLE (43_transport.md R152). -/
def refreshOperation (s : State) : State :=
  { setPhase .idle (refreshPulse s) with answer := .done }

/-! ### The host's accessors (10_state.md R14, R34) -/

/-- A register read through an accessor: a fault where it holds no value (10_state.md R34: "A model must treat a host
read of such an element as a fault, not as zero"; 92_eei_decisions.md D26; 93_implementation_defined.md U13, U14;
42_frame_read_parse.md R137 (e)). -/
def answerReg (e : HostElem) (r : Option (Reg U16)) (s : State) : Host.Outcome State Fault Refusal :=
  match r with
  | some r => if r.known then .next { s with answer := .element r.val } else .fault (.valueless e)
  | none => .fault (.noSuchElement e)

/-- A byte register as a 16-bit one. -/
def widen (r : Reg Byte) : Reg U16 := { val := r.val.setWidth 16, known := r.known }

/-- A buffer byte as a register; none beyond `L` (20_memory.md R40). -/
def bufferReg (s : State) (m : Memory) (k : Nat) : Option (Reg U16) :=
  if k < bufLen s.n then
    match memRead m k with
    | some v => some { val := v.setWidth 16, known := true }
    | none => some { val := 0, known := false }
  else none

/-- The number of a status code (10_state.md R29). -/
def statusNumber (st : Status) : Nat :=
  match st with
  | .ok => 0
  | .busError => 1
  | .timeout => 2

/-- The element an accessor names. -/
def hostElem (s : State) (e : HostElem) : Option (Reg U16) :=
  match e with
  | .tx k => bufferReg s s.tx k
  | .rx k => bufferReg s s.rx k
  | .config i j => (s.board[i]?).bind fun b => (b.config[j]?).map widen
  | .cellVoltage i j => (s.board[i]?).bind fun b => b.cellVoltage[j]?
  | .auxVoltage i j => (s.board[i]?).bind fun b => b.auxVoltage[j]?
  | .boardStatus i j => (s.board[i]?).bind fun b => b.status[j]?
  | .comm i j => (s.board[i]?).bind fun b => (b.comm[j]?).map widen
  | .statusCode => some { val := BitVec.ofNat 16 (statusNumber s.status), known := true }
  | .pecFail j =>
    (s.pecFail.val[j]?).map fun f => { val := (BitVec.ofBool f).setWidth 16, known := s.pecFail.known }
  | .pecOut => some s.pecOut

/-- A read through an accessor, without side effect (20_memory.md R47). -/
def hostRead (e : HostElem) (s : State) : Host.Outcome State Fault Refusal := answerReg e (hostElem s e) s

/-- The session is torn down and nothing of it survives (10_state.md R37): no byte of a buffer and no register of the
mirror holds a value, and what has no way to hold none is free (log 36). What remains is not the session's: the chain's
power state, the platform's input, what the host presents and the model's own record. -/
def teardown (s : State) : State :=
  { State.fresh s.n s.par with
    tmplCv := { b0 := Config.freeByte s.draws 0 0, b1 := Config.freeByte s.draws 0 1 }
    tmplAx := { b0 := Config.freeByte s.draws 1 0, b1 := Config.freeByte s.draws 1 1 }
    pwr := s.pwr
    cs := Config.freeFlag s.draws 0
    busState := s.busState
    errFlag := Config.freeFlag s.draws 1
    status := Config.freeStatus s.draws
    pending := s.pending
    tornDown := true
    code := Config.freeWord s.draws 0 0
    agg := Config.freeWord s.draws 0 1
    errCount := Config.freeCount s.draws
    script := s.script
    draws := s.draws + 1
    ports := s.ports }

end Sys2Proof.Machine
end

