-- ==== Sys2Proof/Machine/Flags.lean ====
section
/-! DEFINITION. The block's condition codes (10_state.md R29): the checksum-failure vector and the status, and
the fault codes of the host sequences (45_host_sequences.md). -/

namespace Sys2Proof.Machine

/-- `pec_fail[j]` (42_frame_read_parse.md R131): the received checksum of block `j` differs from the computed one.
Where a byte holds no value the flag is free (log 29). -/
def blockFails (s : State) (j : Nat) : Bool :=
  match memReadBytes s.rx (blockAt j) 6, memRead s.rx (blockAt j + 6), memRead s.rx (blockAt j + 7) with
  | some d, some h, some l => !pecCheck d (be16 h l)
  | _, _, _ => Config.freeFlag s.draws j

/-- The validation of a read: one flag per position, all positions always (42_frame_read_parse.md R131). -/
def validate (s : State) : State :=
  let s := setPhase .validate s
  { s with
    pecFail := { val := (List.range s.n).map (blockFails s), known := true }
    draws := s.draws + 1 }

/-- After a read whose transfer failed every flag is free (42_frame_read_parse.md R132; log 9). -/
def unspecifiedPecFail (s : State) : State :=
  { s with
    pecFail := { val := (List.range s.n).map (Config.freeFlag s.draws), known := true }
    draws := s.draws + 1 }

/-- Stage 4 of a write: `status` goes to the host (41_frame_write.md R110). -/
def endWrite (s : State) : State :=
  let s := setPhase .idle s
  { s with answer := .status s.status }

/-- Stage 4 of a read: validation unless the transfer failed, then the result (42_frame_read_parse.md R130, R132). -/
def endRead (s : State) : State :=
  let s := if s.status = .ok then validate s else unspecifiedPecFail s
  let s := setPhase .idle s
  { s with answer := .readResult s.status s.pecFail.val }

/-- How many positions failed: the number of ones (42_frame_read_parse.md R131). -/
def failCount (s : State) : Nat := s.pecFail.val.count true

/-- The value of element `j` of a register array as a host sequence sees it. -/
def elemVal {k : Nat} (v : Vector (Reg U16) k) (j : Nat) : U16 :=
  match v[j]? with
  | some r => r.val
  | none => 0

/-- The three 16-bit codes of a group in a chip's entry; the configuration group has none. -/
def groupWords (grp : Group) (b : Board) : List U16 :=
  match grp with
  | .cv g => [elemVal b.cellVoltage (3 * g), elemVal b.cellVoltage (3 * g + 1), elemVal b.cellVoltage (3 * g + 2)]
  | .aux g => [elemVal b.auxVoltage (3 * g), elemVal b.auxVoltage (3 * g + 1), elemVal b.auxVoltage (3 * g + 2)]
  | .stat g => [elemVal b.status (3 * g), elemVal b.status (3 * g + 1), elemVal b.status (3 * g + 2)]
  | .cfg => []

/-- The group-specific fault code (45_host_sequences.md R204: `FC[g]`). -/
def groupFault (p : Given) (grp : Group) : U16 :=
  match grp with
  | .cv g => (p.fcCv[g]?).elim 0 faultWord
  | .aux g => (p.fcAux[g]?).elim 0 faultWord
  | .stat g => (p.fcStat[g]?).elim 0 faultWord
  | .cfg => 0

/-- `PATTERN[SEL]` (45_host_sequences.md R201). -/
def expectedPattern (p : Given) : U16 := pickSelector p.pattern p.sel

/-- The comparison loop of 45_host_sequences.md R204: any mismatch sets the group's fault code. -/
def patternCode (p : Given) (grp : Group) (boards : List Board) (code : U16) : U16 :=
  boards.foldl
    (fun c b => (groupWords grp b).foldl (fun c w => if w ≠ expectedPattern p then groupFault p grp else c) c)
    code

/-- `lo <= v <= hi`, unsigned (45_host_sequences.md R208). -/
def inBand (band : Band) (v : U16) : Bool := band.lo.ule v && v.ule band.hi

/-- `chipIndex * 10 + faultCategory` as a `u16` (45_host_sequences.md R209). -/
def chipFault (i category : Nat) : U16 := BitVec.ofNat 16 (i * 10 + category)

/-- The check of the analog-supply code of chip `i` (45_host_sequences.md R208). -/
def supplyCode (p : Given) (i : Nat) (b : Board) (code : U16) : U16 :=
  if inBand p.bandVa (elemVal b.status p.idxVa.val) then code else chipFault i 2

/-- The three checks of status group B of chip `i`, in the source's order (45_host_sequences.md R208). -/
def flagsCode (p : Given) (i : Nat) (b : Board) (code : U16) : U16 :=
  let flags := elemVal b.status (3 + p.idxFlags.val)
  let c := if flags &&& p.maskThsd ≠ 0 then chipFault i 1 else code
  let c := if flags &&& p.maskMuxfail ≠ 0 then chipFault i 4 else c
  if inBand p.bandVd (elemVal b.status (3 + p.idxVd.val)) then c else chipFault i 3

/-- The check of the 2nd-reference code of chip `i` (45_host_sequences.md R210). -/
def ref2Code (p : Params) (i : Nat) (b : Board) (code : U16) : U16 :=
  if inBand p.given.bandVref2 (elemVal b.auxVoltage (3 + p.idxRef2.val)) then code else chipFault i 1

/-- A loop over the chips ascending, the last assignment winning (45_host_sequences.md R208, R210). -/
def overChips (check : Nat → Board → U16 → U16) (boards : List Board) (code : U16) : U16 :=
  boards.zipIdx.foldl (fun c bi => check bi.2 bi.1 c) code

/-- INIT's aggregate after one more sub-test (45_host_sequences.md R203). -/
def aggregateCode (rule : InitAgg) (agg code : U16) : U16 :=
  match rule with
  | .lastNonzero => if code ≠ 0 then code else agg
  | .finalOnly => code

end Sys2Proof.Machine
end

