-- ==== Sys2Proof/Machine/Transport.lean ====
section
/-! DEFINITION. The transport state machine (43_transport.md): the idle wait, blocking and asynchronous transfer,
one move of an agent at a time. -/

namespace Sys2Proof.Machine

/-- Whether a poll lets the transfer start (43_transport.md R155): idle for a blocking one, idle or receiving for
an asynchronous one. -/
def mayStart (m : Mode) (bus : BusState) : Bool :=
  match m with
  | .b _ => bus == .idle
  | .a => bus == .idle || bus == .busyRx

/-- Whether the idle wait ends with a timeout: blocking only (43_transport.md R156, R157, R160). -/
def timesOut (m : Mode) (expired : Bool) : Bool :=
  match m with
  | .b _ => expired
  | .a => false

/-- Stages 1 and 2 of a bus operation and the entry of its idle wait (41_frame_write.md R110, 43_transport.md B1, A1). -/
def beginBus (f : Frame) (s : State) : State :=
  setPhase .waitIdle (assembleFrame f (refreshPulse s))

/-- The timeout of the idle wait: chip-select released, not asserted (43_transport.md R157, R158). -/
def idleTimeout (s : State) : State := { setCs false s with status := .timeout }

/-- The busy value the platform shows while a transfer runs: which one is open (10_state.md R25; log 11). -/
def busyValue (s : State) : BusState := if Config.freeFlag s.draws 0 then .busyRx else .busy

/-- The transfer has started: `err_flag` cleared (10_state.md R28), the bus busy. What a write leaves in `rx` within the
frame is unspecified from here on (41_frame_write.md R115); a read receives all of `rx` (30_encoding.md R65), and where it
fails leaves all of it unspecified again (42_frame_read_parse.md R132). -/
def issue (len : Nat) (dir : Dir) (s : State) : State :=
  let s := { s with
    errFlag := false
    moved := 0
    busState := busyValue s
    draws := s.draws + 1 }
  match dir with
  | .writeOnly => unspecifyRx len s
  | .duplex => { s with rxUnspec := 0 }

/-- Steps B2 and B3, or A2 to A4, of 43_transport.md R156 and R160. -/
def startTransfer (m : Mode) (f : Frame) (s : State) : State :=
  let len := frameLen s.n f
  let dir := frameDir f
  let s := setCs true s
  match m with
  | .b tmo => emit (.xferStart len dir (.b tmo)) (issue len dir (setPhase .xferB s))
  | .a =>
    let s := emit (.xferStart len dir .a) (issue len dir s)
    setPhase .waitDone { s with inflight := some { len := len, dir := dir } }

/-- The bus engine moves one byte (20_memory.md R45): `tx[k]` out and, when duplex, the chain's byte into `rx[k]`. -/
def moveByte (b : Byte) (len : Nat) (dir : Dir) (s : State) : State :=
  if s.moved < len then
    let s := emit (.wire (memRead s.tx s.moved) (s.pwr == .idleReady)) s
    { s with
      rx := if dir = .duplex then memWrite s.rx s.moved b else s.rx
      moved := s.moved + 1 }
  else s

/-- Whether the platform's blocking `transfer` can return this: success only after the exact length
(43_transport.md R159). -/
def mayReturn (st : Status) (moved len : Nat) : Bool := st ≠ .ok || moved == len

/-- Steps B4 and B5: the status is the platform's, chip-select is released on every path (43_transport.md R158);
after a failure the received bytes are unspecified (R159). -/
def finishBlocking (st : Status) (len : Nat) (s : State) : State :=
  let s := { s with busState := .idle, moved := 0 }
  let s := if st = .ok then s else unspecifyRx len s
  { setCs false s with status := st }

end Sys2Proof.Machine
end

