-- ==== Sys2Proof/Machine/Sequencer.lean ====
section
/-! DEFINITION. The sequencer (10_state.md R10, R21): it runs the stages of an operation up to the next wait for
another agent, and goes on when that agent has moved. -/

namespace Sys2Proof.Machine

/-- `err_count` less the failing positions of the last read (45_host_sequences.md R211; log 17). -/
def countErrors (s : State) : State := { s with errCount := s.errCount - (failCount s : Int) }

/-- The transfer a stage makes, for the stages that make one. -/
def transferOf (t : Task) : Option (Mode × Frame) :=
  match t with
  | .bus m f => some (m, f)
  | .endWrite | .endRead | .refresh | .settle _ | .lull | .parse _ | .countErrors | .clearCode => none
  | .checkPattern _ | .checkSupply | .checkFlags | .checkRef2 => none
  | .clearAgg | .aggregate | .answerCode | .answerAgg => none

/-- The effect of a stage that makes no transfer. -/
def stage (t : Task) (s : State) : State :=
  match t with
  | .bus _ _ => s
  | .endWrite => endWrite s
  | .endRead => endRead s
  | .refresh => refreshOperation s
  | .settle d => delayFor .settle d s
  | .lull => idleMoment s
  | .parse grp => parseOperation grp s
  | .countErrors => countErrors s
  | .clearCode => { s with code := 0 }
  | .checkPattern grp => { s with code := patternCode s.par.given grp s.board s.code }
  | .checkSupply => { s with code := overChips (supplyCode s.par.given) s.board s.code }
  | .checkFlags => { s with code := overChips (flagsCode s.par.given) s.board s.code }
  | .checkRef2 => { s with code := overChips (ref2Code s.par) s.board s.code }
  | .clearAgg => { s with agg := 0 }
  | .aggregate => { s with agg := aggregateCode s.par.initAgg s.agg s.code }
  | .answerCode => { s with answer := .code s.code }
  | .answerAgg => { s with answer := .code s.agg }

/-- Runs stages until the list is empty or a transfer has to wait for the bus. -/
def runTasks (ts : List Task) (s : State) : State :=
  match ts with
  | [] => { s with todo := [] }
  | t :: rest =>
    match transferOf t with
    | some mf => beginBus mf.2 { s with todo := t :: rest }
    | none => runTasks rest (stage t s)

/-- A move of the environment during the idle wait (43_transport.md R153, R156, R160). -/
def inWaitIdle (e : EnvEvent) (m : Mode) (f : Frame) (rest : List Task) (s : State) : State :=
  match e with
  | .poll bus expired =>
    let s := { s with busState := bus }
    if mayStart m bus then startTransfer m f s
    else if timesOut m expired then runTasks rest (idleTimeout s)
    else delayFor .poll s.par.given.tPoll s
  | .sleep => chainSleep s
  | .byte _ => s
  | .ret _ => s
  | .complete => s
  | .error => s
  | .resume => s

/-- A move of the environment during a blocking transfer (43_transport.md R156, R159). -/
def inXferB (e : EnvEvent) (f : Frame) (rest : List Task) (s : State) : State :=
  match e with
  | .byte b => moveByte b (frameLen s.n f) (frameDir f) s
  | .ret st =>
    if mayReturn st s.moved (frameLen s.n f) then runTasks rest (finishBlocking st (frameLen s.n f) s) else s
  | .poll _ _ => s
  | .sleep => s
  | .complete => s
  | .error => s
  | .resume => s

/-- A move of the environment while the sequencer is suspended (43_transport.md R160, R163, R164; log 12). -/
def inWaitDone (e : EnvEvent) (f : Frame) (rest : List Task) (s : State) : State :=
  match e with
  | .byte b => if s.inflight = none then s else moveByte b (frameLen s.n f) (frameDir f) s
  | .complete => if s.inflight ≠ none ∧ s.moved = frameLen s.n f then completionHandler s else s
  | .error => if s.inflight ≠ none ∨ s.doneSig then errorHandler s else s
  | .resume => if s.doneSig then runTasks rest (takeCompletion (frameLen s.n f) (frameDir f) s) else s
  | .poll _ _ => s
  | .ret _ => s
  | .sleep => s

/-- One move of an agent other than the host, and what the sequencer then does. A move that is not enabled leaves
the state as it is (log 13). -/
def react (e : EnvEvent) (s : State) : State :=
  match s.phase with
  | .idle =>
    match e with
    | .sleep => chainSleep s
    | .poll _ _ | .byte _ | .ret _ | .complete | .error | .resume => s
  | .waitIdle =>
    match s.todo with
    | .bus m f :: rest => inWaitIdle e m f rest s
    | _ => s
  | .xferB =>
    match s.todo with
    | .bus _ f :: rest => inXferB e f rest s
    | _ => s
  | .waitDone =>
    match s.todo with
    | .bus _ f :: rest => inWaitDone e f rest s
    | _ => s
  | .wakeCs => s
  | .assemble => s
  | .validate => s
  | .compute => s

/-- The moves the script names, until the operation is over; moves that are left stay in the script. -/
def drive (es : List EnvEvent) (s : State) : State :=
  match es with
  | [] => { s with script := [] }
  | e :: rest => if s.phase = .idle then { s with script := e :: rest } else drive rest (react e s)

/-- An operation: its stages, and the environment's scripted moves as far as it needs them. Where the script ends
first, the operation stays suspended in State and later steps go on with it (log 3). -/
def operate (ts : List Task) (s : State) : State := drive s.script (runTasks ts s)

/-- One move of the environment: the script's next, or a free one where the script is empty (log 4). -/
def environmentMove (s : State) : State :=
  match s.script with
  | [] => react (Config.freeEvent s.draws) { s with draws := s.draws + 1 }
  | e :: rest => react e { s with script := rest }

end Sys2Proof.Machine
end

