-- ==== Sys2Proof/Machine/Checksum.lean ====
section
/-! DEFINITION. The checksum operations PEC15 and PECCHK (40_pec_engine.md R99, R101). -/

namespace Sys2Proof.Machine

/-- `PEC15 s` (40_pec_engine.md R101): `pec_out <- pec15(s)`, and no other flag. -/
def execPec15 (bytes : List Byte) (s : State) : Host.Outcome State Fault Refusal :=
  request (Instr.wellFormed s.n (.pec15 bytes)) s fun s =>
    { computing (fun s => { s with pecOut := { val := pec15 bytes, known := true } }) s with
      answer := .pecOut (pec15 bytes) }

/-- `PECCHK s, p` (40_pec_engine.md R99): the match is the result, no flag is written. -/
def execPecchk (p : U16) (bytes : List Byte) (s : State) : Host.Outcome State Fault Refusal :=
  request (Instr.wellFormed s.n (.pecchk p bytes)) s fun s =>
    { computing id s with answer := .matched (pecCheck bytes p) }

end Sys2Proof.Machine
end

