-- ==== Sys2Proof/Machine/FrameRead.lean ====
section
/-! DEFINITION. The read and parse operations (42_frame_read_parse.md R130 to R136). -/

namespace Sys2Proof.Machine

/-- The stages of a register read (42_frame_read_parse.md R130). -/
def readTasks (m : Mode) (addr : U16) : List Task := [.bus m (.rd addr), .endRead]

/-- `RDREG.m addr` (42_frame_read_parse.md R130). -/
def execRdreg (m : Mode) (addr : U16) (s : State) : Host.Outcome State Fault Refusal :=
  request (Instr.wellFormed s.n (.rdreg m addr)) s fun s => operate (readTasks m addr) s

/-- `PARSECV g` (42_frame_read_parse.md R133). -/
def execParsecv (g : Byte) (s : State) : Host.Outcome State Fault Refusal :=
  request (Instr.wellFormed s.n (.parsecv g)) s (parseOperation (.cv g.toNat))

/-- `PARSEAUX g` (42_frame_read_parse.md R134). -/
def execParseaux (g : Byte) (s : State) : Host.Outcome State Fault Refusal :=
  request (Instr.wellFormed s.n (.parseaux g)) s (parseOperation (.aux g.toNat))

/-- `PARSESTAT g` (42_frame_read_parse.md R135). -/
def execParsestat (g : Byte) (s : State) : Host.Outcome State Fault Refusal :=
  request (Instr.wellFormed s.n (.parsestat g)) s (parseOperation (.stat g.toNat))

/-- `PARSECFG` (42_frame_read_parse.md R136). -/
def execParsecfg (s : State) : Host.Outcome State Fault Refusal :=
  request (Instr.wellFormed s.n .parsecfg) s (parseOperation .cfg)

end Sys2Proof.Machine
end

