-- ==== Sys2Proof/Machine/FrameWrite.lean ====
section
/-! DEFINITION. The write operations WRCMD, WRBCAST and WRCFG (41_frame_write.md R110 to R113). -/

namespace Sys2Proof.Machine

/-- The stages of an operation that sends a frame and returns the status (41_frame_write.md R110). -/
def writeTasks (m : Mode) (f : Frame) : List Task := [.bus m f, .endWrite]

/-- `WRCMD.m code` (41_frame_write.md R111). -/
def execWrcmd (m : Mode) (code : U16) (s : State) : Host.Outcome State Fault Refusal :=
  request (Instr.wellFormed s.n (.wrcmd m code)) s fun s => operate (writeTasks m (.cmd code)) s

/-- `WRBCAST.m addr, p6` (41_frame_write.md R112). -/
def execWrbcast (m : Mode) (addr : U16) (p6 : List Byte) (s : State) : Host.Outcome State Fault Refusal :=
  request (Instr.wellFormed s.n (.wrbcast m addr p6)) s fun s =>
    operate (writeTasks m (.wr addr (broadcastBlocks s.n p6))) s

/-- The frame of a configuration write (41_frame_write.md R113). -/
def configFrame (s : State) (payloads : List (List Byte)) : Frame :=
  .wr s.par.given.cmdWrcfg (configBlocks s.n payloads)

/-- `WRCFG.m P` (41_frame_write.md R113). -/
def execWrcfg (m : Mode) (payloads : List (List Byte)) (s : State) : Host.Outcome State Fault Refusal :=
  request (Instr.wellFormed s.n (.wrcfg m payloads)) s fun s =>
    operate (writeTasks m (configFrame s payloads)) s

end Sys2Proof.Machine
end

