-- ==== Sys2Proof/Machine/HostSequences.lean ====
section
/-! DEFINITION. The host sequences over the block (45_host_sequences.md R202 to R210). They stand outside the
hardware block (00_scope.md R4) and are modelled all the same (log 16). Between two of their operations, and before the
code is computed, the block stands in phase IDLE and the chain may fall asleep (43_transport.md R153; log 37). -/

namespace Sys2Proof.Machine

/-- One register group inside a test: read, count the checksum failures, parse, check. -/
def groupTasks (m : Mode) (addr : U16) (grp : Group) (check : Task) : List Task :=
  readTasks m addr ++ [.lull, .countErrors, .parse grp, .lull, check]

/-- The shape of a self-test (45_host_sequences.md R204). -/
def selfTestTasks (m : Mode) (p : Given) (cmd : U16) (groups : List (U16 × Group)) : List Task :=
  List.flatten
    [[.clearCode], writeTasks m (.cmd cmd), [.lull, .settle p.tSt, .lull],
      groups.flatMap fun g => groupTasks m g.1 g.2 (.checkPattern g.2)]

/-- The stages of `CVTEST` (45_host_sequences.md R205). -/
def cvTasks (m : Mode) (p : Given) : List Task :=
  selfTestTasks m p (pickSelector p.cmdCvst p.sel)
    [(p.cmdRdcv[0], .cv 0), (p.cmdRdcv[1], .cv 1), (p.cmdRdcv[2], .cv 2), (p.cmdRdcv[3], .cv 3)]

/-- The stages of `AUXTEST` (45_host_sequences.md R206). -/
def auxTasks (m : Mode) (p : Given) : List Task :=
  selfTestTasks m p (pickSelector p.cmdAxst p.sel) [(p.cmdRdaux[0], .aux 0), (p.cmdRdaux[1], .aux 1)]

/-- The stages of `STATTEST` (45_host_sequences.md R207). -/
def statTasks (m : Mode) (p : Given) : List Task :=
  selfTestTasks m p (pickSelector p.cmdStatst p.sel) [(p.cmdRdstat[0], .stat 0), (p.cmdRdstat[1], .stat 1)]

/-- The stages of `ADSTATTEST` (45_host_sequences.md R208). -/
def adstatTasks (m : Mode) (p : Given) : List Task :=
  List.flatten
    [[.clearCode], writeTasks m (.cmd p.cmdAdstat), [.lull, .settle p.tDiag, .lull],
      writeTasks m (.cmd p.cmdDiagn), [.lull],
      groupTasks m p.cmdRdstat[0] (.stat 0) .checkSupply, groupTasks m p.cmdRdstat[1] (.stat 1) .checkFlags]

/-- The stages of `ACCTEST` (45_host_sequences.md R210). -/
def accTasks (m : Mode) (p : Given) : List Task :=
  List.flatten
    [[.clearCode], writeTasks m (.cmd p.cmdRef2), [.lull, .settle p.tAcc, .lull],
      groupTasks m p.cmdRdaux[1] (.aux 1) .checkRef2]

/-- The stages of `INIT`, in order (45_host_sequences.md R202): no step is skipped when an earlier one fails. -/
def initTasks (m : Mode) (p : Given) (config : Frame) : List Task :=
  List.flatten
    [[.clearAgg], writeTasks m config, [.lull, .settle p.tRefup, .lull, .refresh, .lull],
      cvTasks m p, [.aggregate], auxTasks m p, [.aggregate], statTasks m p, [.aggregate],
      adstatTasks m p, [.aggregate], accTasks m p, [.aggregate, .answerAgg]]

/-- `INIT.m P` (45_host_sequences.md R202, R203). -/
def execInit (m : Mode) (payloads : List (List Byte)) (s : State) : Host.Outcome State Fault Refusal :=
  request (Instr.wellFormed s.n (.init m payloads)) s fun s =>
    operate (initTasks m s.par.given (configFrame s payloads)) s

/-- `CVTEST.m` (45_host_sequences.md R205). -/
def execCvtest (m : Mode) (s : State) : Host.Outcome State Fault Refusal :=
  request (Instr.wellFormed s.n (.cvtest m)) s fun s =>
    operate (cvTasks m s.par.given ++ [.answerCode]) s

/-- `AUXTEST.m` (45_host_sequences.md R206). -/
def execAuxtest (m : Mode) (s : State) : Host.Outcome State Fault Refusal :=
  request (Instr.wellFormed s.n (.auxtest m)) s fun s =>
    operate (auxTasks m s.par.given ++ [.answerCode]) s

/-- `STATTEST.m` (45_host_sequences.md R207). -/
def execStattest (m : Mode) (s : State) : Host.Outcome State Fault Refusal :=
  request (Instr.wellFormed s.n (.stattest m)) s fun s =>
    operate (statTasks m s.par.given ++ [.answerCode]) s

/-- `ADSTATTEST.m` (45_host_sequences.md R208). -/
def execAdstattest (m : Mode) (s : State) : Host.Outcome State Fault Refusal :=
  request (Instr.wellFormed s.n (.adstattest m)) s fun s =>
    operate (adstatTasks m s.par.given ++ [.answerCode]) s

/-- `ACCTEST.m` (45_host_sequences.md R210). -/
def execAcctest (m : Mode) (s : State) : Host.Outcome State Fault Refusal :=
  request (Instr.wellFormed s.n (.acctest m)) s fun s =>
    operate (accTasks m s.par.given ++ [.answerCode]) s

end Sys2Proof.Machine
end

