-- ==== Sys2Proof/Machine/Power.lean ====
section
/-! DEFINITION. The power operations WAKE and REFRESH (43_transport.md R151, R152). -/

namespace Sys2Proof.Machine

/-- `WAKE` (43_transport.md R151): the pulse with the short delay, by the fine primitive. -/
def execWake (s : State) : Host.Outcome State Fault Refusal :=
  request (Instr.wellFormed s.n .wake) s fun s =>
    { setPhase .idle (wakePulse .fine s.par.given.tWake s) with answer := .done }

/-- `REFRESH` (43_transport.md R152): the pulse with the longer delay, by the coarse primitive. -/
def execRefresh (s : State) : Host.Outcome State Fault Refusal :=
  request (Instr.wellFormed s.n .refresh) s refreshOperation

end Sys2Proof.Machine
end

