-- ==== Sys2Proof/Machine/Session.lean ====
section
/-! DEFINITION. The session commands (44_session_commands.md R180 to R187). -/

namespace Sys2Proof.Machine

/-- Byte 0 of a template: the bit at `MODE_HI_POS` becomes `mode[1]` (44_session_commands.md R180). -/
def modeHighByte (pos : Fin 8) (b0 mode : Byte) : Byte :=
  (b0 &&& ~~~(1#8 <<< pos.val)) ||| ((mode >>> 1 &&& 1) <<< pos.val)

/-- Byte 1 of the cell template (44_session_commands.md R180). -/
def cellLowByte (b1 mode dcp ch : Byte) : Byte :=
  (b1 &&& 0b01101000) ||| ((mode &&& 1) <<< 7) ||| (dcp <<< 4) ||| ch

/-- Byte 1 of the auxiliary template (44_session_commands.md R180). -/
def auxLowByte (b1 mode chg : Byte) : Byte :=
  (b1 &&& 0b01111000) ||| ((mode &&& 1) <<< 7) ||| chg

/-- The two templates with the conversion parameters placed (44_session_commands.md R180, R181). -/
def placeConversion (mode dcp ch chg : Byte) (s : State) : State :=
  { s with
    tmplCv := { b0 := modeHighByte s.par.modeHiPos s.tmplCv.b0 mode, b1 := cellLowByte s.tmplCv.b1 mode dcp ch }
    tmplAx := { b0 := modeHighByte s.par.modeHiPos s.tmplAx.b0 mode, b1 := auxLowByte s.tmplAx.b1 mode chg } }

/-- `SETCONV mode, dcp, ch, chg` (44_session_commands.md R180). -/
def execSetconv (mode dcp ch chg : Byte) (s : State) : Host.Outcome State Fault Refusal :=
  request (Instr.wellFormed s.n (.setconv mode dcp ch chg)) s fun s =>
    { computing (placeConversion mode dcp ch chg) s with answer := .done }

/-- `STARTCV.m` (44_session_commands.md R182): the template as it is at the time of the call. -/
def execStartcv (m : Mode) (s : State) : Host.Outcome State Fault Refusal :=
  request (Instr.wellFormed s.n (.startcv m)) s fun s =>
    operate (writeTasks m (.cmd (templateCode s.tmplCv))) s

/-- `STARTAX.m` (44_session_commands.md R183). -/
def execStartax (m : Mode) (s : State) : Host.Outcome State Fault Refusal :=
  request (Instr.wellFormed s.n (.startax m)) s fun s =>
    operate (writeTasks m (.cmd (templateCode s.tmplAx))) s

/-- `STARTCOMB.m` (44_session_commands.md R184). -/
def execStartcomb (m : Mode) (s : State) : Host.Outcome State Fault Refusal :=
  request (Instr.wellFormed s.n (.startcomb m)) s fun s =>
    operate (writeTasks m (.cmd s.par.given.cmdCombined)) s

/-- `CLRCELL.m` (44_session_commands.md R185). -/
def execClrcell (m : Mode) (s : State) : Host.Outcome State Fault Refusal :=
  request (Instr.wellFormed s.n (.clrcell m)) s fun s =>
    operate (writeTasks m (.cmd s.par.given.cmdClrcell)) s

/-- `CLRAUX.m` (44_session_commands.md R186). -/
def execClraux (m : Mode) (s : State) : Host.Outcome State Fault Refusal :=
  request (Instr.wellFormed s.n (.clraux m)) s fun s =>
    operate (writeTasks m (.cmd s.par.given.cmdClraux)) s

/-- `CLRSTAT.m` (44_session_commands.md R187). -/
def execClrstat (m : Mode) (s : State) : Host.Outcome State Fault Refusal :=
  request (Instr.wellFormed s.n (.clrstat m)) s fun s =>
    operate (writeTasks m (.cmd s.par.given.cmdClrstat)) s

end Sys2Proof.Machine
end

