-- ==== Sys2Proof/Machine/Dispatch.lean ====
section
/-! DEFINITION. The meaning of each request: one arm per row of spec/opcode_table.json. -/

namespace Sys2Proof.Machine

/-- What a request does. -/
def exec (i : Instr) (s : State) : Host.Outcome State Fault Refusal :=
  match i with
  | .pec15 bytes => Sys2Proof.Machine.execPec15 bytes s
  | .pecchk p bytes => Sys2Proof.Machine.execPecchk p bytes s
  | .wake => Sys2Proof.Machine.execWake s
  | .refresh => Sys2Proof.Machine.execRefresh s
  | .wrcmd m code => Sys2Proof.Machine.execWrcmd m code s
  | .wrbcast m addr p6 => Sys2Proof.Machine.execWrbcast m addr p6 s
  | .wrcfg m payloads => Sys2Proof.Machine.execWrcfg m payloads s
  | .rdreg m addr => Sys2Proof.Machine.execRdreg m addr s
  | .parsecv g => Sys2Proof.Machine.execParsecv g s
  | .parseaux g => Sys2Proof.Machine.execParseaux g s
  | .parsestat g => Sys2Proof.Machine.execParsestat g s
  | .parsecfg => Sys2Proof.Machine.execParsecfg s
  | .setconv mode dcp ch chg => Sys2Proof.Machine.execSetconv mode dcp ch chg s
  | .startcv m => Sys2Proof.Machine.execStartcv m s
  | .startax m => Sys2Proof.Machine.execStartax m s
  | .startcomb m => Sys2Proof.Machine.execStartcomb m s
  | .clrcell m => Sys2Proof.Machine.execClrcell m s
  | .clraux m => Sys2Proof.Machine.execClraux m s
  | .clrstat m => Sys2Proof.Machine.execClrstat m s
  | .init m payloads => Sys2Proof.Machine.execInit m payloads s
  | .cvtest m => Sys2Proof.Machine.execCvtest m s
  | .auxtest m => Sys2Proof.Machine.execAuxtest m s
  | .stattest m => Sys2Proof.Machine.execStattest m s
  | .adstattest m => Sys2Proof.Machine.execAdstattest m s
  | .acctest m => Sys2Proof.Machine.execAcctest m s

end Sys2Proof.Machine
end

