-- ==== Sys2Proof/Machine/HostPort.lean ====
section
/-! DEFINITION. Taking what the host presents (10_state.md R32, 20_memory.md R47): a request message is decoded and
executed, an accessor read is answered, a teardown ends the session. -/

namespace Sys2Proof.Machine

/-- The host's action `a` in phase IDLE, taken from the head of `pending`. A teardown of a session that is torn down
already is taken like the first, its free values drawn anew: the spec says only that requests are refused then
(10_state.md R37). DESIGN CHOICE, log 36. -/
def hostStep (a : HostAction) (s : State) : Host.Outcome State Fault Refusal :=
  match a with
  | .request bytes =>
    match decode bytes with
    | .ok i => exec i s
    | .error e => .refused (.undefinedRequest e)
  | .read e => if s.tornDown then .refused .sessionTornDown else hostRead e s
  | .teardown => .next (teardown s)

end Sys2Proof.Machine
end

