-- ==== Sys2Proof/Machine/Step.lean ====
section
/-! DEFINITION. One step of the machine: while an operation is in progress the environment moves; in phase IDLE the
host's next action is taken, before which the chain may fall asleep (43_transport.md R153), and where the host presents
nothing the environment moves (10_state.md R10, R32). -/

namespace Sys2Proof.Machine

/-- One step. -/
def step (s : State) : Host.Outcome State Fault Refusal :=
  if s.phase = .idle then
    match s.pending with
    | [] => .next (environmentMove s)
    | a :: rest => hostStep a (idleMoment { s with pending := rest })
  else .next (environmentMove s)

/-- The request with the table's bits `w`, its operand bytes zero, presented as the next thing the host does, in
phase IDLE, where step takes it (log 21). -/
def State.withFetchWord (s : State) (nbits w : Nat) : State :=
  { s with phase := .idle, pending := .request (tableMessage s.n nbits w) :: s.pending }

end Sys2Proof.Machine
end

