-- ==== Sys2Proof/Safety.lean ====
section
/-! DEFINITION. What counts as a safe state and a finished run, and the facts about the chain and the platform that
a claim may assume by name (43_transport.md R172 to R176): none of them is built into the block. -/

namespace Sys2Proof.Machine

/-- The block accepts a request: phase IDLE, a live session of at least one chip (10_state.md R32, R37, R11). -/
abbrev State.Ready (s : State) : Prop := s.phase = .idle ∧ s.tornDown = false ∧ 1 ≤ s.n

/-- A final state of a run (70_reset_and_hazards.md R252). -/
abbrev State.Final (s : State) : Prop := s.phase = .idle ∧ s.inflight = none ∧ s.doneSig = false

/-- A frame fits a chain of `n` chips: a write frame has `n` blocks of six data bytes (30_encoding.md R62). -/
def frameFits (n : Nat) (f : Frame) : Bool :=
  match f with
  | .cmd _ => true
  | .wr _ blocks => okPayloads n blocks
  | .rd _ => true

/-- Every frame still to be sent fits the chain. -/
def taskFits (n : Nat) (t : Task) : Bool :=
  match t with
  | .bus _ f => frameFits n f
  | .endWrite | .endRead | .refresh | .settle _ | .lull | .parse _ | .countErrors | .clearCode => true
  | .checkPattern _ | .checkSupply | .checkFlags | .checkRef2 => true
  | .clearAgg | .aggregate | .answerCode | .answerAgg => true

/-- One entry of the mirror and one flag per chip of a chain that has a chip (10_state.md R11, R14, R29). -/
abbrev State.SizesOk (s : State) : Prop :=
  1 ≤ s.n ∧ s.board.length = s.n ∧ s.pecFail.val.length = s.n

/-- Both buffers are in canonical form and hold nothing outside `0 .. L-1`, and no offset outside it is marked
unspecified (10_state.md R12, R13; 20_memory.md R41). -/
abbrev State.BuffersOk (s : State) : Prop :=
  Memory.wf s.tx ∧ Memory.wf s.rx ∧ (∀ c ∈ s.tx, c.1 < bufLen s.n) ∧ (∀ c ∈ s.rx, c.1 < bufLen s.n) ∧
    s.rxUnspec ≤ bufLen s.n

/-- The transfer the sequencer waits for: the head of `todo`. -/
def currentTransfer (s : State) : Option (Mode × Frame) :=
  match s.todo with
  | .bus m f :: _ => some (m, f)
  | _ => none

/-- Stage 4 of a bus operation that sends `f` (41_frame_write.md R110). -/
def resultTask (f : Frame) : Task :=
  match frameDir f with
  | .duplex => .endRead
  | .writeOnly => .endWrite

/-- Every transfer still to be made is followed by stage 4 of its operation (41_frame_write.md R110). -/
def staged (ts : List Task) : Bool :=
  match ts with
  | [] => true
  | t :: rest =>
    (match transferOf t with
      | some mf => rest.head? == some (resultTask mf.2)
      | none => true) && staged rest

/-- `phase`, `cs`, `inflight`, `done_sig` and the transfer in progress fit together (10_state.md R21, R26, R27;
43_transport.md R156, R160, R165). -/
def State.ControlOk (s : State) : Prop :=
  (∀ t ∈ s.todo, taskFits s.n t = true) ∧ staged s.todo = true ∧
  match s.phase with
  | .idle => s.todo = [] ∧ s.inflight = none ∧ s.doneSig = false
  | .waitIdle =>
    (currentTransfer s).isSome = true ∧ s.cs = false ∧ s.inflight = none ∧ s.doneSig = false
  | .xferB =>
    ∃ tmo f, currentTransfer s = some (.b tmo, f) ∧ s.cs = true ∧ s.inflight = none ∧ s.doneSig = false ∧
      s.moved ≤ frameLen s.n f
  | .waitDone =>
    ∃ f, currentTransfer s = some (.a, f) ∧ s.cs = true ∧ s.moved ≤ frameLen s.n f ∧
      ((s.inflight = some { len := frameLen s.n f, dir := frameDir f } ∧ s.doneSig = false) ∨
        (s.inflight = none ∧ s.doneSig = true ∧ s.moved = frameLen s.n f))
  | .wakeCs | .assemble | .validate | .compute => False

/-- While a transfer waits or runs, `tx` holds exactly the frame it sends (41_frame_write.md R114, 20_memory.md R54). -/
def State.FrameReady (s : State) : Prop :=
  s.phase ≠ .idle → ∀ m f, currentTransfer s = some (m, f) →
    memReadBytes s.tx 0 (frameLen s.n f) = some (frameBytes s.n f)

/-- The invariant of the machine. -/
def State.Inv (s : State) : Prop := s.SizesOk ∧ s.BuffersOk ∧ s.ControlOk ∧ s.FrameReady

/-- The bytes the block has put on the wire, oldest first (20_memory.md R40 WIRE). -/
def wireBytes (ports : List PortEvent) : List Byte :=
  ports.filterMap fun
    | .wire out _ => out
    | .phase _ | .cs _ | .delay _ _ | .xferStart _ _ _ | .hook _ => none

/-- Moves with which an idle wait goes on waiting: Sleep steps, and polls that neither let the transfer start nor
find the timeout reached (43_transport.md R153, R156, R160). -/
def keepsWaiting (m : Mode) (e : EnvEvent) : Bool :=
  match e with
  | .sleep => true
  | .poll bus expired => !mayStart m bus && !timesOut m expired
  | .byte _ | .ret _ | .complete | .error | .resume => false

/-- The environment lets a transfer run to its end: the chain sends `bytes`, then the platform returns success or
the bus engine completes and the scheduler resumes the sequencer (43_transport.md R159, R163). -/
def transferMoves (m : Mode) (bytes : List Byte) : List EnvEvent :=
  bytes.map .byte ++ (match m with | .b _ => [.ret .ok] | .a => [.complete, .resume])

/-- The environment serves a whole bus operation: the idle wait ends at the first poll, then `transferMoves`. -/
def servedMoves (m : Mode) (bytes : List Byte) : List EnvEvent := .poll .idle false :: transferMoves m bytes

/-- `moves` serve one transfer of `len` bytes in mode `m`: a wait that goes on for a while, a poll that lets the
transfer start, then `transferMoves`, in which the chain sends `bytes`. -/
def Served (m : Mode) (len : Nat) (bytes : List Byte) (moves : List EnvEvent) : Prop :=
  ∃ ws bus expired, (∀ e ∈ ws, keepsWaiting m e = true) ∧ mayStart m bus = true ∧ bytes.length = len ∧
    moves = ws ++ .poll bus expired :: transferMoves m bytes

/-- `moves` serve the listed transfers one after the other. -/
def ServedAll (m : Mode) (transfers : List (Nat × List Byte)) (moves : List EnvEvent) : Prop :=
  match transfers with
  | [] => moves = []
  | x :: rest => ∃ first more, moves = first ++ more ∧ Served m x.1 x.2 first ∧ ServedAll m rest more

/-- What the chain sends when every chip answers with its group and its own checksum: block `j` from position `j`
(43_transport.md R172, 30_encoding.md R64); `noise` is received while the envelope is sent (20_memory.md R45). -/
def chainAnswer (noise : List Byte) (groups : List (List Byte)) : List Byte :=
  noise ++ (groups.map chipBlock).flatten

/-- The group a chip answers with after a clear command (43_transport.md R175). -/
def clearedGroup : List Byte := List.replicate 6 0xFF

/-- The data bytes of a write frame that the chip at position `i` takes: block `n - 1 - i` (43_transport.md R173). -/
def takenBy (n i : Nat) (frame : List Byte) : List Byte := (frame.drop (blockAt (n - 1 - i))).take 6

/-- Chip block `j` of a frame passes the check the chip makes (43_transport.md R174). -/
def blockAccepted (frame : List Byte) (j : Nat) : Bool :=
  pecCheck ((frame.drop (blockAt j)).take 6)
    (be16 (frame.getD (blockAt j + 6) 0) (frame.getD (blockAt j + 7) 0))

/-- The command envelope of a frame passes the check the chips make (43_transport.md R174). -/
def envelopeAccepted (frame : List Byte) : Bool :=
  pecCheck (frame.take 2) (be16 (frame.getD 2 0) (frame.getD 3 0))

/-! ### The bus operations of the block -/

/-- Mode and frame of a request that makes exactly one transfer: WRCMD, WRBCAST, WRCFG, RDREG and the
pseudo-operations of 30_encoding.md R77. -/
def busFrame (s : State) (i : Instr) : Option (Mode × Frame) :=
  match i with
  | .wrcmd m code => some (m, .cmd code)
  | .wrbcast m addr p6 => some (m, .wr addr (broadcastBlocks s.n p6))
  | .wrcfg m payloads => some (m, configFrame s payloads)
  | .rdreg m addr => some (m, .rd addr)
  | .startcv m => some (m, .cmd (templateCode s.tmplCv))
  | .startax m => some (m, .cmd (templateCode s.tmplAx))
  | .startcomb m => some (m, .cmd s.par.given.cmdCombined)
  | .clrcell m => some (m, .cmd s.par.given.cmdClrcell)
  | .clraux m => some (m, .cmd s.par.given.cmdClraux)
  | .clrstat m => some (m, .cmd s.par.given.cmdClrstat)
  | .pec15 _ | .pecchk _ _ | .wake | .refresh | .parsecv _ | .parseaux _ | .parsestat _ | .parsecfg => none
  | .setconv _ _ _ _ | .init _ _ | .cvtest _ | .auxtest _ | .stattest _ | .adstattest _ | .acctest _ => none

/-- What no bus operation of the block changes: everything but the buffers, the lines and signals of a transfer,
`status`, `pec_fail`, the answer and the model's bookkeeping (41_frame_write.md R116, 60_exceptions.md R223). -/
structure SessionKept (s t : State) : Prop where
  n : t.n = s.n
  par : t.par = s.par
  board : t.board = s.board
  tmplCv : t.tmplCv = s.tmplCv
  tmplAx : t.tmplAx = s.tmplAx
  pecOut : t.pecOut = s.pecOut
  pending : t.pending = s.pending
  tornDown : t.tornDown = s.tornDown
  code : t.code = s.code
  agg : t.agg = s.agg
  errCount : t.errCount = s.errCount

/-- Chip-select after an operation whose transfer was served: asserted after an asynchronous write, released
otherwise (43_transport.md R158, R161, R162). -/
def csAfter (m : Mode) (f : Frame) : Bool :=
  match m, frameDir f with
  | .a, .writeOnly => true
  | .a, .duplex => false
  | .b _, _ => false

/-- `tx` after stage 2: the frame, and what was there beyond it (41_frame_write.md R114, 10_state.md R12). -/
structure Assembled (f : Frame) (s t : State) : Prop where
  frame : memReadBytes t.tx 0 (frameLen s.n f) = some (frameBytes s.n f)
  rest : ∀ a, frameLen s.n f ≤ a → memRead t.tx a = memRead s.tx a

/-- `rx` after a transfer that received nothing that counts: within the frame each byte is what it was or any other
value (a byte that held a value holds one), of which a parse takes none; beyond it unchanged (41_frame_write.md R115,
42_frame_read_parse.md R132, R137 (e)). -/
structure RxUnspecified (f : Frame) (s t : State) : Prop where
  within : ∀ a, a < frameLen s.n f → memRead t.rx a = memRead s.rx a ∨ ∃ b, memRead t.rx a = some b
  parsed : ∀ a, a < frameLen s.n f → rxValue t a = none
  beyond : ∀ a, frameLen s.n f ≤ a → memRead t.rx a = memRead s.rx a
  marks : frameDir f = .writeOnly → ∀ a, frameLen s.n f ≤ a → rxValue t a = rxValue s a

/-- What a write leaves when its transfer is served (41_frame_write.md R110 to R116): `pec_fail` is among what it
leaves unchanged. -/
structure WriteServed (m : Mode) (f : Frame) (s t : State) : Prop where
  phase : t.phase = .idle
  status : t.status = .ok
  answer : t.answer = .status .ok
  cs : t.cs = csAfter m f
  tx : Assembled f s t
  rx : RxUnspecified f s t
  wire : wireBytes t.ports = wireBytes s.ports ++ frameBytes s.n f
  pecFail : t.pecFail = s.pecFail
  kept : SessionKept s t

/-- The flags of a read by what was received: 1 where block `j` does not pass the check
(42_frame_read_parse.md R131). -/
def readFlags (n : Nat) (bytes : List Byte) : List Bool := (List.range n).map fun j => !blockAccepted bytes j

/-- The answer to a bus operation that ended with `st`, its flags those the state holds. -/
def resultAnswer (f : Frame) (st : Status) (t : State) : Answer :=
  match frameDir f with
  | .duplex => .readResult st t.pecFail.val
  | .writeOnly => .status st

/-- A bus operation that ended without a served transfer: its status is the answer, the frame is in `tx`, the rest
of the session is unchanged, and `pec_fail` too unless the operation is a read (60_exceptions.md R223). -/
structure BusFailed (f : Frame) (st : Status) (s t : State) : Prop where
  phase : t.phase = .idle
  status : t.status = st
  answer : t.answer = resultAnswer f st t
  tx : Assembled f s t
  pecFail : frameDir f = .writeOnly → t.pecFail = s.pecFail
  kept : SessionKept s t

/-! ### What a parse makes of the receive buffer -/

/-- Register `r` is value `k` of the block of position `i`, by the session's byte order; it holds no value where one
of the two bytes has none or is unspecified (20_memory.md R43, 42_frame_read_parse.md R137 (e)). -/
def wordParsed (s : State) (i k : Nat) (r : Reg U16) : Prop :=
  match rxValue s (blockAt i + 2 * k), rxValue s (blockAt i + 2 * k + 1) with
  | some a, some b => r = { val := regWord s.par.regDataOrder a b, known := true }
  | _, _ => r.known = false

/-- Register `r` is byte `k` of the block of position `i`; it holds no value where the byte has none or is
unspecified. -/
def byteParsed (s : State) (i k : Nat) (r : Reg Byte) : Prop :=
  match rxValue s (blockAt i + k) with
  | some a => r = { val := a, known := true }
  | none => r.known = false

/-- `new` is `old` with elements `3g .. 3g+2` parsed from the block of position `i`. -/
def sliceParsed (s : State) (i g size : Nat) (old new : Vector (Reg U16) size) : Prop :=
  ∀ e (h : e < size), if e / 3 = g then wordParsed s i (e % 3) new[e] else new[e] = old[e]

/-! ### What the host sequences answer, by the bytes their reads receive -/

/-- Value `k` of block `i` of the received bytes (20_memory.md R43). -/
def blockCode (order : ByteOrder) (bytes : List Byte) (i k : Nat) : U16 :=
  regWord order (bytes.getD (blockAt i + 2 * k) 0) (bytes.getD (blockAt i + 2 * k + 1) 0)

/-- How many blocks of the received bytes fail the check (45_host_sequences.md R204: "number of ones in fail"). -/
def badBlocks (n : Nat) (bytes : List Byte) : Nat := (readFlags n bytes).count true

/-- Some code of some chip differs from the expected pattern (45_host_sequences.md R204). -/
def patternMissed (n : Nat) (p : Params) (bytes : List Byte) : Bool :=
  (List.range n).any fun i => (List.range 3).any fun k =>
    blockCode p.regDataOrder bytes i k != expectedPattern p.given

/-- The code of a self-test: the fault code of the last group with a mismatch, 0 if none (45_host_sequences.md R204,
R205). -/
def selfTestCode (n : Nat) (p : Params) (reads : List (Group × List Byte)) : U16 :=
  reads.foldl (fun c r => if patternMissed n p r.2 then groupFault p.given r.1 else c) 0

/-- The code of the diagnostic test, `a` and `b` the received status groups A and B (45_host_sequences.md R208). -/
def adstatCode (n : Nat) (p : Params) (a b : List Byte) : U16 :=
  let afterA := (List.range n).foldl
    (fun c i => if inBand p.given.bandVa (blockCode p.regDataOrder a i p.given.idxVa) then c else chipFault i 2) 0
  (List.range n).foldl
    (fun c i =>
      let flags := blockCode p.regDataOrder b i p.given.idxFlags
      let c := if flags &&& p.given.maskThsd ≠ 0 then chipFault i 1 else c
      let c := if flags &&& p.given.maskMuxfail ≠ 0 then chipFault i 4 else c
      if inBand p.given.bandVd (blockCode p.regDataOrder b i p.given.idxVd) then c else chipFault i 3)
    afterA

/-- The code of the accuracy test, `bytes` the received auxiliary group B (45_host_sequences.md R210). -/
def accCode (n : Nat) (p : Params) (bytes : List Byte) : U16 :=
  (List.range n).foldl
    (fun c i => if inBand p.given.bandVref2 (blockCode p.regDataOrder bytes i p.idxRef2) then c else chipFault i 1) 0

/-! ### What the host sequences do on the lines -/

/-- What the lines of the block do, in order: chip-select, the delays, the starts of transfers and the bytes on the
wire. Phases, yields between polls and hooks are left out, and whether the chain was awake for a byte. -/
def lineTrace (ports : List PortEvent) : List PortEvent :=
  ports.filterMap fun
    | .wire out _ => some (.wire out true)
    | .cs b => some (.cs b)
    | .delay .fine d => some (.delay .fine d)
    | .delay .coarse d => some (.delay .coarse d)
    | .delay .settle d => some (.delay .settle d)
    | .xferStart len dir m => some (.xferStart len dir m)
    | .delay .poll _ | .phase _ | .hook _ => none

/-- The chip-select pulse of a refresh (43_transport.md R152). -/
def refreshTrace (p : Given) : List PortEvent := [.cs true, .delay .coarse (refreshDelay p), .cs false]

/-- One served bus operation: the refresh, chip-select, the transfer, every byte of the frame, and the release that its
mode and direction ask for (41_frame_write.md R110, 43_transport.md R156, R158, R160 to R162). -/
def transferTrace (n : Nat) (p : Given) (m : Mode) (f : Frame) : List PortEvent :=
  refreshTrace p ++ [.cs true, .xferStart (frameLen n f) (frameDir f) m] ++
    (frameBytes n f).map (fun b => .wire (some b) true) ++ (if csAfter m f then [] else [.cs false])

/-- A served self-test: its command, the settle delay `T_ST`, its reads in order (45_host_sequences.md R204). -/
def selfTestTrace (n : Nat) (p : Given) (m : Mode) (cmd : U16) (reads : List U16) : List PortEvent :=
  transferTrace n p m (.cmd cmd) ++ [.delay .settle p.tSt] ++ reads.flatMap fun addr => transferTrace n p m (.rd addr)

/-- The served diagnostic test (45_host_sequences.md R208). -/
def adstatTrace (n : Nat) (p : Given) (m : Mode) : List PortEvent :=
  transferTrace n p m (.cmd p.cmdAdstat) ++ [.delay .settle p.tDiag] ++ transferTrace n p m (.cmd p.cmdDiagn) ++
    transferTrace n p m (.rd p.cmdRdstat[0]) ++ transferTrace n p m (.rd p.cmdRdstat[1])

/-- The served accuracy test (45_host_sequences.md R210). -/
def accTrace (n : Nat) (p : Given) (m : Mode) : List PortEvent :=
  transferTrace n p m (.cmd p.cmdRef2) ++ [.delay .settle p.tAcc] ++ transferTrace n p m (.rd p.cmdRdaux[1])

/-- Served INIT, all its steps in order (45_host_sequences.md R202): the configuration write, block `j` carrying the
payload of position `n - 1 - j`, the settle delay `T_REFUP` and the refresh, the five tests. -/
def initTrace (n : Nat) (p : Given) (m : Mode) (payloads : List (List Byte)) : List PortEvent :=
  transferTrace n p m (.wr p.cmdWrcfg payloads.reverse) ++ [.delay .settle p.tRefup] ++ refreshTrace p ++
    selfTestTrace n p m (pickSelector p.cmdCvst p.sel) [p.cmdRdcv[0], p.cmdRdcv[1], p.cmdRdcv[2], p.cmdRdcv[3]] ++
    selfTestTrace n p m (pickSelector p.cmdAxst p.sel) [p.cmdRdaux[0], p.cmdRdaux[1]] ++
    selfTestTrace n p m (pickSelector p.cmdStatst p.sel) [p.cmdRdstat[0], p.cmdRdstat[1]] ++
    adstatTrace n p m ++ accTrace n p m

/-! ### What the host sequences leave alone -/

/-- What a host sequence does not change, whatever its reads receive (45_host_sequences.md R200). -/
structure SequenceKept (s t : State) : Prop where
  n : t.n = s.n
  par : t.par = s.par
  tmplCv : t.tmplCv = s.tmplCv
  tmplAx : t.tmplAx = s.tmplAx
  pecOut : t.pecOut = s.pecOut
  pending : t.pending = s.pending
  tornDown : t.tornDown = s.tornDown

/-- A host sequence is over: its code is the answer, the block is idle again and the moves it did not need are left
(45_host_sequences.md R204, R212). -/
structure SequenceOver (code : U16) (left : List EnvEvent) (s t : State) : Prop where
  answer : t.answer = .code code
  phase : t.phase = .idle
  script : t.script = left
  todo : t.todo = []
  kept : SequenceKept s t

/-- The arrays of the mirror that a test over cell-voltage groups does not write. -/
def besideCells (b : Board) : Vector (Reg Byte) 6 × Vector (Reg U16) 6 × Vector (Reg U16) 6 × Vector (Reg Byte) 3 :=
  (b.config, b.auxVoltage, b.status, b.comm)

/-- The arrays of the mirror that a test over auxiliary groups does not write. -/
def besideAux (b : Board) : Vector (Reg Byte) 6 × Vector (Reg U16) 12 × Vector (Reg U16) 6 × Vector (Reg Byte) 3 :=
  (b.config, b.cellVoltage, b.status, b.comm)

/-- The arrays of the mirror that a test over status groups does not write. -/
def besideStatus (b : Board) : Vector (Reg Byte) 6 × Vector (Reg U16) 12 × Vector (Reg U16) 6 × Vector (Reg Byte) 3 :=
  (b.config, b.cellVoltage, b.auxVoltage, b.comm)

/-- The arrays of the mirror that INIT does not write. -/
def besideMeasured (b : Board) : Vector (Reg Byte) 6 × Vector (Reg Byte) 3 := (b.config, b.comm)

/-! ### What a torn-down session leaves -/

/-- No element of the session holds a value (10_state.md R34, R37). -/
structure ValuesGone (t : State) : Prop where
  tx : ∀ a, memRead t.tx a = none
  rx : ∀ a, memRead t.rx a = none
  config : ∀ b ∈ t.board, ∀ k (h : k < 6), b.config[k].known = false
  cellVoltage : ∀ b ∈ t.board, ∀ k (h : k < 12), b.cellVoltage[k].known = false
  auxVoltage : ∀ b ∈ t.board, ∀ k (h : k < 6), b.auxVoltage[k].known = false
  status : ∀ b ∈ t.board, ∀ k (h : k < 6), b.status[k].known = false
  comm : ∀ b ∈ t.board, ∀ k (h : k < 3), b.comm[k].known = false
  pecFail : t.pecFail.known = false
  pecOut : t.pecOut.known = false

/-- Two states that agree on everything that is not the session's: its constructor's arguments, the chain's power
state, the platform's input, what the host presents and the model's own record (10_state.md R22, R25, R33). -/
structure SameSurroundings (s t : State) : Prop where
  n : t.n = s.n
  par : t.par = s.par
  pwr : t.pwr = s.pwr
  busState : t.busState = s.busState
  pending : t.pending = s.pending
  script : t.script = s.script
  draws : t.draws = s.draws
  ports : t.ports = s.ports

/-- `pec15` with another table in place of `PEC_TABLE` (40_pec_engine.md R91, R92). -/
def pecWith (table : Byte → U16) (seed : U16) (s : List Byte) : U16 :=
  s.foldl (fun (rem : U16) (b : Byte) => (rem <<< 8) ^^^ table (((rem >>> 7) ^^^ b.setWidth 16).setWidth 8)) seed * 2

end Sys2Proof.Machine
end

