-- ==== Sys2Proof/Certificates/Slice0/Obligations.lean ====
section
/-! DEFINITION. The statements made about the model: one `Obligations.<Name> : Prop` each, listed in
OBLIGATIONS.json with the rules of the spec they rest on. -/

open Sys2Proof Sys2Proof.Machine

/-! ### The checksum engine (40_pec_engine.md) -/

/-- R95, an inference the spec marks as its own: the bit-serial form computes the same function as the table-driven
form. Both rest on the polynomial the spec supplies (log 25). -/
def Obligations.PecMatchesSerialForm : Prop := ∀ s : List Byte, pec15 s = pecSerial s

/-- R98 (the spec marks it as derived) as far as it holds: the residue of data followed by its own checksum is zero, and the residue test agrees with
the comparison on every received checksum whose bit 0 is 0. -/
def Obligations.PecResidueZero : Prop :=
  (∀ s : List Byte, pec15 (s ++ [hi (pec15 s), lo (pec15 s)]) = 0) ∧
  ∀ (s : List Byte) (p : U16), p.getLsbD 0 = false → (pec15 (s ++ [hi p, lo p]) = 0 ↔ pec15 s = p)

/-- R98 (derived), second half as the spec words it: the residue test and the comparison accept exactly the same frames. It
fails: a received checksum with bit 0 set can leave the residue zero and never compares equal. -/
def Obligations.ResidueTestAcceptsSameFrames : Prop :=
  ∀ (s : List Byte) (p : U16), pec15 (s ++ [hi p, lo p]) = 0 ↔ pec15 s = p

/-- R75: bit 0 of every generated checksum is zero, and a received checksum with bit 0 set never matches. -/
def Obligations.ChecksumBitZero : Prop :=
  (∀ s : List Byte, (pec15 s).getLsbD 0 = false) ∧
  ∀ (s : List Byte) (p : U16), p.getLsbD 0 = true → pecCheck s p = false

/-- R92, which the spec marks as derived: bit 15 of the remainder influences neither an index nor the result: tables, and starting remainders, that
differ only in bit 15 give the same function. -/
def Obligations.RemainderBit15Immaterial : Prop :=
  (∀ s : List Byte, pec15 s = pecWith pecTable pecSeed s) ∧
  ∀ (table other : Byte → U16) (seed start : U16),
    (∀ i, (table i).setWidth 15 = (other i).setWidth 15) → seed.setWidth 15 = start.setWidth 15 →
    ∀ s : List Byte, pecWith table seed s = pecWith other start s

/-- R101, R99: PEC15 writes `pec_out` and answers it; PECCHK answers whether all 16 bits agree and writes no flag. -/
def Obligations.ChecksumOperations : Prop :=
  (∀ (p : U16) (bytes : List Byte),
    (encode (.pec15 bytes)).head? = some 0x01 ∧ (encode (.pecchk p bytes)).head? = some 0x02) ∧
  ∀ (s : State) (bytes : List Byte), s.Ready →
    exec (.pec15 bytes) s = .next { s with
      pecOut := { val := pec15 bytes, known := true }
      answer := .pecOut (pec15 bytes)
      ports := s.ports ++ [.phase .compute, .phase .idle] } ∧
    ∀ p : U16, exec (.pecchk p bytes) s = .next { s with
      answer := .matched (decide (pec15 bytes = p))
      ports := s.ports ++ [.phase .compute, .phase .idle] }

/-! ### Requests (30_encoding.md, 10_state.md R32) -/

/-- R69, R70 and log 1: decoding the message of a request gives the request back, every operand at every value. -/
def Obligations.DecodeOfEncode : Prop := ∀ i : Instr, i.inRange = true → decode (encode i) = .ok i

/-- The other direction: a message that decodes is the message of the request it decodes to, and its operands are in
range. -/
def Obligations.EncodeOfDecode : Prop :=
  ∀ (bytes : List Byte) (i : Instr), decode bytes = .ok i → encode i = bytes ∧ i.inRange = true

/-- Sample request words written out from R69 and R70, the operands as log 1 lays them out. -/
def Obligations.SampleRequestWords : Prop :=
  decode [0x01, 0x00, 0x01] = .ok (.pec15 [0x00, 0x01]) ∧
  decode [0x03] = .ok .wake ∧
  decode [0x25, 0x07, 0x11] = .ok (.wrcmd .a 0x0711) ∧
  decode [0x05, 0x00, 0x00, 0x00, 0x0A, 0x00, 0x01] = .ok (.wrcmd (.b 10) 0x0001) ∧
  decode [0x28, 0x00, 0x02] = .ok (.rdreg .a 0x0002) ∧
  decode [0x09, 0x03] = .ok (.parsecv 3) ∧
  decode [0x0D, 0x02, 0x01, 0x05, 0x06] = .ok (.setconv 2 1 5 6) ∧
  decode [0x2E] = .ok (.startcv .a) ∧
  decode [0x33] = .ok (.clrstat .a) ∧
  decode [0x3D] = .ok (.acctest .a)

/-- R71: the request bytes and the operands with no meaning are refused, and a refusal is all that happens. -/
def Obligations.MeaninglessRequestsRefused : Prop :=
  (∀ (r : Byte) (ops : List Byte), r.extractLsb' 6 2 ≠ 0 → decode (r :: ops) = .error .reservedBits) ∧
  (∀ (r : Byte) (ops : List Byte), r.extractLsb' 6 2 = 0 →
    r.extractLsb' 0 5 ∈ ([0x00, 0x14, 0x15, 0x16, 0x17, 0x1E, 0x1F] : List (BitVec 5)) →
    decode (r :: ops) = .error .noSuchOperation) ∧
  (∀ (r : Byte) (ops : List Byte), r.extractLsb' 5 3 = 1 →
    r.extractLsb' 0 5 ∈ ([0x01, 0x02, 0x03, 0x04, 0x09, 0x0A, 0x0B, 0x0C, 0x0D] : List (BitVec 5)) →
    decode (r :: ops) = .error .modeNotAllowed) ∧
  (∀ (s : State) (bytes : List Byte) (rest : List HostAction) (e : DecodeError),
    s.phase = .idle → s.pending = .request bytes :: rest → decode bytes = .error e →
    step s = .refused (.undefinedRequest e)) ∧
  (∀ (s t : State) (bytes : List Byte) (rest : List HostAction),
    s.phase = .idle → s.pending = .request bytes :: rest → step s = .next t →
    ∃ i, decode bytes = .ok i ∧ i.wellFormed s.n = true) ∧
  ∀ s : State, s.Ready →
    (∀ g : Byte, 3 < g.toNat → exec (.parsecv g) s = .refused .operandOutOfRange) ∧
    (∀ g : Byte, 1 < g.toNat → exec (.parseaux g) s = .refused .operandOutOfRange ∧
      exec (.parsestat g) s = .refused .operandOutOfRange) ∧
    (∀ mode dcp ch chg : Byte, 3 < mode.toNat ∨ 1 < dcp.toNat ∨ 7 < ch.toNat ∨ 7 < chg.toNat →
      exec (.setconv mode dcp ch chg) s = .refused .operandOutOfRange) ∧
    (∀ (m : Mode) (addr : U16) (p6 : List Byte), p6.length ≠ 6 →
      exec (.wrbcast m addr p6) s = .refused .operandOutOfRange) ∧
    ∀ (m : Mode) (payloads : List (List Byte)),
      (payloads.length ≠ s.n ∨ ∃ p ∈ payloads, p.length ≠ 6) →
      exec (.wrcfg m payloads) s = .refused .operandOutOfRange ∧
        exec (.init m payloads) s = .refused .operandOutOfRange

/-- R32, R71, R74: a request gets a next state exactly from a ready block with operands in range, and never a
fault. -/
def Obligations.RequestAcceptedExactly : Prop :=
  (∀ (i : Instr) (s : State), (∃ t, exec i s = .next t) ↔ s.Ready ∧ i.wellFormed s.n = true) ∧
  ∀ (i : Instr) (s : State) (r : Fault), exec i s ≠ .fault r

/-- R32, R165: outside phase IDLE no request is accepted: the step belongs to the environment and what the host
presents stays pending. -/
def Obligations.BusyBlockAcceptsNothing : Prop :=
  ∀ s : State, s.phase ≠ .idle →
    (∃ t, step s = .next t ∧ t.pending = s.pending) ∧
    ∀ i : Instr, s.tornDown = false → 1 ≤ s.n → exec i s = .refused .requestWhileBusy

/-- R74, R37: no session is constructed with `N = 0`, every `N >= 1` is, no operation runs with `N = 0`, and after
teardown the block accepts no request. A teardown leaves no value anywhere, and nothing survives it: what follows is the
same whatever the session held (log 36). -/
def Obligations.NoSessionNoOperation : Prop :=
  (∀ par : Params, State.construct 0 par = .error .zeroChips) ∧
  (∀ (n : Nat) (par : Params), 1 ≤ n → State.construct n par = .ok (State.fresh n par)) ∧
  (∀ (i : Instr) (s : State), s.n = 0 → s.tornDown = false → exec i s = .refused .zeroChips) ∧
  (∀ (i : Instr) (s : State), s.tornDown = true → exec i s = .refused .sessionTornDown) ∧
  (∀ (s : State) (rest : List HostAction), s.phase = .idle → s.pending = .teardown :: rest →
    ∃ t, step s = .next t ∧ t.tornDown = true ∧ t.answer = .none ∧ t.phase = .idle ∧ t.pending = rest ∧
      t.inflight = none ∧ t.doneSig = false ∧ t.n = s.n ∧ t.par = s.par ∧ t.ports = s.ports ∧ ValuesGone t) ∧
  ∀ (s s' : State) (rest : List HostAction), s.phase = .idle → s'.phase = .idle →
    s.pending = .teardown :: rest → SameSurroundings s s' → step s = step s'

/-- A step in phase IDLE runs the request the host presents, decoded, on the state without it, in which the chain may
have fallen asleep: whether it has is a free flag (R153, log 37). -/
def Obligations.StepRunsDecodedRequest : Prop :=
  ∀ (s : State) (bytes : List Byte) (rest : List HostAction) (i : Instr),
    s.phase = .idle → s.pending = .request bytes :: rest → decode bytes = .ok i →
    step s = exec i { s with
      pending := rest
      pwr := if Config.freeFlag s.draws 0 then .asleep else s.pwr
      draws := s.draws + 1 }

/-- R77: the pseudo-operations are WRCMD with a fixed or stored code, and a configuration write of equal payloads is
a broadcast of CMD_WRCFG. -/
def Obligations.PseudoOperationsExpand : Prop :=
  ∀ (m : Mode) (s : State),
    exec (.startcv m) s = exec (.wrcmd m (be16 s.tmplCv.b0 s.tmplCv.b1)) s ∧
    exec (.startax m) s = exec (.wrcmd m (be16 s.tmplAx.b0 s.tmplAx.b1)) s ∧
    exec (.startcomb m) s = exec (.wrcmd m s.par.given.cmdCombined) s ∧
    exec (.clrcell m) s = exec (.wrcmd m s.par.given.cmdClrcell) s ∧
    exec (.clraux m) s = exec (.wrcmd m s.par.given.cmdClraux) s ∧
    exec (.clrstat m) s = exec (.wrcmd m s.par.given.cmdClrstat) s ∧
    ∀ p6 : List Byte,
      exec (.wrcfg m (List.replicate s.n p6)) s = exec (.wrbcast m s.par.given.cmdWrcfg p6) s

/-! ### Frames (30_encoding.md R61 to R65, 20_memory.md) -/

/-- R61, R62, R63: every byte of the three wire formats, and which payload each block of a write frame carries. -/
def Obligations.FrameLayout : Prop :=
  (∀ (n : Nat) (f : Frame), frameFits n f = true → (frameBytes n f).length = frameLen n f) ∧
  (∀ (n : Nat) (code : U16),
    frameBytes n (.cmd code) = [hi code, lo code, hi (pec15 [hi code, lo code]), lo (pec15 [hi code, lo code])]) ∧
  (∀ d : List Byte, (lo (pec15 d)).getLsbD 0 = false) ∧
  (∀ (n : Nat) (code : U16) (blocks : List (List Byte)), frameFits n (.wr code blocks) = true →
    (frameBytes n (.wr code blocks)).take 4 = frameBytes n (.cmd code) ∧
    ∀ j (h : j < blocks.length),
      (∀ k, k < 6 → (frameBytes n (.wr code blocks))[4 + 8 * j + k]? = blocks[j][k]?) ∧
      (frameBytes n (.wr code blocks))[4 + 8 * j + 6]? = some (hi (pec15 blocks[j])) ∧
      (frameBytes n (.wr code blocks))[4 + 8 * j + 7]? = some (lo (pec15 blocks[j]))) ∧
  (∀ (s : State) (m : Mode) (addr : U16) (p6 : List Byte),
    busFrame s (.wrbcast m addr p6) = some (m, .wr addr (List.replicate s.n p6))) ∧
  (∀ (s : State) (m : Mode) (payloads : List (List Byte)), payloads.length = s.n →
    ∃ blocks, busFrame s (.wrcfg m payloads) = some (m, .wr s.par.given.cmdWrcfg blocks) ∧ blocks.length = s.n ∧
      ∀ j, j < s.n → blocks[j]? = payloads[s.n - 1 - j]?) ∧
  ∀ (n : Nat) (code : U16),
    (frameBytes n (.rd code)).take 4 = frameBytes n (.cmd code) ∧
    ∀ k, 4 ≤ k → k < 4 + 8 * n → (frameBytes n (.rd code))[k]? = some 0

/-- R49 with chain fact R173: the chip at position `i` takes the payload meant for it from a configuration frame. -/
def Obligations.ConfigPayloadReachesItsChip : Prop :=
  ∀ (n : Nat) (code : U16) (payloads : List (List Byte)) (i : Nat) (h : i < payloads.length),
    okPayloads n payloads = true →
    takenBy n i (frameBytes n (.wr code (configBlocks n payloads))) = payloads[i]

/-- R117, which the spec marks as derived: after WRBCAST or WRCFG every block of `tx`, and the envelope, passes PECCHK. -/
def Obligations.WrittenFramesValidate : Prop :=
  ∀ (s t : State) (i : Instr),
    ((∃ m addr p6, i = .wrbcast m addr p6) ∨ ∃ m payloads, i = .wrcfg m payloads) → exec i s = .next t →
    (∃ c p q, memReadBytes t.tx 0 2 = some c ∧ memRead t.tx 2 = some p ∧ memRead t.tx 3 = some q ∧
      pecCheck c (be16 p q) = true) ∧
    ∀ j, j < s.n → ∃ d p q, memReadBytes t.tx (4 + 8 * j) 6 = some d ∧
      memRead t.tx (4 + 8 * j + 6) = some p ∧ memRead t.tx (4 + 8 * j + 7) = some q ∧
      pecCheck d (be16 p q) = true

/-! ### Power (43_transport.md) -/

/-- R151, R152: WAKE, and REFRESH with a longer delay by the coarse primitive, from either power state and whatever
`cs` was. That the longer delay is compared in thousandths of a coarse unit is the model's choice (log 35). -/
def Obligations.WakeAndRefreshPulse : Prop :=
  ((encode .wake).head? = some 0x03 ∧ (encode .refresh).head? = some 0x04) ∧
  ∀ s : State, s.Ready →
    exec .wake s = .next { s with
      cs := false
      pwr := .idleReady
      answer := .done
      ports := s.ports ++ [.phase .wakeCs, .cs true, .delay .fine s.par.given.tWake, .cs false, .phase .idle] } ∧
    ∃ d, s.par.given.tWake < 1000 * d ∧
      exec .refresh s = .next { s with
        cs := false
        pwr := .idleReady
        answer := .done
        ports := s.ports ++ [.phase .wakeCs, .cs true, .delay .coarse d, .cs false, .phase .idle] }

/-- R153: the chain's Sleep step acts in IDLE and in WAIT_IDLE, and in no other phase; in IDLE it may also fire before
whatever the host presents is taken, and between the operations of a host sequence, which are the moments at which a
free flag says whether it does (log 37). -/
def Obligations.SleepOnlyInIdleOrWait : Prop :=
  ∀ s : State,
    (s.phase = .idle → react .sleep s = { s with pwr := .asleep }) ∧
    (s.phase = .waitIdle → (currentTransfer s).isSome = true → react .sleep s = { s with pwr := .asleep }) ∧
    (s.phase ≠ .idle → s.phase ≠ .waitIdle → react .sleep s = s) ∧
    stage .lull s = { s with
      pwr := if Config.freeFlag s.draws 0 then .asleep else s.pwr
      draws := s.draws + 1 } ∧
    ∀ (a : HostAction) (rest : List HostAction), s.phase = .idle → s.pending = a :: rest →
      step s = hostStep a { s with
        pending := rest
        pwr := if Config.freeFlag s.draws 0 then .asleep else s.pwr
        draws := s.draws + 1 }

/-- R22: no rule of the block reads `pwr`: a step from a state that differs in `pwr` alone ends in a state that
differs in `pwr` and in what the ports record alone. -/
def Obligations.PowerStateNotRead : Prop :=
  ∀ (s t : State) (p : Power), step s = .next t →
    ∃ t', step { s with pwr := p } = .next t' ∧ { t' with pwr := t.pwr, ports := t.ports } = t

/-! ### Bus operations (41_frame_write.md, 42_frame_read_parse.md R130 to R132, 43_transport.md) -/

/-- R111: WRCMD, its transfer served. -/
def Obligations.WrcmdServed : Prop :=
  ∀ (s : State) (m : Mode) (code : U16) (bytes : List Byte) (moves left : List EnvEvent),
    s.Ready → Served m 4 bytes moves → s.script = moves ++ left →
    ∃ t, exec (.wrcmd m code) s = .next t ∧ t.script = left ∧ WriteServed m (.cmd code) s t

/-- R112: WRBCAST, its transfer served: every block carries the one payload. -/
def Obligations.WrbcastServed : Prop :=
  ∀ (s : State) (m : Mode) (addr : U16) (p6 bytes : List Byte) (moves left : List EnvEvent),
    s.Ready → p6.length = 6 → Served m (bufLen s.n) bytes moves → s.script = moves ++ left →
    ∃ t, exec (.wrbcast m addr p6) s = .next t ∧ t.script = left ∧
      WriteServed m (.wr addr (List.replicate s.n p6)) s t

/-- R113: WRCFG, its transfer served: block `j` carries the payload of position `N-1-j`, in the order in which the
payloads stand reversed. -/
def Obligations.WrcfgServed : Prop :=
  ∀ (s : State) (m : Mode) (payloads : List (List Byte)) (bytes : List Byte) (moves left : List EnvEvent),
    s.Ready → payloads.length = s.n → (∀ p ∈ payloads, p.length = 6) →
    Served m (bufLen s.n) bytes moves → s.script = moves ++ left →
    ∃ t, exec (.wrcfg m payloads) s = .next t ∧ t.script = left ∧
      WriteServed m (.wr s.par.given.cmdWrcfg payloads.reverse) s t

/-- R182, R183, R184: the conversion starts, their transfers served. -/
def Obligations.ConversionStartsServed : Prop :=
  ∀ (s : State) (m : Mode) (bytes : List Byte) (moves left : List EnvEvent),
    s.Ready → Served m 4 bytes moves → s.script = moves ++ left →
    (∃ t, exec (.startcv m) s = .next t ∧ t.script = left ∧
      WriteServed m (.cmd (be16 s.tmplCv.b0 s.tmplCv.b1)) s t) ∧
    (∃ t, exec (.startax m) s = .next t ∧ t.script = left ∧
      WriteServed m (.cmd (be16 s.tmplAx.b0 s.tmplAx.b1)) s t) ∧
    ∃ t, exec (.startcomb m) s = .next t ∧ t.script = left ∧
      WriteServed m (.cmd s.par.given.cmdCombined) s t

/-- R185, R186, R187: the clears, their transfers served; the mirror keeps its values. -/
def Obligations.ClearsServed : Prop :=
  ∀ (s : State) (m : Mode) (bytes : List Byte) (moves left : List EnvEvent),
    s.Ready → Served m 4 bytes moves → s.script = moves ++ left →
    (∃ t, exec (.clrcell m) s = .next t ∧ t.script = left ∧
      WriteServed m (.cmd s.par.given.cmdClrcell) s t) ∧
    (∃ t, exec (.clraux m) s = .next t ∧ t.script = left ∧
      WriteServed m (.cmd s.par.given.cmdClraux) s t) ∧
    ∃ t, exec (.clrstat m) s = .next t ∧ t.script = left ∧
      WriteServed m (.cmd s.par.given.cmdClrstat) s t

/-- R110, R130, R156, R160, R162: the stages of a bus operation whose first poll finds the bus acceptable, as the output
ports show them, in order: those of a write, and those of a read, which releases chip-select before its checksums are
validated in either mode. -/
def Obligations.ServedBusTrace : Prop :=
  ∀ (s : State) (i : Instr) (m : Mode) (f : Frame) (bus : BusState) (expired : Bool) (bytes : List Byte)
    (left : List EnvEvent),
    s.Ready → i.wellFormed s.n = true → busFrame s i = some (m, f) →
    mayStart m bus = true → bytes.length = frameLen s.n f →
    s.script = .poll bus expired :: (transferMoves m bytes ++ left) →
    ∃ t, exec i s = .next t ∧ t.script = left ∧ t.ports = s.ports ++
      [.phase .wakeCs, .cs true, .delay .coarse (refreshDelay s.par.given), .cs false,
        .phase .assemble, .phase .waitIdle, .cs true] ++
      (match m with
        | .b tmo => [.phase .xferB, .xferStart (frameLen s.n f) (frameDir f) (.b tmo)]
        | .a => [.xferStart (frameLen s.n f) (frameDir f) .a, .phase .waitDone]) ++
      (frameBytes s.n f).map (fun b => .wire (some b) true) ++
      (match m, frameDir f with
        | .b _, .writeOnly => [.cs false, .phase .idle]
        | .b _, .duplex => [.cs false, .phase .validate, .phase .idle]
        | .a, .writeOnly => [.hook s.par.given.onTransferComplete, .phase .idle]
        | .a, .duplex => [.hook s.par.given.onTransferComplete, .cs false, .phase .validate, .phase .idle])

/-- R130, R131: RDREG, its transfer served: what was received is in `rx` and a parse finds it there, one flag per
position, status ST_OK whatever the flags are. -/
def Obligations.RdregServed : Prop :=
  ∀ (s : State) (m : Mode) (addr : U16) (bytes : List Byte) (moves left : List EnvEvent),
    s.Ready → Served m (bufLen s.n) bytes moves → s.script = moves ++ left →
    ∃ t, exec (.rdreg m addr) s = .next t ∧ t.script = left ∧ t.phase = .idle ∧ t.status = .ok ∧
      t.answer = .readResult .ok (readFlags s.n bytes) ∧
      t.pecFail = { val := readFlags s.n bytes, known := true } ∧
      t.cs = false ∧ Assembled (.rd addr) s t ∧
      memReadBytes t.rx 0 (bufLen s.n) = some bytes ∧ (∀ a, a < bufLen s.n → rxValue t a = bytes[a]?) ∧
      (∀ a, bufLen s.n ≤ a → memRead t.rx a = memRead s.rx a) ∧
      wireBytes t.ports = wireBytes s.ports ++ frameBytes s.n (.rd addr) ∧ SessionKept s t

/-- R131, last property: when every block is a group with its own checksum but for one wrong checksum at position
`k`, the read reports exactly one failure, at position `k`. -/
def Obligations.OneWrongChecksumOneFailure : Prop :=
  ∀ (s : State) (m : Mode) (addr : U16) (noise : List Byte) (groups : List (List Byte)) (k : Nat) (p : U16)
    (moves left : List EnvEvent) (hk : k < groups.length),
    s.Ready → noise.length = 4 → groups.length = s.n → (∀ d ∈ groups, d.length = 6) → p ≠ pec15 groups[k] →
    Served m (bufLen s.n)
      (noise ++ ((groups.map chipBlock).set k (groups[k] ++ [hi p, lo p])).flatten) moves →
    s.script = moves ++ left →
    ∃ t, exec (.rdreg m addr) s = .next t ∧ t.status = .ok ∧
      t.pecFail.val = (List.range s.n).map (fun j => decide (j = k))

/-- R48, R138: a group read and then parsed stands in the mirror entry of the position it came from. -/
def Obligations.ReadThenParse : Prop :=
  ∀ (s : State) (m : Mode) (addr : U16) (g : Byte) (noise : List Byte) (groups : List (List Byte))
    (moves left : List EnvEvent),
    s.Ready → s.board.length = s.n → g.toNat < 4 → noise.length = 4 → groups.length = s.n →
    (∀ d ∈ groups, d.length = 6) → Served m (bufLen s.n) (chainAnswer noise groups) moves →
    s.script = moves ++ left →
    ∃ t u, exec (.rdreg m addr) s = .next t ∧ t.pecFail.val = List.replicate s.n false ∧
      exec (.parsecv g) t = .next u ∧
      ∀ i (hi : i < groups.length) k, k < 3 → ∃ b, u.board[i]? = some b ∧
        b.cellVoltage[3 * g.toNat + k]? =
          some { val := regWord s.par.regDataOrder (groups[i].getD (2 * k) 0) (groups[i].getD (2 * k + 1) 0),
                 known := true }

/-- R188, which the spec marks as derived: when every chip answers with the cleared pattern, no flag is set and each
parse, of every group it takes, stores 0xFFFF in every element of its slice, 0xFF in every configuration byte. -/
def Obligations.ClearedGroupsReadAllOnes : Prop :=
  ∀ (s : State) (m : Mode) (addr : U16) (noise : List Byte) (moves left : List EnvEvent),
    s.Ready → s.board.length = s.n → noise.length = 4 →
    Served m (bufLen s.n) (chainAnswer noise (List.replicate s.n clearedGroup)) moves →
    s.script = moves ++ left →
    ∃ t, exec (.rdreg m addr) s = .next t ∧ t.status = .ok ∧ t.pecFail.val = List.replicate s.n false ∧
      (∀ g : Byte, g.toNat < 4 → ∃ u, exec (.parsecv g) t = .next u ∧
        ∀ i, i < s.n → ∃ b, u.board[i]? = some b ∧
          ∀ k, k < 3 → b.cellVoltage[3 * g.toNat + k]? = some { val := 0xFFFF, known := true }) ∧
      (∀ g : Byte, g.toNat < 2 → ∃ u v, exec (.parseaux g) t = .next u ∧ exec (.parsestat g) t = .next v ∧
        ∀ i, i < s.n → ∃ b c, u.board[i]? = some b ∧ v.board[i]? = some c ∧
          ∀ k, k < 3 → b.auxVoltage[3 * g.toNat + k]? = some { val := 0xFFFF, known := true } ∧
            c.status[3 * g.toNat + k]? = some { val := 0xFFFF, known := true }) ∧
      ∃ u, exec .parsecfg t = .next u ∧
        ∀ i, i < s.n → ∃ b, u.board[i]? = some b ∧ ∀ k (h : k < 6), b.config[k] = { val := 0xFF, known := true }

/-- R157: a blocking idle wait that finds the timeout reached: ST_TIMEOUT, chip-select asserted by the refresh alone and
not for the transfer, nothing on the wire, `rx` unchanged, `pwr` as the refresh and the Sleep steps left it; and no poll that finds the bus idle times out. R155, R160: what a poll does by what it shows, in either mode and
whichever stages follow: a blocking wait goes on until the bus is idle, an asynchronous one until it is idle or receiving, and an
asynchronous wait has no timeout. -/
def Obligations.IdleWaitTimeout : Prop :=
  (∀ (s : State) (i : Instr) (tmo : BitVec 32) (f : Frame) (ws left : List EnvEvent) (bus : BusState),
    s.Ready → i.wellFormed s.n = true → busFrame s i = some (.b tmo, f) →
    (∀ e ∈ ws, keepsWaiting (.b tmo) e = true) → bus ≠ .idle → s.script = ws ++ .poll bus true :: left →
    ∃ t, exec i s = .next t ∧ t.script = left ∧ BusFailed f .timeout s t ∧ t.cs = false ∧
      t.rx = s.rx ∧ t.rxUnspec = s.rxUnspec ∧
      t.pwr = (if EnvEvent.sleep ∈ ws then .asleep else .idleReady) ∧
      wireBytes t.ports = wireBytes s.ports ∧
      t.ports.count (.cs true) = s.ports.count (.cs true) + 1) ∧
  (∀ (s : State) (tmo : BitVec 32) (f : Frame) (rest : List Task) (expired : Bool) (bus : BusState),
    s.phase = .waitIdle → s.todo = .bus (.b tmo) f :: rest →
    (react (.poll .idle expired) s).phase = .xferB ∧ (react (.poll .idle expired) s).cs = true ∧
    (bus ≠ .idle → react (.poll bus false) s = { s with
      busState := bus
      ports := s.ports ++ [.delay .poll s.par.given.tPoll] })) ∧
  ∀ (s : State) (f : Frame) (rest : List Task) (expired : Bool) (bus : BusState),
    s.phase = .waitIdle → s.todo = .bus .a f :: rest →
    (bus = .idle ∨ bus = .busyRx → (react (.poll bus expired) s).phase = .waitDone ∧
      (react (.poll bus expired) s).cs = true ∧
      (react (.poll bus expired) s).inflight = some { len := frameLen s.n f, dir := frameDir f }) ∧
    react (.poll .busy expired) s = { s with
      busState := .busy
      ports := s.ports ++ [.delay .poll s.par.given.tPoll] }

/-- R159: the platform's transfer returns a failure after some bytes: that status, chip-select released, `rx` within
the frame unspecified. -/
def Obligations.BlockingTransferFailure : Prop :=
  ∀ (s : State) (i : Instr) (tmo : BitVec 32) (f : Frame) (ws left : List EnvEvent) (expired : Bool)
    (bytes : List Byte) (st : Status),
    s.Ready → i.wellFormed s.n = true → busFrame s i = some (.b tmo, f) →
    (∀ e ∈ ws, keepsWaiting (.b tmo) e = true) → st ≠ .ok → bytes.length ≤ frameLen s.n f →
    s.script = ws ++ .poll .idle expired :: (bytes.map .byte ++ .ret st :: left) →
    ∃ t, exec i s = .next t ∧ t.script = left ∧ BusFailed f st s t ∧ t.cs = false ∧ RxUnspecified f s t ∧
      wireBytes t.ports = wireBytes s.ports ++ (frameBytes s.n f).take bytes.length

/-- R164, R167, R229: an asynchronous transfer that errs and completes, in either order, ends with ST_BUS_ERROR. -/
def Obligations.AsyncErrorAndCompletion : Prop :=
  ∀ (s : State) (i : Instr) (f : Frame) (ws left events : List EnvEvent) (bus : BusState) (expired : Bool)
    (bytes : List Byte),
    s.Ready → i.wellFormed s.n = true → busFrame s i = some (.a, f) →
    (∀ e ∈ ws, keepsWaiting .a e = true) → mayStart .a bus = true → bytes.length = frameLen s.n f →
    (events = [.error, .complete, .resume] ∨ events = [.complete, .error, .resume]) →
    s.script = ws ++ .poll bus expired :: (bytes.map .byte ++ (events ++ left)) →
    ∃ t, exec i s = .next t ∧ t.script = left ∧ BusFailed f .busError s t ∧ t.cs = csAfter .a f ∧
      RxUnspecified f s t

/-- R164, R166, R261: without a completion an asynchronous operation stays suspended, chip-select asserted, whatever
else happens. -/
def Obligations.NoCompletionNoEnd : Prop :=
  ∀ (s : State) (i : Instr) (f : Frame) (ws others : List EnvEvent) (bus : BusState) (expired : Bool),
    s.Ready → i.wellFormed s.n = true → busFrame s i = some (.a, f) → s.doneSig = false →
    (∀ e ∈ ws, keepsWaiting .a e = true) → mayStart .a bus = true → (∀ e ∈ others, e ≠ .complete) →
    s.script = ws ++ .poll bus expired :: others →
    ∃ t, exec i s = .next t ∧ t.phase = .waitDone ∧ t.cs = true ∧ t.doneSig = false ∧
      t.inflight = some { len := frameLen s.n f, dir := frameDir f }

/-- R158: a blocking operation that is over has released chip-select, on every path; while it waits for the bus
chip-select is released too. The second clause says so of an operation that was suspended before: whatever move takes
it out of its idle wait or its transfer leaves chip-select released, and a move that keeps it waiting does too. -/
def Obligations.BlockingReleasesChipSelect : Prop :=
  (∀ (s t : State) (i : Instr) (tmo : BitVec 32) (f : Frame),
    busFrame s i = some (.b tmo, f) → exec i s = .next t → t.cs = true → t.phase = .xferB) ∧
  ∀ (s : State) (e : EnvEvent) (tmo : BitVec 32) (f : Frame) (rest : List Task),
    s.todo = .bus (.b tmo) f :: rest → (s.phase = .xferB ∨ s.phase = .waitIdle ∧ s.cs = false) →
    (react e s).cs = true → (react e s).phase = .xferB

/-- R161, R162, R167: an asynchronous operation that is over: chip-select asserted after a write and released after a
read, the status ST_BUS_ERROR exactly when `err_flag` is set, never ST_TIMEOUT. The second clause is the step in which
the sequencer takes the signal. -/
def Obligations.AsyncOperationOver : Prop :=
  (∀ (s t : State) (i : Instr) (f : Frame),
    busFrame s i = some (.a, f) → exec i s = .next t → t.phase = .idle →
    t.cs = csAfter .a f ∧ t.status = (if t.errFlag then .busError else .ok)) ∧
  ∀ (s : State) (f : Frame), s.phase = .waitDone → s.todo = [.bus .a f, resultTask f] → s.doneSig = true →
    (react .resume s).phase = .idle ∧ (react .resume s).doneSig = false ∧
      (react .resume s).cs = (if frameDir f = .duplex then false else s.cs) ∧
      (react .resume s).status = (if s.errFlag then .busError else .ok) ∧
      (react .resume s).answer = resultAnswer f (if s.errFlag then .busError else .ok) (react .resume s)

/-- R114, R12: whatever the environment does, `tx` holds the frame of the operation, and beyond it what it held. -/
def Obligations.FrameAssembledAfresh : Prop :=
  ∀ (s t : State) (i : Instr) (m : Mode) (f : Frame),
    busFrame s i = some (m, f) → exec i s = .next t → Assembled f s t

/-- R116, R115, and R223, which the spec marks as derived: whatever the environment does, a bus operation leaves the
mirror, the templates, `pec_out` and the session as they were, `rx` beyond its frame too, and `pec_fail` unless it is a
read; within the frame of a write a byte of `rx` is what it was or any other value, so that none loses its value. The
first clause says it of the later moves of an operation that was suspended. -/
def Obligations.BusOperationFrame : Prop :=
  (∀ (s : State) (e : EnvEvent), (∀ grp, Task.parse grp ∉ s.todo) → (react e s).board = s.board) ∧
  ∀ (s t : State) (i : Instr) (m : Mode) (f : Frame),
    busFrame s i = some (m, f) → exec i s = .next t →
    SessionKept s t ∧ (frameDir f = .writeOnly → t.pecFail = s.pecFail) ∧
    (∀ a, frameLen s.n f ≤ a → memRead t.rx a = memRead s.rx a) ∧
    (∀ a, a < frameLen s.n f → frameDir f = .writeOnly →
      memRead t.rx a = memRead s.rx a ∨ ∃ b, memRead t.rx a = some b)

/-- R45, R54: whatever the environment does, the bytes an operation puts on the wire are its own frame's, in order,
and all of them when it is over with ST_OK. The premise on `done_sig` is part of `State.Inv` in phase IDLE. The first
clauses are the byte moves themselves, of a transfer that runs in XFER_B or WAIT_DONE, whoever started it: the next byte
of `tx` goes out, the byte received is stored at the same offset when the transfer is duplex and only then, and no byte
moves beyond the frame or with no transfer in flight (log 13); in a state that meets the invariant that byte of `tx` is
the frame's. -/
def Obligations.WireCarriesOnlyTheFrame : Prop :=
  (∀ (s : State) (m : Mode) (f : Frame) (rest : List Task) (b : Byte), s.todo = .bus m f :: rest →
    s.phase = .xferB ∨ s.phase = .waitDone ∧ s.inflight ≠ none →
    react (.byte b) s =
      if s.moved < frameLen s.n f then
        { s with
          moved := s.moved + 1
          rx := if frameDir f = .duplex then memWrite s.rx s.moved b else s.rx
          ports := s.ports ++ [.wire (memRead s.tx s.moved) (s.pwr == .idleReady)] }
      else s) ∧
  (∀ (s : State) (b : Byte), s.phase = .waitDone → s.inflight = none → react (.byte b) s = s) ∧
  (∀ (s : State) (m : Mode) (f : Frame) (rest : List Task), s.Inv → s.phase ≠ .idle → s.todo = .bus m f :: rest →
    ∀ k, k < frameLen s.n f → memRead s.tx k = (frameBytes s.n f)[k]?) ∧
  ∀ (s t : State) (i : Instr) (m : Mode) (f : Frame),
    s.doneSig = false → busFrame s i = some (m, f) → exec i s = .next t →
    ∃ k, k ≤ frameLen s.n f ∧ wireBytes t.ports = wireBytes s.ports ++ (frameBytes s.n f).take k ∧
      (t.phase = .idle → t.status = .ok → k = frameLen s.n f)

/-- R159, and then R163, R164, R228. A blocking return in XFER_B is taken exactly when it is a failure or all bytes have
moved (log 13), and ends the operation: its status and answer, chip-select released, `rx` kept on success and within the
frame unspecified after a failure, the flags of what was received when a read succeeds. The Complete step has its effect exactly when a transfer is in flight and all its bytes have
moved, it is no step otherwise, and no other move gives the completion signal; the Error step sets `err_flag` and
touches neither `inflight` nor `done_sig`. -/
def Obligations.CompletionAndErrorSteps : Prop :=
  (∀ (s : State) (m : Mode) (f : Frame) (rest : List Task), s.phase = .xferB → s.todo = .bus m f :: rest →
    s.moved ≠ frameLen s.n f → react (.ret .ok) s = s) ∧
  (∀ (s : State) (m : Mode) (f : Frame) (st : Status), s.phase = .xferB → s.todo = [.bus m f, resultTask f] →
    st ≠ .ok ∨ s.moved = frameLen s.n f →
    ∃ t, react (.ret st) s = t ∧ t.phase = .idle ∧ t.todo = [] ∧ t.status = st ∧ t.answer = resultAnswer f st t ∧
      t.cs = false ∧ t.busState = .idle ∧ t.tx = s.tx ∧ SessionKept s t ∧
      wireBytes t.ports = wireBytes s.ports ∧
      (st = .ok → t.rx = s.rx ∧ t.rxUnspec = s.rxUnspec) ∧ (st ≠ .ok → RxUnspecified f s t) ∧
      (frameDir f = .writeOnly → t.pecFail = s.pecFail) ∧
      (st = .ok → frameDir f = .duplex → ∀ bytes, memReadBytes s.rx 0 (frameLen s.n f) = some bytes →
        t.pecFail = { val := readFlags s.n bytes, known := true })) ∧
  (∀ (s : State) (m : Mode) (f : Frame) (rest : List Task), s.phase = .waitDone → s.todo = .bus m f :: rest →
    (s.inflight ≠ none → s.moved = frameLen s.n f →
      react .complete s = { s with
        inflight := none
        doneSig := true
        busState := .idle
        ports := s.ports ++ [.hook s.par.given.onTransferComplete] }) ∧
    (s.inflight = none → react .complete s = s) ∧
    (s.moved ≠ frameLen s.n f → react .complete s = s) ∧
    (s.inflight ≠ none →
      react .error s = { s with errFlag := true, ports := s.ports ++ [.hook s.par.given.onError] })) ∧
  ∀ (s : State) (e : EnvEvent), (react e s).doneSig = true → s.doneSig = true ∨ e = .complete ∧ s.inflight ≠ none

/-! ### Parse operations (42_frame_read_parse.md R133 to R137) -/

/-- R133: PARSECV, and its group index out of range; the frame is R137 (d). -/
def Obligations.ParsecvStoresGroup : Prop :=
  (∀ g : Byte, (encode (.parsecv g)).head? = some 0x09) ∧
  (∀ (s : State) (g : Byte), s.Ready → 3 < g.toNat → exec (.parsecv g) s = .refused .operandOutOfRange) ∧
  ∀ (s : State) (g : Byte), s.Ready → g.toNat < 4 →
    ∃ board, exec (.parsecv g) s = .next { s with
        board := board, draws := s.draws + 1, answer := .done
        ports := s.ports ++ [.phase .compute, .phase .idle] } ∧
      board.length = s.board.length ∧
      ∀ i (h : i < s.board.length) (h' : i < board.length),
        board[i] = { s.board[i] with cellVoltage := board[i].cellVoltage } ∧
        sliceParsed s i g.toNat 12 s.board[i].cellVoltage board[i].cellVoltage

/-- R134, R135: PARSEAUX and PARSESTAT, and their group index out of range; the frame is R137 (d). -/
def Obligations.ParseauxAndParsestatStoreGroup : Prop :=
  (∀ g : Byte, (encode (.parseaux g)).head? = some 0x0A ∧ (encode (.parsestat g)).head? = some 0x0B) ∧
  (∀ (s : State) (g : Byte), s.Ready → 1 < g.toNat →
    exec (.parseaux g) s = .refused .operandOutOfRange ∧ exec (.parsestat g) s = .refused .operandOutOfRange) ∧
  ∀ (s : State) (g : Byte), s.Ready → g.toNat < 2 →
    (∃ board, exec (.parseaux g) s = .next { s with
        board := board, draws := s.draws + 1, answer := .done
        ports := s.ports ++ [.phase .compute, .phase .idle] } ∧
      board.length = s.board.length ∧
      ∀ i (h : i < s.board.length) (h' : i < board.length),
        board[i] = { s.board[i] with auxVoltage := board[i].auxVoltage } ∧
        sliceParsed s i g.toNat 6 s.board[i].auxVoltage board[i].auxVoltage) ∧
    ∃ board, exec (.parsestat g) s = .next { s with
        board := board, draws := s.draws + 1, answer := .done
        ports := s.ports ++ [.phase .compute, .phase .idle] } ∧
      board.length = s.board.length ∧
      ∀ i (h : i < s.board.length) (h' : i < board.length),
        board[i] = { s.board[i] with status := board[i].status } ∧
        sliceParsed s i g.toNat 6 s.board[i].status board[i].status

/-- R136: PARSECFG; the frame is R137 (d). -/
def Obligations.ParsecfgStoresBytes : Prop :=
  (encode .parsecfg).head? = some 0x0C ∧
  ∀ s : State, s.Ready →
    ∃ board, exec .parsecfg s = .next { s with
        board := board, draws := s.draws + 1, answer := .done
        ports := s.ports ++ [.phase .compute, .phase .idle] } ∧
      board.length = s.board.length ∧
      ∀ i (h : i < s.board.length) (h' : i < board.length),
        board[i] = { s.board[i] with config := board[i].config } ∧
        ∀ k (hk : k < 6), byteParsed s i k board[i].config[k]

/-- R137 (a): parsing a buffer twice of which a parse takes every byte, none of them unspecified, gives the same mirror. -/
def Obligations.ParseTwiceSameMirror : Prop :=
  ∀ (s t u : State) (i : Instr),
    ((∃ g, i = .parsecv g) ∨ (∃ g, i = .parseaux g) ∨ (∃ g, i = .parsestat g) ∨ i = .parsecfg) →
    s.board.length = s.n → (∀ a, a < bufLen s.n → (rxValue s a).isSome = true) →
    exec i s = .next t → exec i t = .next u → u.board = t.board

/-! ### Session commands (44_session_commands.md) -/

/-- R180: SETCONV, bit by bit, for every MODE_HI_POS, and its operands out of range. -/
def Obligations.SetconvPlacesFields : Prop :=
  (∀ mode dcp ch chg : Byte, (encode (.setconv mode dcp ch chg)).head? = some 0x0D) ∧
  (∀ (s : State) (mode dcp ch chg : Byte), s.Ready →
    3 < mode.toNat ∨ 1 < dcp.toNat ∨ 7 < ch.toNat ∨ 7 < chg.toNat →
    exec (.setconv mode dcp ch chg) s = .refused .operandOutOfRange) ∧
  ∀ (s : State) (mode dcp ch chg : Byte), s.Ready →
    mode.toNat < 4 → dcp.toNat < 2 → ch.toNat < 8 → chg.toNat < 8 →
    ∃ cv ax, exec (.setconv mode dcp ch chg) s = .next { s with
        tmplCv := cv, tmplAx := ax, answer := .done
        ports := s.ports ++ [.phase .compute, .phase .idle] } ∧
      (∀ k, k < 8 →
        cv.b0.getLsbD k = (if k = s.par.modeHiPos.val then mode.getLsbD 1 else s.tmplCv.b0.getLsbD k) ∧
        ax.b0.getLsbD k = (if k = s.par.modeHiPos.val then mode.getLsbD 1 else s.tmplAx.b0.getLsbD k)) ∧
      (∀ k, k < 8 →
        cv.b1.getLsbD k =
          (if k = 7 then mode.getLsbD 0 else if k = 4 then dcp.getLsbD 0 else if k < 3 then ch.getLsbD k
            else s.tmplCv.b1.getLsbD k)) ∧
      ∀ k, k < 8 →
        ax.b1.getLsbD k =
          (if k = 7 then mode.getLsbD 0 else if k < 3 then chg.getLsbD k else s.tmplAx.b1.getLsbD k)

/-- R181 (b): a call overwrites what the call before it placed. -/
def Obligations.SetconvOverwrites : Prop :=
  ∀ (s t u v : State) (mode dcp ch chg mode' dcp' ch' chg' : Byte),
    exec (.setconv mode dcp ch chg) s = .next t → exec (.setconv mode' dcp' ch' chg') t = .next u →
    exec (.setconv mode' dcp' ch' chg') s = .next v → u.tmplCv = v.tmplCv ∧ u.tmplAx = v.tmplAx

/-! ### Rules about the whole machine -/

/-- R20, R29: only SETCONV writes the templates, and only PEC15 writes `pec_out`; a teardown ends the session that held
them (R37, log 36). -/
def Obligations.TemplatesAndPecOutWriters : Prop :=
  ∀ s t : State, step s = .next t →
    ((t.tmplCv ≠ s.tmplCv ∨ t.tmplAx ≠ s.tmplAx) →
      (∃ bytes rest mode dcp ch chg, s.phase = .idle ∧ s.pending = .request bytes :: rest ∧
        decode bytes = .ok (.setconv mode dcp ch chg)) ∨ ∃ rest, s.phase = .idle ∧ s.pending = .teardown :: rest) ∧
    (t.pecOut ≠ s.pecOut →
      (∃ bytes rest data, s.phase = .idle ∧ s.pending = .request bytes :: rest ∧
        decode bytes = .ok (.pec15 data)) ∨
        ∃ rest, s.phase = .idle ∧ s.pending = .teardown :: rest)

/-- R11, R33, R19, R14: no step changes the chain length, a parameter, the number of mirror entries, or the pass-through
bytes of any chip, but for a teardown, after which no pass-through byte holds a value (R37, log 36). -/
def Obligations.NeverWritten : Prop :=
  ∀ s t : State, step s = .next t →
    t.n = s.n ∧ t.par = s.par ∧
    (t.board.length = s.board.length ∨
      (∃ rest, s.phase = .idle ∧ s.pending = .teardown :: rest) ∧ t.board.length = s.n) ∧
    ∀ i (h : i < s.board.length) (h' : i < t.board.length), t.board[i].comm = s.board[i].comm ∨
      (∃ rest, s.phase = .idle ∧ s.pending = .teardown :: rest) ∧ ∀ k (hk : k < 3), t.board[i].comm[k].known = false

/-- R34, R47, R14, R29: an accessor read of an element that holds a value answers it and changes nothing else (the Sleep step
the chain may take before it, R153, is not the read's); a read of one that holds none is a fault. A byte of `rx` that a rule leaves unspecified is read like any other (R115). Which storage each accessor reads: the two buffers byte by byte within `L`, the five
arrays of the mirror, `status` as 0, 1 or 2, a flag as 0 or 1, `pec_out`. That a value is answered as 16 bits, and the
fault where there is no such element, are the model's choice (log 34). -/
def Obligations.HostReadWithoutSideEffect : Prop :=
  (∀ (s : State) (e : HostElem) (rest : List HostAction),
    s.phase = .idle → s.tornDown = false → s.pending = .read e :: rest →
    (∀ v, hostElem s e = some { val := v, known := true } →
      step s = .next { s with
        pending := rest
        answer := .element v
        pwr := if Config.freeFlag s.draws 0 then .asleep else s.pwr
        draws := s.draws + 1 }) ∧
    (∀ v, hostElem s e = some { val := v, known := false } → step s = .fault (.valueless e)) ∧
    (hostElem s e = none → step s = .fault (.noSuchElement e))) ∧
  (∀ (s : State) (k : Nat), k < bufLen s.n →
    (∀ b, memRead s.tx k = some b → hostElem s (.tx k) = some { val := b.setWidth 16, known := true }) ∧
    (∀ b, memRead s.rx k = some b → hostElem s (.rx k) = some { val := b.setWidth 16, known := true }) ∧
    (memRead s.tx k = none → ∃ v, hostElem s (.tx k) = some { val := v, known := false }) ∧
    (memRead s.rx k = none → ∃ v, hostElem s (.rx k) = some { val := v, known := false })) ∧
  (∀ (s : State) (k : Nat), bufLen s.n ≤ k → hostElem s (.tx k) = none ∧ hostElem s (.rx k) = none) ∧
  (∀ (s : State) (i : Nat) (h : i < s.board.length),
    (∀ j (hj : j < 6),
      hostElem s (.config i j) =
        some { val := s.board[i].config[j].val.setWidth 16, known := s.board[i].config[j].known } ∧
      hostElem s (.auxVoltage i j) = some s.board[i].auxVoltage[j] ∧
      hostElem s (.boardStatus i j) = some s.board[i].status[j]) ∧
    (∀ j (hj : j < 12), hostElem s (.cellVoltage i j) = some s.board[i].cellVoltage[j]) ∧
    (∀ j (hj : j < 3), hostElem s (.comm i j) =
      some { val := s.board[i].comm[j].val.setWidth 16, known := s.board[i].comm[j].known }) ∧
    (∀ j, 6 ≤ j → hostElem s (.config i j) = none ∧ hostElem s (.auxVoltage i j) = none ∧
      hostElem s (.boardStatus i j) = none) ∧
    (∀ j, 12 ≤ j → hostElem s (.cellVoltage i j) = none) ∧
    ∀ j, 3 ≤ j → hostElem s (.comm i j) = none) ∧
  (∀ (s : State) (i j : Nat), s.board.length ≤ i →
    hostElem s (.config i j) = none ∧ hostElem s (.cellVoltage i j) = none ∧ hostElem s (.auxVoltage i j) = none ∧
    hostElem s (.boardStatus i j) = none ∧ hostElem s (.comm i j) = none) ∧
  ∀ s : State,
    (s.status = .ok → hostElem s .statusCode = some { val := 0, known := true }) ∧
    (s.status = .busError → hostElem s .statusCode = some { val := 1, known := true }) ∧
    (s.status = .timeout → hostElem s .statusCode = some { val := 2, known := true }) ∧
    (∀ j (h : j < s.pecFail.val.length),
      hostElem s (.pecFail j) = some { val := if s.pecFail.val[j] then 1 else 0, known := s.pecFail.known }) ∧
    (∀ j, s.pecFail.val.length ≤ j → hostElem s (.pecFail j) = none) ∧
    hostElem s .pecOut = some s.pecOut

/-- R36, R250: the values after construction, which performs no bus activity; the elements the table calls unspecified
hold no value. -/
def Obligations.ConstructionValues : Prop :=
  ∀ (n : Nat) (par : Params) (s : State), State.construct n par = .ok s →
    s.n = n ∧ s.par = par ∧ s.board.length = n ∧ s.phase = .idle ∧ s.pwr = .asleep ∧ s.cs = false ∧
    s.inflight = none ∧ s.doneSig = false ∧ s.errFlag = false ∧ s.status = .ok ∧
    s.tmplCv = { b0 := hi par.given.cmdCvBase, b1 := lo par.given.cmdCvBase } ∧
    s.tmplAx = { b0 := hi par.given.cmdAxBase, b1 := lo par.given.cmdAxBase } ∧
    s.pecFail.known = false ∧ s.pecOut.known = false ∧ s.pending = [] ∧ s.tornDown = false ∧ s.ports = [] ∧
    (∀ a, memRead s.tx a = none ∧ memRead s.rx a = none) ∧
    ∀ b ∈ s.board,
      (∀ k (h : k < 6), b.config[k].known = false ∧ b.auxVoltage[k].known = false ∧ b.status[k].known = false) ∧
      (∀ k (h : k < 12), b.cellVoltage[k].known = false) ∧
      ∀ k (h : k < 3), b.comm[k].known = false

/-- Every constructed session, and the machine after reset, meets the invariant. -/
def Obligations.InvariantAtReset : Prop :=
  State.reset.Inv ∧ ∀ (n : Nat) (par : Params) (s : State), State.construct n par = .ok s → s.Inv

/-- Every step keeps the invariant: the buffers keep their canonical form and stay, as the mark of what is unspecified does, within `0 .. L-1`, one mirror entry
and one flag per chip, `phase`, `cs`, `inflight` and `done_sig` fit together, and `tx` holds the frame being sent. -/
def Obligations.StepKeepsInvariant : Prop :=
  ∀ s t : State, s.Inv → step s = .next t → t.Inv

/-! ### Host sequences (45_host_sequences.md) -/

/-- R203: the aggregate is the last code that is not zero, 0 if there is none; with FINAL_ONLY it is the last code. -/
def Obligations.InitAggregate : Prop :=
  (∀ codes : List U16,
    codes.foldl (aggregateCode .lastNonzero) 0 = ((codes.filter (fun c => c != 0)).getLast?).getD 0) ∧
  ∀ (codes : List U16) (c : U16), (codes ++ [c]).foldl (aggregateCode .finalOnly) 0 = c

/-- R204, R205, R211: CVTEST, its five transfers served. The clause on `err_count` is about an integer without bound,
which is the model's choice (log 17). -/
def Obligations.CvtestServed : Prop :=
  ∀ (s : State) (m : Mode) (c b0 b1 b2 b3 : List Byte) (moves left : List EnvEvent),
    s.Ready → s.board.length = s.n →
    ServedAll m [(4, c), (bufLen s.n, b0), (bufLen s.n, b1), (bufLen s.n, b2), (bufLen s.n, b3)] moves →
    s.script = moves ++ left →
    ∃ t, exec (.cvtest m) s = .next t ∧
      SequenceOver (selfTestCode s.n s.par [(.cv 0, b0), (.cv 1, b1), (.cv 2, b2), (.cv 3, b3)]) left s t ∧
      t.agg = s.agg ∧ t.board.map besideCells = s.board.map besideCells ∧
      t.errCount = s.errCount - (badBlocks s.n b0 + badBlocks s.n b1 + badBlocks s.n b2 + badBlocks s.n b3 : Nat) ∧
      wireBytes t.ports = wireBytes s.ports ++
        (envelope (pickSelector s.par.given.cmdCvst s.par.given.sel) ++
          frameBytes s.n (.rd s.par.given.cmdRdcv[0]) ++ frameBytes s.n (.rd s.par.given.cmdRdcv[1]) ++
          frameBytes s.n (.rd s.par.given.cmdRdcv[2]) ++ frameBytes s.n (.rd s.par.given.cmdRdcv[3])) ∧
      lineTrace t.ports = lineTrace s.ports ++ selfTestTrace s.n s.par.given m
        (pickSelector s.par.given.cmdCvst s.par.given.sel)
        [s.par.given.cmdRdcv[0], s.par.given.cmdRdcv[1], s.par.given.cmdRdcv[2], s.par.given.cmdRdcv[3]]

/-- R204, R206, R207, R211: AUXTEST and STATTEST, their three transfers served. The clauses on `err_count` are about an
integer without bound, which is the model's choice (log 17). -/
def Obligations.AuxtestAndStattestServed : Prop :=
  ∀ (s : State) (m : Mode) (c b0 b1 : List Byte) (moves left : List EnvEvent),
    s.Ready → s.board.length = s.n →
    ServedAll m [(4, c), (bufLen s.n, b0), (bufLen s.n, b1)] moves → s.script = moves ++ left →
    (∃ t, exec (.auxtest m) s = .next t ∧
      SequenceOver (selfTestCode s.n s.par [(.aux 0, b0), (.aux 1, b1)]) left s t ∧
      t.agg = s.agg ∧ t.board.map besideAux = s.board.map besideAux ∧
      t.errCount = s.errCount - (badBlocks s.n b0 + badBlocks s.n b1 : Nat) ∧
      wireBytes t.ports = wireBytes s.ports ++
        (envelope (pickSelector s.par.given.cmdAxst s.par.given.sel) ++
          frameBytes s.n (.rd s.par.given.cmdRdaux[0]) ++ frameBytes s.n (.rd s.par.given.cmdRdaux[1])) ∧
      lineTrace t.ports = lineTrace s.ports ++ selfTestTrace s.n s.par.given m
        (pickSelector s.par.given.cmdAxst s.par.given.sel) [s.par.given.cmdRdaux[0], s.par.given.cmdRdaux[1]]) ∧
    ∃ t, exec (.stattest m) s = .next t ∧
      SequenceOver (selfTestCode s.n s.par [(.stat 0, b0), (.stat 1, b1)]) left s t ∧
      t.agg = s.agg ∧ t.board.map besideStatus = s.board.map besideStatus ∧
      t.errCount = s.errCount - (badBlocks s.n b0 + badBlocks s.n b1 : Nat) ∧
      wireBytes t.ports = wireBytes s.ports ++
        (envelope (pickSelector s.par.given.cmdStatst s.par.given.sel) ++
          frameBytes s.n (.rd s.par.given.cmdRdstat[0]) ++ frameBytes s.n (.rd s.par.given.cmdRdstat[1])) ∧
      lineTrace t.ports = lineTrace s.ports ++ selfTestTrace s.n s.par.given m
        (pickSelector s.par.given.cmdStatst s.par.given.sel) [s.par.given.cmdRdstat[0], s.par.given.cmdRdstat[1]]

/-- R205 to R207, the source's property: when every block received is the pattern with its own checksum, CVTEST, AUXTEST
and STATTEST answer 0 and `err_count` is as it was, for every chain; what is received beside the blocks is any `noise`. -/
def Obligations.PatternEverywherePasses : Prop :=
  ∀ (s : State) (m : Mode) (c n0 n1 n2 n3 d : List Byte) (moves left : List EnvEvent),
    s.Ready → s.board.length = s.n → n0.length = 4 → n1.length = 4 → n2.length = 4 → n3.length = 4 → d.length = 6 →
    (∀ k, k < 3 → regWord s.par.regDataOrder (d.getD (2 * k) 0) (d.getD (2 * k + 1) 0) =
      expectedPattern s.par.given) →
    s.script = moves ++ left →
    (ServedAll m
        [(4, c), (bufLen s.n, chainAnswer n0 (List.replicate s.n d)),
          (bufLen s.n, chainAnswer n1 (List.replicate s.n d)), (bufLen s.n, chainAnswer n2 (List.replicate s.n d)),
          (bufLen s.n, chainAnswer n3 (List.replicate s.n d))] moves →
      ∃ t, exec (.cvtest m) s = .next t ∧ SequenceOver 0 left s t ∧ t.errCount = s.errCount) ∧
    (ServedAll m
        [(4, c), (bufLen s.n, chainAnswer n0 (List.replicate s.n d)),
          (bufLen s.n, chainAnswer n1 (List.replicate s.n d))] moves →
      (∃ t, exec (.auxtest m) s = .next t ∧ SequenceOver 0 left s t ∧ t.errCount = s.errCount) ∧
      ∃ t, exec (.stattest m) s = .next t ∧ SequenceOver 0 left s t ∧ t.errCount = s.errCount)

/-- R208, R209, R211: ADSTATTEST, its four transfers served. That `err_count` is an integer without bound is the model's
choice (log 17), and that a code of a position beyond 6553 wraps is read from R8 (log 31). -/
def Obligations.AdstattestServed : Prop :=
  ∀ (s : State) (m : Mode) (c c' a b : List Byte) (moves left : List EnvEvent),
    s.Ready → s.board.length = s.n →
    ServedAll m [(4, c), (4, c'), (bufLen s.n, a), (bufLen s.n, b)] moves → s.script = moves ++ left →
    ∃ t, exec (.adstattest m) s = .next t ∧ SequenceOver (adstatCode s.n s.par a b) left s t ∧
      t.agg = s.agg ∧ t.board.map besideStatus = s.board.map besideStatus ∧
      t.errCount = s.errCount - (badBlocks s.n a + badBlocks s.n b : Nat) ∧
      wireBytes t.ports = wireBytes s.ports ++
        (envelope s.par.given.cmdAdstat ++ envelope s.par.given.cmdDiagn ++
          frameBytes s.n (.rd s.par.given.cmdRdstat[0]) ++ frameBytes s.n (.rd s.par.given.cmdRdstat[1])) ∧
      lineTrace t.ports = lineTrace s.ports ++ adstatTrace s.n s.par.given m

/-- R210, R209, R211: ACCTEST, its two transfers served. That `err_count` is an integer without bound is the model's
choice (log 17), and that a code of a position beyond 6553 wraps is read from R8 (log 31). -/
def Obligations.AcctestServed : Prop :=
  ∀ (s : State) (m : Mode) (c b : List Byte) (moves left : List EnvEvent),
    s.Ready → s.board.length = s.n → ServedAll m [(4, c), (bufLen s.n, b)] moves → s.script = moves ++ left →
    ∃ t, exec (.acctest m) s = .next t ∧ SequenceOver (accCode s.n s.par b) left s t ∧
      t.agg = s.agg ∧ t.board.map besideAux = s.board.map besideAux ∧
      t.errCount = s.errCount - (badBlocks s.n b : Nat) ∧
      wireBytes t.ports = wireBytes s.ports ++
        (envelope s.par.given.cmdRef2 ++ frameBytes s.n (.rd s.par.given.cmdRdaux[1])) ∧
      lineTrace t.ports = lineTrace s.ports ++ accTrace s.n s.par.given m

/-- R202, R203: INIT, all its transfers served: the configuration write of the payloads, the settle delay and the refresh,
then the five tests, as the lines show them in order; the answer is the aggregate of their codes, and `err_count` counts
the failures of all their reads. That `err_count` is an integer without bound is the model's choice (log 17). -/
def Obligations.InitServed : Prop :=
  ∀ (s : State) (m : Mode) (payloads : List (List Byte)) (w : List Byte)
    (cv v0 v1 v2 v3 cx x0 x1 cs s0 s1 cd ce d0 d1 cr r : List Byte) (moves left : List EnvEvent),
    s.Ready → s.board.length = s.n → payloads.length = s.n → (∀ p ∈ payloads, p.length = 6) →
    ServedAll m
      [(bufLen s.n, w), (4, cv), (bufLen s.n, v0), (bufLen s.n, v1), (bufLen s.n, v2), (bufLen s.n, v3),
        (4, cx), (bufLen s.n, x0), (bufLen s.n, x1), (4, cs), (bufLen s.n, s0), (bufLen s.n, s1),
        (4, cd), (4, ce), (bufLen s.n, d0), (bufLen s.n, d1), (4, cr), (bufLen s.n, r)] moves →
    s.script = moves ++ left →
    ∃ t, exec (.init m payloads) s = .next t ∧
      SequenceOver
        ([selfTestCode s.n s.par [(.cv 0, v0), (.cv 1, v1), (.cv 2, v2), (.cv 3, v3)],
          selfTestCode s.n s.par [(.aux 0, x0), (.aux 1, x1)],
          selfTestCode s.n s.par [(.stat 0, s0), (.stat 1, s1)],
          adstatCode s.n s.par d0 d1, accCode s.n s.par r].foldl (aggregateCode s.par.initAgg) 0)
        left s t ∧
      t.errCount = s.errCount - (badBlocks s.n v0 + badBlocks s.n v1 + badBlocks s.n v2 + badBlocks s.n v3 +
        badBlocks s.n x0 + badBlocks s.n x1 + badBlocks s.n s0 + badBlocks s.n s1 +
        badBlocks s.n d0 + badBlocks s.n d1 + badBlocks s.n r : Nat) ∧
      lineTrace t.ports = lineTrace s.ports ++ initTrace s.n s.par.given m payloads ∧
      t.board.map besideMeasured = s.board.map besideMeasured
end

