-- ==== Sys2Proof/Laws/Memory.lean ====
section
/-! SUPPORT. The buffer spaces: reading what was written, leaving the rest alone, keeping the canonical form. -/

namespace Sys2Proof.Machine

@[simp] theorem memRead_nil (a : Nat) : memRead [] a = none := rfl

/-- A read after a write, at every offset. -/
theorem memRead_memWrite (m : Memory) (a b : Nat) (v : Byte) :
    memRead (memWrite m a v) b = if b = a then some v else memRead m b := by
  induction m with
  | nil => simp [memWrite, memRead]
  | cons c rest ih =>
    simp only [memWrite]
    split
    · simp [memRead]
    · split
      · rename_i h; subst h; simp only [memRead]; split <;> rfl
      · simp only [memRead, ih]
        split <;> split <;> first | rfl | omega

theorem memRead_memWrite_self (m : Memory) (a : Nat) (v : Byte) : memRead (memWrite m a v) a = some v := by
  simp [memRead_memWrite]

theorem memRead_memWrite_ne (m : Memory) {a b : Nat} (v : Byte) (h : b ≠ a) :
    memRead (memWrite m a v) b = memRead m b := by
  simp [memRead_memWrite, h]

/-- A read after a byte sequence was written from offset `a` up, at every offset. -/
theorem memRead_memWriteBytes (m : Memory) (a b : Nat) (bs : List Byte) :
    memRead (memWriteBytes m a bs) b =
      if a ≤ b ∧ b < a + bs.length then bs[b - a]? else memRead m b := by
  induction bs generalizing m a with
  | nil => simp [memWriteBytes]
  | cons v rest ih =>
    simp only [memWriteBytes, ih, List.length_cons, memRead_memWrite]
    by_cases h1 : b = a
    · subst h1; simp
    · by_cases h2 : a + 1 ≤ b ∧ b < a + 1 + rest.length
      · rw [if_pos h2, if_pos (by omega)]
        obtain ⟨k, hk⟩ : ∃ k, b - a = k + 1 := ⟨b - a - 1, by omega⟩
        rw [hk, List.getElem?_cons_succ]
        congr 1; omega
      · rw [if_neg h2, if_neg h1, if_neg (by omega)]

/-- Every entry after a write is the written one or an old one. -/
theorem mem_memWrite {m : Memory} {a : Nat} {v : Byte} {c : Host.Cell} (h : c ∈ memWrite m a v) :
    c = (a, v) ∨ c ∈ m := by
  induction m with
  | nil => simpa [memWrite] using h
  | cons d rest ih =>
    simp only [memWrite] at h
    split at h
    · simpa using h
    · split at h
      · rcases List.mem_cons.1 h with h | h
        · exact .inl h
        · exact .inr (List.mem_cons_of_mem _ h)
      · rcases List.mem_cons.1 h with h | h
        · exact .inr (by simp [h])
        · exact (ih h).imp id (List.mem_cons_of_mem _)

/-- Every entry after a sequence was written lies within it or is an old one. -/
theorem mem_memWriteBytes {m : Memory} {a : Nat} {bs : List Byte} {c : Host.Cell}
    (h : c ∈ memWriteBytes m a bs) : (a ≤ c.1 ∧ c.1 < a + bs.length) ∨ c ∈ m := by
  induction bs generalizing m a with
  | nil => exact .inr h
  | cons v rest ih =>
    rcases ih h with h | h
    · exact .inl (by simp; omega)
    · rcases mem_memWrite h with h | h
      · exact .inl (by simp [h])
      · exact .inr h

/-- A write keeps the canonical form. -/
theorem memWrite_wf {m : Memory} (h : Memory.wf m) (a : Nat) (v : Byte) : Memory.wf (memWrite m a v) := by
  induction m with
  | nil => simp [memWrite]
  | cons c rest ih =>
    have hc := List.pairwise_cons.1 h
    simp only [memWrite]
    split
    · rename_i hac
      refine List.pairwise_cons.2 ⟨fun d hd => ?_, h⟩
      rcases List.mem_cons.1 hd with rfl | hd
      · exact hac
      · exact lt_trans hac (hc.1 d hd)
    · split
      · rename_i hac; subst hac
        exact List.pairwise_cons.2 ⟨hc.1, hc.2⟩
      · refine List.pairwise_cons.2 ⟨fun d hd => ?_, ih hc.2⟩
        rcases mem_memWrite hd with rfl | hd
        · show c.1 < a; omega
        · exact hc.1 d hd

/-- Writing a byte sequence keeps the canonical form. -/
theorem memWriteBytes_wf {m : Memory} (h : Memory.wf m) (a : Nat) (bs : List Byte) :
    Memory.wf (memWriteBytes m a bs) := by
  induction bs generalizing m a with
  | nil => exact h
  | cons v rest ih => exact ih (memWrite_wf h a v) (a + 1)

/-! ### Bytes left unspecified (41_frame_write.md R115) -/

/-- A byte left unspecified is what it was or some value: none that held a value loses it. -/
theorem unspecifiedByte_cases (d k : Nat) (old : Option Byte) :
    unspecifiedByte d k old = old ∨ ∃ b, unspecifiedByte d k old = some b := by
  cases old with
  | none => simp only [unspecifiedByte]; split <;> simp
  | some b => exact .inr ⟨_, rfl⟩

/-- A read after the first `len` bytes were left unspecified, at every offset. -/
theorem memRead_memUnspecify (d : Nat) (m : Memory) (len a : Nat) :
    memRead (memUnspecify d m len) a = if a < len then unspecifiedByte d a (memRead m a) else memRead m a := by
  induction len with
  | zero => simp [memUnspecify]
  | succ k ih =>
    have hk : memRead (memUnspecify d m k) k = memRead m k := by
      have aux : ∀ j, ∀ a, j ≤ a → memRead (memUnspecify d m j) a = memRead m a := by
        intro j
        induction j with
        | zero => intros; rfl
        | succ j ih => intro a h; simp only [memUnspecify]; split <;> simp [memRead_memWrite, ih a (by omega)]; omega
      exact aux k k (Nat.le_refl k)
    simp only [memUnspecify, hk]
    split <;> rename_i b hb
    · rw [memRead_memWrite, ih]
      by_cases h : a = k
      · subst h; simp [hb]
      · simp only [h, if_false]; split <;> split <;> first | rfl | omega
    · rw [ih]
      by_cases h : a = k
      · subst h
        simp only [Nat.lt_irrefl, if_false, Nat.lt_succ_self, if_true, hb]
        cases hm : memRead m a with
        | none => rfl
        | some b => simp [hm, unspecifiedByte] at hb
      · split <;> split <;> first | rfl | omega

/-- Every entry lies within the bytes left unspecified or is an old one. -/
theorem mem_memUnspecify {d : Nat} {m : Memory} {len : Nat} {c : Host.Cell} (h : c ∈ memUnspecify d m len) :
    c.1 < len ∨ c ∈ m := by
  induction len with
  | zero => exact .inr h
  | succ k ih =>
    simp only [memUnspecify] at h
    split at h
    · rcases mem_memWrite h with rfl | h
      · exact .inl (Nat.lt_succ_self k)
      · exact (ih h).imp (fun h => by omega) id
    · exact (ih h).imp (fun h => by omega) id

/-- Leaving bytes unspecified keeps the canonical form. -/
theorem memUnspecify_wf {m : Memory} (h : Memory.wf m) (d len : Nat) : Memory.wf (memUnspecify d m len) := by
  induction len with
  | zero => exact h
  | succ k ih =>
    simp only [memUnspecify]
    split
    · exact memWrite_wf ih _ _
    · exact ih

/-- Of an unspecified byte a parse takes no value, and of any other what `rx` holds (42_frame_read_parse.md R137 (e)). -/
theorem rxValue_unspecifyRx (len : Nat) (s : State) (a : Nat) :
    rxValue (unspecifyRx len s) a = if a < len then none else rxValue s a := by
  simp only [rxValue, unspecifyRx, memRead_memUnspecify]
  by_cases h : a < len
  · simp [h]
  · simp only [h, if_false]
    by_cases h' : a < s.rxUnspec
    · simp [h']
    · rw [if_neg (by omega), if_neg h']

/-- A sequence reads as `bs` exactly when each of its offsets reads as the byte of `bs`. -/
theorem memReadBytes_eq_some (m : Memory) (a k : Nat) (bs : List Byte) :
    memReadBytes m a k = some bs ↔ bs.length = k ∧ ∀ j < k, memRead m (a + j) = bs[j]? := by
  induction k generalizing a bs with
  | zero =>
    simp only [memReadBytes, Option.some.injEq]
    constructor
    · rintro rfl; simp
    · rintro ⟨h, -⟩; exact (List.length_eq_zero_iff.1 h).symm
  | succ k ih =>
    rw [memReadBytes]
    constructor
    · intro h
      split at h
      · rename_i b rest hb hrest
        obtain ⟨hlen, hall⟩ := (ih (a + 1) rest).1 hrest
        simp only [Option.some.injEq] at h
        subst h
        refine ⟨by simp [hlen], fun j hj => ?_⟩
        cases j with
        | zero => simpa using hb
        | succ j =>
          rw [List.getElem?_cons_succ, ← hall j (by omega)]
          congr 1; omega
      · cases h
    · rintro ⟨hlen, hall⟩
      cases bs with
      | nil => simp at hlen
      | cons b rest =>
        have hrest : memReadBytes m (a + 1) k = some rest := by
          refine (ih (a + 1) rest).2 ⟨by simpa using hlen, fun j hj => ?_⟩
          have := hall (j + 1) (by omega)
          rw [List.getElem?_cons_succ] at this
          rw [← this]; congr 1; omega
        have hb := hall 0 (by omega)
        simp only [Nat.add_zero, List.getElem?_cons_zero] at hb
        rw [hb, hrest]

/-- A written sequence reads back. -/
theorem memReadBytes_memWriteBytes (m : Memory) (a : Nat) (bs : List Byte) :
    memReadBytes (memWriteBytes m a bs) a bs.length = some bs := by
  rw [memReadBytes_eq_some]
  refine ⟨rfl, fun j hj => ?_⟩
  rw [memRead_memWriteBytes, if_pos (by omega)]
  congr 1; omega

/-- A part of a buffer that holds `bytes`. -/
theorem memReadBytes_part {m : Memory} {bytes : List Byte} (h : memReadBytes m 0 bytes.length = some bytes)
    {a k : Nat} (hk : a + k ≤ bytes.length) : memReadBytes m a k = some ((bytes.drop a).take k) := by
  rw [memReadBytes_eq_some] at h ⊢
  refine ⟨by simp; omega, fun j hj => ?_⟩
  have := h.2 (a + j) (by omega)
  rw [Nat.zero_add] at this
  rw [this]
  simp [hj, List.getElem?_drop]

/-- One byte of a buffer that holds `bytes`. -/
theorem memRead_part {m : Memory} {bytes : List Byte} (h : memReadBytes m 0 bytes.length = some bytes)
    {a : Nat} (ha : a < bytes.length) : memRead m a = some (bytes.getD a 0) := by
  rw [memReadBytes_eq_some] at h
  have := h.2 a ha
  rw [Nat.zero_add] at this
  rw [this]
  simp [List.getD, ha]

end Sys2Proof.Machine
end

