-- ==== Sys2Proof/Laws/Request.lean ====
section
/-! SUPPORT. The request port: when a request is answered with a next state, and what every accepted request says of
the state it came to. -/

namespace Sys2Proof.Machine

/-- The one way a request gets a next state (10_state.md R32). -/
theorem request_next {ok : Bool} {s t : State} {k : State → State} :
    request ok s k = .next t ↔ s.Ready ∧ ok = true ∧ t = k { s with answer := .none } := by
  unfold request State.Ready
  split
  · simp_all
  · split
    · simp_all
    · split
      · simp_all
      · split
        · simp_all only [Host.Outcome.next.injEq]
          constructor
          · rintro rfl; simp_all; omega
          · rintro ⟨-, -, rfl⟩; rfl
        · simp_all

/-- A ready block accepts a request whose operands are in range. -/
theorem request_of_ready {ok : Bool} {s : State} (h : s.Ready) (hok : ok = true) (k : State → State) :
    request ok s k = .next (k { s with answer := .none }) :=
  request_next.2 ⟨h, hok, rfl⟩

/-- No request ends in a fault. -/
theorem request_not_fault {ok : Bool} {s : State} {k : State → State} (r : Fault) :
    request ok s k ≠ .fault r := by
  unfold request
  split
  · simp
  · split
    · simp
    · split
      · simp
      · split <;> simp

/-! ### Each instruction as a request -/

theorem exec_pec15 (bytes : List Byte) (s : State) :
    exec (.pec15 bytes) s = request (Instr.wellFormed s.n (.pec15 bytes)) s fun s =>
      { computing (fun s => { s with pecOut := { val := pec15 bytes, known := true } }) s with
        answer := .pecOut (pec15 bytes) } := rfl

theorem exec_pecchk (p : U16) (bytes : List Byte) (s : State) :
    exec (.pecchk p bytes) s = request (Instr.wellFormed s.n (.pecchk p bytes)) s fun s =>
      { computing id s with answer := .matched (pecCheck bytes p) } := rfl

theorem exec_wake (s : State) :
    exec .wake s = request (Instr.wellFormed s.n .wake) s fun s =>
      { setPhase .idle (wakePulse .fine s.par.given.tWake s) with answer := .done } := rfl

theorem exec_refresh (s : State) :
    exec .refresh s = request (Instr.wellFormed s.n .refresh) s fun s =>
      refreshOperation s := rfl

theorem exec_wrcmd (m : Mode) (code : U16) (s : State) :
    exec (.wrcmd m code) s = request (Instr.wellFormed s.n (.wrcmd m code)) s fun s =>
      operate (writeTasks m (.cmd code)) s := rfl

theorem exec_wrbcast (m : Mode) (addr : U16) (p6 : List Byte) (s : State) :
    exec (.wrbcast m addr p6) s = request (Instr.wellFormed s.n (.wrbcast m addr p6)) s fun s =>
      operate (writeTasks m (.wr addr (broadcastBlocks s.n p6))) s := rfl

theorem exec_wrcfg (m : Mode) (payloads : List (List Byte)) (s : State) :
    exec (.wrcfg m payloads) s = request (Instr.wellFormed s.n (.wrcfg m payloads)) s fun s =>
      operate (writeTasks m (configFrame s payloads)) s := rfl

theorem exec_rdreg (m : Mode) (addr : U16) (s : State) :
    exec (.rdreg m addr) s = request (Instr.wellFormed s.n (.rdreg m addr)) s fun s =>
      operate (readTasks m addr) s := rfl

theorem exec_parsecv (g : Byte) (s : State) :
    exec (.parsecv g) s = request (Instr.wellFormed s.n (.parsecv g)) s fun s =>
      parseOperation (.cv g.toNat) s := rfl

theorem exec_parseaux (g : Byte) (s : State) :
    exec (.parseaux g) s = request (Instr.wellFormed s.n (.parseaux g)) s fun s =>
      parseOperation (.aux g.toNat) s := rfl

theorem exec_parsestat (g : Byte) (s : State) :
    exec (.parsestat g) s = request (Instr.wellFormed s.n (.parsestat g)) s fun s =>
      parseOperation (.stat g.toNat) s := rfl

theorem exec_parsecfg (s : State) :
    exec .parsecfg s = request (Instr.wellFormed s.n .parsecfg) s fun s =>
      parseOperation .cfg s := rfl

theorem exec_setconv (mode dcp ch chg : Byte) (s : State) :
    exec (.setconv mode dcp ch chg) s = request (Instr.wellFormed s.n (.setconv mode dcp ch chg)) s fun s =>
      { computing (placeConversion mode dcp ch chg) s with answer := .done } := rfl

theorem exec_startcv (m : Mode) (s : State) :
    exec (.startcv m) s = request (Instr.wellFormed s.n (.startcv m)) s fun s =>
      operate (writeTasks m (.cmd (templateCode s.tmplCv))) s := rfl

theorem exec_startax (m : Mode) (s : State) :
    exec (.startax m) s = request (Instr.wellFormed s.n (.startax m)) s fun s =>
      operate (writeTasks m (.cmd (templateCode s.tmplAx))) s := rfl

theorem exec_startcomb (m : Mode) (s : State) :
    exec (.startcomb m) s = request (Instr.wellFormed s.n (.startcomb m)) s fun s =>
      operate (writeTasks m (.cmd s.par.given.cmdCombined)) s := rfl

theorem exec_clrcell (m : Mode) (s : State) :
    exec (.clrcell m) s = request (Instr.wellFormed s.n (.clrcell m)) s fun s =>
      operate (writeTasks m (.cmd s.par.given.cmdClrcell)) s := rfl

theorem exec_clraux (m : Mode) (s : State) :
    exec (.clraux m) s = request (Instr.wellFormed s.n (.clraux m)) s fun s =>
      operate (writeTasks m (.cmd s.par.given.cmdClraux)) s := rfl

theorem exec_clrstat (m : Mode) (s : State) :
    exec (.clrstat m) s = request (Instr.wellFormed s.n (.clrstat m)) s fun s =>
      operate (writeTasks m (.cmd s.par.given.cmdClrstat)) s := rfl

theorem exec_init (m : Mode) (payloads : List (List Byte)) (s : State) :
    exec (.init m payloads) s = request (Instr.wellFormed s.n (.init m payloads)) s fun s =>
      operate (initTasks m s.par.given (configFrame s payloads)) s := rfl

theorem exec_cvtest (m : Mode) (s : State) :
    exec (.cvtest m) s = request (Instr.wellFormed s.n (.cvtest m)) s fun s =>
      operate (cvTasks m s.par.given ++ [.answerCode]) s := rfl

theorem exec_auxtest (m : Mode) (s : State) :
    exec (.auxtest m) s = request (Instr.wellFormed s.n (.auxtest m)) s fun s =>
      operate (auxTasks m s.par.given ++ [.answerCode]) s := rfl

theorem exec_stattest (m : Mode) (s : State) :
    exec (.stattest m) s = request (Instr.wellFormed s.n (.stattest m)) s fun s =>
      operate (statTasks m s.par.given ++ [.answerCode]) s := rfl

theorem exec_adstattest (m : Mode) (s : State) :
    exec (.adstattest m) s = request (Instr.wellFormed s.n (.adstattest m)) s fun s =>
      operate (adstatTasks m s.par.given ++ [.answerCode]) s := rfl

theorem exec_acctest (m : Mode) (s : State) :
    exec (.acctest m) s = request (Instr.wellFormed s.n (.acctest m)) s fun s =>
      operate (accTasks m s.par.given ++ [.answerCode]) s := rfl

/-- Every request that gets a next state found a ready block and operands in range (30_encoding.md R71). -/
theorem exec_next_ready {i : Instr} {s t : State} (h : exec i s = .next t) :
    s.Ready ∧ i.wellFormed s.n = true := by
  cases i with
  | pec15 bytes => rw [exec_pec15] at h; exact ⟨(request_next.1 h).1, (request_next.1 h).2.1⟩
  | pecchk p bytes => rw [exec_pecchk] at h; exact ⟨(request_next.1 h).1, (request_next.1 h).2.1⟩
  | wake => rw [exec_wake] at h; exact ⟨(request_next.1 h).1, (request_next.1 h).2.1⟩
  | refresh => rw [exec_refresh] at h; exact ⟨(request_next.1 h).1, (request_next.1 h).2.1⟩
  | wrcmd m code => rw [exec_wrcmd] at h; exact ⟨(request_next.1 h).1, (request_next.1 h).2.1⟩
  | wrbcast m addr p6 => rw [exec_wrbcast] at h; exact ⟨(request_next.1 h).1, (request_next.1 h).2.1⟩
  | wrcfg m payloads => rw [exec_wrcfg] at h; exact ⟨(request_next.1 h).1, (request_next.1 h).2.1⟩
  | rdreg m addr => rw [exec_rdreg] at h; exact ⟨(request_next.1 h).1, (request_next.1 h).2.1⟩
  | parsecv g => rw [exec_parsecv] at h; exact ⟨(request_next.1 h).1, (request_next.1 h).2.1⟩
  | parseaux g => rw [exec_parseaux] at h; exact ⟨(request_next.1 h).1, (request_next.1 h).2.1⟩
  | parsestat g => rw [exec_parsestat] at h; exact ⟨(request_next.1 h).1, (request_next.1 h).2.1⟩
  | parsecfg => rw [exec_parsecfg] at h; exact ⟨(request_next.1 h).1, (request_next.1 h).2.1⟩
  | setconv mode dcp ch chg => rw [exec_setconv] at h; exact ⟨(request_next.1 h).1, (request_next.1 h).2.1⟩
  | startcv m => rw [exec_startcv] at h; exact ⟨(request_next.1 h).1, (request_next.1 h).2.1⟩
  | startax m => rw [exec_startax] at h; exact ⟨(request_next.1 h).1, (request_next.1 h).2.1⟩
  | startcomb m => rw [exec_startcomb] at h; exact ⟨(request_next.1 h).1, (request_next.1 h).2.1⟩
  | clrcell m => rw [exec_clrcell] at h; exact ⟨(request_next.1 h).1, (request_next.1 h).2.1⟩
  | clraux m => rw [exec_clraux] at h; exact ⟨(request_next.1 h).1, (request_next.1 h).2.1⟩
  | clrstat m => rw [exec_clrstat] at h; exact ⟨(request_next.1 h).1, (request_next.1 h).2.1⟩
  | init m payloads => rw [exec_init] at h; exact ⟨(request_next.1 h).1, (request_next.1 h).2.1⟩
  | cvtest m => rw [exec_cvtest] at h; exact ⟨(request_next.1 h).1, (request_next.1 h).2.1⟩
  | auxtest m => rw [exec_auxtest] at h; exact ⟨(request_next.1 h).1, (request_next.1 h).2.1⟩
  | stattest m => rw [exec_stattest] at h; exact ⟨(request_next.1 h).1, (request_next.1 h).2.1⟩
  | adstattest m => rw [exec_adstattest] at h; exact ⟨(request_next.1 h).1, (request_next.1 h).2.1⟩
  | acctest m => rw [exec_acctest] at h; exact ⟨(request_next.1 h).1, (request_next.1 h).2.1⟩

/-! ### What a step can be -/

/-- In phase IDLE with something presented, the host's action is taken after a moment in which the chain may fall asleep
(10_state.md R32, 43_transport.md R153). -/
theorem step_host {s : State} {a : HostAction} {rest : List HostAction} (h : s.phase = .idle)
    (hp : s.pending = a :: rest) : step s = hostStep a (idleMoment { s with pending := rest }) := by
  simp [step, h, hp]

/-- With nothing presented, or in any other phase, the environment moves. -/
theorem step_environment {s : State} (h : s.phase = .idle → s.pending = []) :
    step s = .next (environmentMove s) := by
  by_cases hp : s.phase = .idle
  · simp [step, hp, h hp]
  · simp [step, hp]

end Sys2Proof.Machine
end

