-- ==== Sys2Proof/Laws/State.lean ====
section
/-! SUPPORT. For each named operation and each field of State, what the field is afterwards, so that no proof unfolds
a record update. -/

namespace Sys2Proof.Machine

section
variable (s : State)

/-! ### emit -/

@[simp] theorem emit_n (e : PortEvent) : (emit e s).n = s.n := rfl

@[simp] theorem emit_par (e : PortEvent) : (emit e s).par = s.par := rfl

@[simp] theorem emit_tx (e : PortEvent) : (emit e s).tx = s.tx := rfl

@[simp] theorem emit_rx (e : PortEvent) : (emit e s).rx = s.rx := rfl

@[simp] theorem emit_rxUnspec (e : PortEvent) : (emit e s).rxUnspec = s.rxUnspec := rfl

@[simp] theorem emit_board (e : PortEvent) : (emit e s).board = s.board := rfl

@[simp] theorem emit_tmplCv (e : PortEvent) : (emit e s).tmplCv = s.tmplCv := rfl

@[simp] theorem emit_tmplAx (e : PortEvent) : (emit e s).tmplAx = s.tmplAx := rfl

@[simp] theorem emit_phase (e : PortEvent) : (emit e s).phase = s.phase := rfl

@[simp] theorem emit_pwr (e : PortEvent) : (emit e s).pwr = s.pwr := rfl

@[simp] theorem emit_cs (e : PortEvent) : (emit e s).cs = s.cs := rfl

@[simp] theorem emit_busState (e : PortEvent) : (emit e s).busState = s.busState := rfl

@[simp] theorem emit_inflight (e : PortEvent) : (emit e s).inflight = s.inflight := rfl

@[simp] theorem emit_doneSig (e : PortEvent) : (emit e s).doneSig = s.doneSig := rfl

@[simp] theorem emit_errFlag (e : PortEvent) : (emit e s).errFlag = s.errFlag := rfl

@[simp] theorem emit_status (e : PortEvent) : (emit e s).status = s.status := rfl

@[simp] theorem emit_pecFail (e : PortEvent) : (emit e s).pecFail = s.pecFail := rfl

@[simp] theorem emit_pecOut (e : PortEvent) : (emit e s).pecOut = s.pecOut := rfl

@[simp] theorem emit_pending (e : PortEvent) : (emit e s).pending = s.pending := rfl

@[simp] theorem emit_answer (e : PortEvent) : (emit e s).answer = s.answer := rfl

@[simp] theorem emit_tornDown (e : PortEvent) : (emit e s).tornDown = s.tornDown := rfl

@[simp] theorem emit_code (e : PortEvent) : (emit e s).code = s.code := rfl

@[simp] theorem emit_agg (e : PortEvent) : (emit e s).agg = s.agg := rfl

@[simp] theorem emit_errCount (e : PortEvent) : (emit e s).errCount = s.errCount := rfl

@[simp] theorem emit_todo (e : PortEvent) : (emit e s).todo = s.todo := rfl

@[simp] theorem emit_moved (e : PortEvent) : (emit e s).moved = s.moved := rfl

@[simp] theorem emit_script (e : PortEvent) : (emit e s).script = s.script := rfl

@[simp] theorem emit_draws (e : PortEvent) : (emit e s).draws = s.draws := rfl

@[simp] theorem emit_ports (e : PortEvent) : (emit e s).ports = s.ports ++ [e] := rfl

/-! ### setPhase -/

@[simp] theorem setPhase_n (p : Phase) : (setPhase p s).n = s.n := rfl

@[simp] theorem setPhase_par (p : Phase) : (setPhase p s).par = s.par := rfl

@[simp] theorem setPhase_tx (p : Phase) : (setPhase p s).tx = s.tx := rfl

@[simp] theorem setPhase_rx (p : Phase) : (setPhase p s).rx = s.rx := rfl

@[simp] theorem setPhase_rxUnspec (p : Phase) : (setPhase p s).rxUnspec = s.rxUnspec := rfl

@[simp] theorem setPhase_board (p : Phase) : (setPhase p s).board = s.board := rfl

@[simp] theorem setPhase_tmplCv (p : Phase) : (setPhase p s).tmplCv = s.tmplCv := rfl

@[simp] theorem setPhase_tmplAx (p : Phase) : (setPhase p s).tmplAx = s.tmplAx := rfl

@[simp] theorem setPhase_phase (p : Phase) : (setPhase p s).phase = p := rfl

@[simp] theorem setPhase_pwr (p : Phase) : (setPhase p s).pwr = s.pwr := rfl

@[simp] theorem setPhase_cs (p : Phase) : (setPhase p s).cs = s.cs := rfl

@[simp] theorem setPhase_busState (p : Phase) : (setPhase p s).busState = s.busState := rfl

@[simp] theorem setPhase_inflight (p : Phase) : (setPhase p s).inflight = s.inflight := rfl

@[simp] theorem setPhase_doneSig (p : Phase) : (setPhase p s).doneSig = s.doneSig := rfl

@[simp] theorem setPhase_errFlag (p : Phase) : (setPhase p s).errFlag = s.errFlag := rfl

@[simp] theorem setPhase_status (p : Phase) : (setPhase p s).status = s.status := rfl

@[simp] theorem setPhase_pecFail (p : Phase) : (setPhase p s).pecFail = s.pecFail := rfl

@[simp] theorem setPhase_pecOut (p : Phase) : (setPhase p s).pecOut = s.pecOut := rfl

@[simp] theorem setPhase_pending (p : Phase) : (setPhase p s).pending = s.pending := rfl

@[simp] theorem setPhase_answer (p : Phase) : (setPhase p s).answer = s.answer := rfl

@[simp] theorem setPhase_tornDown (p : Phase) : (setPhase p s).tornDown = s.tornDown := rfl

@[simp] theorem setPhase_code (p : Phase) : (setPhase p s).code = s.code := rfl

@[simp] theorem setPhase_agg (p : Phase) : (setPhase p s).agg = s.agg := rfl

@[simp] theorem setPhase_errCount (p : Phase) : (setPhase p s).errCount = s.errCount := rfl

@[simp] theorem setPhase_todo (p : Phase) : (setPhase p s).todo = s.todo := rfl

@[simp] theorem setPhase_moved (p : Phase) : (setPhase p s).moved = s.moved := rfl

@[simp] theorem setPhase_script (p : Phase) : (setPhase p s).script = s.script := rfl

@[simp] theorem setPhase_draws (p : Phase) : (setPhase p s).draws = s.draws := rfl

@[simp] theorem setPhase_ports (p : Phase) : (setPhase p s).ports = s.ports ++ [.phase p] := rfl

/-! ### setCs -/

@[simp] theorem setCs_n (b : Bool) : (setCs b s).n = s.n := rfl

@[simp] theorem setCs_par (b : Bool) : (setCs b s).par = s.par := rfl

@[simp] theorem setCs_tx (b : Bool) : (setCs b s).tx = s.tx := rfl

@[simp] theorem setCs_rx (b : Bool) : (setCs b s).rx = s.rx := rfl

@[simp] theorem setCs_rxUnspec (b : Bool) : (setCs b s).rxUnspec = s.rxUnspec := rfl

@[simp] theorem setCs_board (b : Bool) : (setCs b s).board = s.board := rfl

@[simp] theorem setCs_tmplCv (b : Bool) : (setCs b s).tmplCv = s.tmplCv := rfl

@[simp] theorem setCs_tmplAx (b : Bool) : (setCs b s).tmplAx = s.tmplAx := rfl

@[simp] theorem setCs_phase (b : Bool) : (setCs b s).phase = s.phase := rfl

@[simp] theorem setCs_pwr (b : Bool) : (setCs b s).pwr = s.pwr := rfl

@[simp] theorem setCs_cs (b : Bool) : (setCs b s).cs = b := rfl

@[simp] theorem setCs_busState (b : Bool) : (setCs b s).busState = s.busState := rfl

@[simp] theorem setCs_inflight (b : Bool) : (setCs b s).inflight = s.inflight := rfl

@[simp] theorem setCs_doneSig (b : Bool) : (setCs b s).doneSig = s.doneSig := rfl

@[simp] theorem setCs_errFlag (b : Bool) : (setCs b s).errFlag = s.errFlag := rfl

@[simp] theorem setCs_status (b : Bool) : (setCs b s).status = s.status := rfl

@[simp] theorem setCs_pecFail (b : Bool) : (setCs b s).pecFail = s.pecFail := rfl

@[simp] theorem setCs_pecOut (b : Bool) : (setCs b s).pecOut = s.pecOut := rfl

@[simp] theorem setCs_pending (b : Bool) : (setCs b s).pending = s.pending := rfl

@[simp] theorem setCs_answer (b : Bool) : (setCs b s).answer = s.answer := rfl

@[simp] theorem setCs_tornDown (b : Bool) : (setCs b s).tornDown = s.tornDown := rfl

@[simp] theorem setCs_code (b : Bool) : (setCs b s).code = s.code := rfl

@[simp] theorem setCs_agg (b : Bool) : (setCs b s).agg = s.agg := rfl

@[simp] theorem setCs_errCount (b : Bool) : (setCs b s).errCount = s.errCount := rfl

@[simp] theorem setCs_todo (b : Bool) : (setCs b s).todo = s.todo := rfl

@[simp] theorem setCs_moved (b : Bool) : (setCs b s).moved = s.moved := rfl

@[simp] theorem setCs_script (b : Bool) : (setCs b s).script = s.script := rfl

@[simp] theorem setCs_draws (b : Bool) : (setCs b s).draws = s.draws := rfl

@[simp] theorem setCs_ports (b : Bool) : (setCs b s).ports = s.ports ++ [.cs b] := rfl

/-! ### delayFor -/

@[simp] theorem delayFor_n (u : DelayUnit) (d : Nat) : (delayFor u d s).n = s.n := rfl

@[simp] theorem delayFor_par (u : DelayUnit) (d : Nat) : (delayFor u d s).par = s.par := rfl

@[simp] theorem delayFor_tx (u : DelayUnit) (d : Nat) : (delayFor u d s).tx = s.tx := rfl

@[simp] theorem delayFor_rx (u : DelayUnit) (d : Nat) : (delayFor u d s).rx = s.rx := rfl

@[simp] theorem delayFor_rxUnspec (u : DelayUnit) (d : Nat) : (delayFor u d s).rxUnspec = s.rxUnspec := rfl

@[simp] theorem delayFor_board (u : DelayUnit) (d : Nat) : (delayFor u d s).board = s.board := rfl

@[simp] theorem delayFor_tmplCv (u : DelayUnit) (d : Nat) : (delayFor u d s).tmplCv = s.tmplCv := rfl

@[simp] theorem delayFor_tmplAx (u : DelayUnit) (d : Nat) : (delayFor u d s).tmplAx = s.tmplAx := rfl

@[simp] theorem delayFor_phase (u : DelayUnit) (d : Nat) : (delayFor u d s).phase = s.phase := rfl

@[simp] theorem delayFor_pwr (u : DelayUnit) (d : Nat) : (delayFor u d s).pwr = s.pwr := rfl

@[simp] theorem delayFor_cs (u : DelayUnit) (d : Nat) : (delayFor u d s).cs = s.cs := rfl

@[simp] theorem delayFor_busState (u : DelayUnit) (d : Nat) : (delayFor u d s).busState = s.busState := rfl

@[simp] theorem delayFor_inflight (u : DelayUnit) (d : Nat) : (delayFor u d s).inflight = s.inflight := rfl

@[simp] theorem delayFor_doneSig (u : DelayUnit) (d : Nat) : (delayFor u d s).doneSig = s.doneSig := rfl

@[simp] theorem delayFor_errFlag (u : DelayUnit) (d : Nat) : (delayFor u d s).errFlag = s.errFlag := rfl

@[simp] theorem delayFor_status (u : DelayUnit) (d : Nat) : (delayFor u d s).status = s.status := rfl

@[simp] theorem delayFor_pecFail (u : DelayUnit) (d : Nat) : (delayFor u d s).pecFail = s.pecFail := rfl

@[simp] theorem delayFor_pecOut (u : DelayUnit) (d : Nat) : (delayFor u d s).pecOut = s.pecOut := rfl

@[simp] theorem delayFor_pending (u : DelayUnit) (d : Nat) : (delayFor u d s).pending = s.pending := rfl

@[simp] theorem delayFor_answer (u : DelayUnit) (d : Nat) : (delayFor u d s).answer = s.answer := rfl

@[simp] theorem delayFor_tornDown (u : DelayUnit) (d : Nat) : (delayFor u d s).tornDown = s.tornDown := rfl

@[simp] theorem delayFor_code (u : DelayUnit) (d : Nat) : (delayFor u d s).code = s.code := rfl

@[simp] theorem delayFor_agg (u : DelayUnit) (d : Nat) : (delayFor u d s).agg = s.agg := rfl

@[simp] theorem delayFor_errCount (u : DelayUnit) (d : Nat) : (delayFor u d s).errCount = s.errCount := rfl

@[simp] theorem delayFor_todo (u : DelayUnit) (d : Nat) : (delayFor u d s).todo = s.todo := rfl

@[simp] theorem delayFor_moved (u : DelayUnit) (d : Nat) : (delayFor u d s).moved = s.moved := rfl

@[simp] theorem delayFor_script (u : DelayUnit) (d : Nat) : (delayFor u d s).script = s.script := rfl

@[simp] theorem delayFor_draws (u : DelayUnit) (d : Nat) : (delayFor u d s).draws = s.draws := rfl

@[simp] theorem delayFor_ports (u : DelayUnit) (d : Nat) : (delayFor u d s).ports = s.ports ++ [.delay u d] := rfl

/-! ### wakePulse -/

@[simp] theorem wakePulse_n (u : DelayUnit) (d : Nat) : (wakePulse u d s).n = s.n := by simp [wakePulse]

@[simp] theorem wakePulse_par (u : DelayUnit) (d : Nat) : (wakePulse u d s).par = s.par := by simp [wakePulse]

@[simp] theorem wakePulse_tx (u : DelayUnit) (d : Nat) : (wakePulse u d s).tx = s.tx := by simp [wakePulse]

@[simp] theorem wakePulse_rx (u : DelayUnit) (d : Nat) : (wakePulse u d s).rx = s.rx := by simp [wakePulse]

@[simp] theorem wakePulse_rxUnspec (u : DelayUnit) (d : Nat) : (wakePulse u d s).rxUnspec = s.rxUnspec := by simp [wakePulse]

@[simp] theorem wakePulse_board (u : DelayUnit) (d : Nat) : (wakePulse u d s).board = s.board := by simp [wakePulse]

@[simp] theorem wakePulse_tmplCv (u : DelayUnit) (d : Nat) : (wakePulse u d s).tmplCv = s.tmplCv := by simp [wakePulse]

@[simp] theorem wakePulse_tmplAx (u : DelayUnit) (d : Nat) : (wakePulse u d s).tmplAx = s.tmplAx := by simp [wakePulse]

@[simp] theorem wakePulse_phase (u : DelayUnit) (d : Nat) : (wakePulse u d s).phase = .wakeCs := by simp [wakePulse]

@[simp] theorem wakePulse_pwr (u : DelayUnit) (d : Nat) : (wakePulse u d s).pwr = .idleReady := by simp [wakePulse]

@[simp] theorem wakePulse_cs (u : DelayUnit) (d : Nat) : (wakePulse u d s).cs = false := by simp [wakePulse]

@[simp] theorem wakePulse_busState (u : DelayUnit) (d : Nat) : (wakePulse u d s).busState = s.busState := by simp [wakePulse]

@[simp] theorem wakePulse_inflight (u : DelayUnit) (d : Nat) : (wakePulse u d s).inflight = s.inflight := by simp [wakePulse]

@[simp] theorem wakePulse_doneSig (u : DelayUnit) (d : Nat) : (wakePulse u d s).doneSig = s.doneSig := by simp [wakePulse]

@[simp] theorem wakePulse_errFlag (u : DelayUnit) (d : Nat) : (wakePulse u d s).errFlag = s.errFlag := by simp [wakePulse]

@[simp] theorem wakePulse_status (u : DelayUnit) (d : Nat) : (wakePulse u d s).status = s.status := by simp [wakePulse]

@[simp] theorem wakePulse_pecFail (u : DelayUnit) (d : Nat) : (wakePulse u d s).pecFail = s.pecFail := by simp [wakePulse]

@[simp] theorem wakePulse_pecOut (u : DelayUnit) (d : Nat) : (wakePulse u d s).pecOut = s.pecOut := by simp [wakePulse]

@[simp] theorem wakePulse_pending (u : DelayUnit) (d : Nat) : (wakePulse u d s).pending = s.pending := by simp [wakePulse]

@[simp] theorem wakePulse_answer (u : DelayUnit) (d : Nat) : (wakePulse u d s).answer = s.answer := by simp [wakePulse]

@[simp] theorem wakePulse_tornDown (u : DelayUnit) (d : Nat) : (wakePulse u d s).tornDown = s.tornDown := by simp [wakePulse]

@[simp] theorem wakePulse_code (u : DelayUnit) (d : Nat) : (wakePulse u d s).code = s.code := by simp [wakePulse]

@[simp] theorem wakePulse_agg (u : DelayUnit) (d : Nat) : (wakePulse u d s).agg = s.agg := by simp [wakePulse]

@[simp] theorem wakePulse_errCount (u : DelayUnit) (d : Nat) : (wakePulse u d s).errCount = s.errCount := by simp [wakePulse]

@[simp] theorem wakePulse_todo (u : DelayUnit) (d : Nat) : (wakePulse u d s).todo = s.todo := by simp [wakePulse]

@[simp] theorem wakePulse_moved (u : DelayUnit) (d : Nat) : (wakePulse u d s).moved = s.moved := by simp [wakePulse]

@[simp] theorem wakePulse_script (u : DelayUnit) (d : Nat) : (wakePulse u d s).script = s.script := by simp [wakePulse]

@[simp] theorem wakePulse_draws (u : DelayUnit) (d : Nat) : (wakePulse u d s).draws = s.draws := by simp [wakePulse]

@[simp] theorem wakePulse_ports (u : DelayUnit) (d : Nat) : (wakePulse u d s).ports = s.ports ++ [.phase .wakeCs, .cs true, .delay u d, .cs false] := by simp [wakePulse]

/-! ### refreshPulse -/

@[simp] theorem refreshPulse_n : (refreshPulse s).n = s.n := by simp [refreshPulse]

@[simp] theorem refreshPulse_par : (refreshPulse s).par = s.par := by simp [refreshPulse]

@[simp] theorem refreshPulse_tx : (refreshPulse s).tx = s.tx := by simp [refreshPulse]

@[simp] theorem refreshPulse_rx : (refreshPulse s).rx = s.rx := by simp [refreshPulse]

@[simp] theorem refreshPulse_rxUnspec : (refreshPulse s).rxUnspec = s.rxUnspec := by simp [refreshPulse]

@[simp] theorem refreshPulse_board : (refreshPulse s).board = s.board := by simp [refreshPulse]

@[simp] theorem refreshPulse_tmplCv : (refreshPulse s).tmplCv = s.tmplCv := by simp [refreshPulse]

@[simp] theorem refreshPulse_tmplAx : (refreshPulse s).tmplAx = s.tmplAx := by simp [refreshPulse]

@[simp] theorem refreshPulse_phase : (refreshPulse s).phase = .wakeCs := by simp [refreshPulse]

@[simp] theorem refreshPulse_pwr : (refreshPulse s).pwr = .idleReady := by simp [refreshPulse]

@[simp] theorem refreshPulse_cs : (refreshPulse s).cs = false := by simp [refreshPulse]

@[simp] theorem refreshPulse_busState : (refreshPulse s).busState = s.busState := by simp [refreshPulse]

@[simp] theorem refreshPulse_inflight : (refreshPulse s).inflight = s.inflight := by simp [refreshPulse]

@[simp] theorem refreshPulse_doneSig : (refreshPulse s).doneSig = s.doneSig := by simp [refreshPulse]

@[simp] theorem refreshPulse_errFlag : (refreshPulse s).errFlag = s.errFlag := by simp [refreshPulse]

@[simp] theorem refreshPulse_status : (refreshPulse s).status = s.status := by simp [refreshPulse]

@[simp] theorem refreshPulse_pecFail : (refreshPulse s).pecFail = s.pecFail := by simp [refreshPulse]

@[simp] theorem refreshPulse_pecOut : (refreshPulse s).pecOut = s.pecOut := by simp [refreshPulse]

@[simp] theorem refreshPulse_pending : (refreshPulse s).pending = s.pending := by simp [refreshPulse]

@[simp] theorem refreshPulse_answer : (refreshPulse s).answer = s.answer := by simp [refreshPulse]

@[simp] theorem refreshPulse_tornDown : (refreshPulse s).tornDown = s.tornDown := by simp [refreshPulse]

@[simp] theorem refreshPulse_code : (refreshPulse s).code = s.code := by simp [refreshPulse]

@[simp] theorem refreshPulse_agg : (refreshPulse s).agg = s.agg := by simp [refreshPulse]

@[simp] theorem refreshPulse_errCount : (refreshPulse s).errCount = s.errCount := by simp [refreshPulse]

@[simp] theorem refreshPulse_todo : (refreshPulse s).todo = s.todo := by simp [refreshPulse]

@[simp] theorem refreshPulse_moved : (refreshPulse s).moved = s.moved := by simp [refreshPulse]

@[simp] theorem refreshPulse_script : (refreshPulse s).script = s.script := by simp [refreshPulse]

@[simp] theorem refreshPulse_draws : (refreshPulse s).draws = s.draws := by simp [refreshPulse]

@[simp] theorem refreshPulse_ports : (refreshPulse s).ports = s.ports ++ [.phase .wakeCs, .cs true, .delay .coarse (refreshDelay s.par.given), .cs false] := by simp [refreshPulse]

/-! ### chainSleep -/

@[simp] theorem chainSleep_n : (chainSleep s).n = s.n := rfl

@[simp] theorem chainSleep_par : (chainSleep s).par = s.par := rfl

@[simp] theorem chainSleep_tx : (chainSleep s).tx = s.tx := rfl

@[simp] theorem chainSleep_rx : (chainSleep s).rx = s.rx := rfl

@[simp] theorem chainSleep_rxUnspec : (chainSleep s).rxUnspec = s.rxUnspec := rfl

@[simp] theorem chainSleep_board : (chainSleep s).board = s.board := rfl

@[simp] theorem chainSleep_tmplCv : (chainSleep s).tmplCv = s.tmplCv := rfl

@[simp] theorem chainSleep_tmplAx : (chainSleep s).tmplAx = s.tmplAx := rfl

@[simp] theorem chainSleep_phase : (chainSleep s).phase = s.phase := rfl

@[simp] theorem chainSleep_pwr : (chainSleep s).pwr = .asleep := rfl

@[simp] theorem chainSleep_cs : (chainSleep s).cs = s.cs := rfl

@[simp] theorem chainSleep_busState : (chainSleep s).busState = s.busState := rfl

@[simp] theorem chainSleep_inflight : (chainSleep s).inflight = s.inflight := rfl

@[simp] theorem chainSleep_doneSig : (chainSleep s).doneSig = s.doneSig := rfl

@[simp] theorem chainSleep_errFlag : (chainSleep s).errFlag = s.errFlag := rfl

@[simp] theorem chainSleep_status : (chainSleep s).status = s.status := rfl

@[simp] theorem chainSleep_pecFail : (chainSleep s).pecFail = s.pecFail := rfl

@[simp] theorem chainSleep_pecOut : (chainSleep s).pecOut = s.pecOut := rfl

@[simp] theorem chainSleep_pending : (chainSleep s).pending = s.pending := rfl

@[simp] theorem chainSleep_answer : (chainSleep s).answer = s.answer := rfl

@[simp] theorem chainSleep_tornDown : (chainSleep s).tornDown = s.tornDown := rfl

@[simp] theorem chainSleep_code : (chainSleep s).code = s.code := rfl

@[simp] theorem chainSleep_agg : (chainSleep s).agg = s.agg := rfl

@[simp] theorem chainSleep_errCount : (chainSleep s).errCount = s.errCount := rfl

@[simp] theorem chainSleep_todo : (chainSleep s).todo = s.todo := rfl

@[simp] theorem chainSleep_moved : (chainSleep s).moved = s.moved := rfl

@[simp] theorem chainSleep_script : (chainSleep s).script = s.script := rfl

@[simp] theorem chainSleep_draws : (chainSleep s).draws = s.draws := rfl

@[simp] theorem chainSleep_ports : (chainSleep s).ports = s.ports := rfl

/-! ### idleMoment -/

@[simp] theorem idleMoment_n : (idleMoment s).n = s.n := rfl

@[simp] theorem idleMoment_par : (idleMoment s).par = s.par := rfl

@[simp] theorem idleMoment_tx : (idleMoment s).tx = s.tx := rfl

@[simp] theorem idleMoment_rx : (idleMoment s).rx = s.rx := rfl

@[simp] theorem idleMoment_rxUnspec : (idleMoment s).rxUnspec = s.rxUnspec := rfl

@[simp] theorem idleMoment_board : (idleMoment s).board = s.board := rfl

@[simp] theorem idleMoment_tmplCv : (idleMoment s).tmplCv = s.tmplCv := rfl

@[simp] theorem idleMoment_tmplAx : (idleMoment s).tmplAx = s.tmplAx := rfl

@[simp] theorem idleMoment_phase : (idleMoment s).phase = s.phase := rfl

@[simp] theorem idleMoment_pwr : (idleMoment s).pwr = (if Config.freeFlag s.draws 0 then .asleep else s.pwr) := rfl

@[simp] theorem idleMoment_cs : (idleMoment s).cs = s.cs := rfl

@[simp] theorem idleMoment_busState : (idleMoment s).busState = s.busState := rfl

@[simp] theorem idleMoment_inflight : (idleMoment s).inflight = s.inflight := rfl

@[simp] theorem idleMoment_doneSig : (idleMoment s).doneSig = s.doneSig := rfl

@[simp] theorem idleMoment_errFlag : (idleMoment s).errFlag = s.errFlag := rfl

@[simp] theorem idleMoment_status : (idleMoment s).status = s.status := rfl

@[simp] theorem idleMoment_pecFail : (idleMoment s).pecFail = s.pecFail := rfl

@[simp] theorem idleMoment_pecOut : (idleMoment s).pecOut = s.pecOut := rfl

@[simp] theorem idleMoment_pending : (idleMoment s).pending = s.pending := rfl

@[simp] theorem idleMoment_answer : (idleMoment s).answer = s.answer := rfl

@[simp] theorem idleMoment_tornDown : (idleMoment s).tornDown = s.tornDown := rfl

@[simp] theorem idleMoment_code : (idleMoment s).code = s.code := rfl

@[simp] theorem idleMoment_agg : (idleMoment s).agg = s.agg := rfl

@[simp] theorem idleMoment_errCount : (idleMoment s).errCount = s.errCount := rfl

@[simp] theorem idleMoment_todo : (idleMoment s).todo = s.todo := rfl

@[simp] theorem idleMoment_moved : (idleMoment s).moved = s.moved := rfl

@[simp] theorem idleMoment_script : (idleMoment s).script = s.script := rfl

@[simp] theorem idleMoment_draws : (idleMoment s).draws = s.draws + 1 := rfl

@[simp] theorem idleMoment_ports : (idleMoment s).ports = s.ports := rfl

/-! ### assembleFrame -/

@[simp] theorem assembleFrame_n (f : Frame) : (assembleFrame f s).n = s.n := by simp [assembleFrame]

@[simp] theorem assembleFrame_par (f : Frame) : (assembleFrame f s).par = s.par := by simp [assembleFrame]

@[simp] theorem assembleFrame_tx (f : Frame) : (assembleFrame f s).tx = memWriteBytes s.tx 0 (frameBytes s.n f) := by simp [assembleFrame]

@[simp] theorem assembleFrame_rx (f : Frame) : (assembleFrame f s).rx = s.rx := by simp [assembleFrame]

@[simp] theorem assembleFrame_rxUnspec (f : Frame) : (assembleFrame f s).rxUnspec = s.rxUnspec := by simp [assembleFrame]

@[simp] theorem assembleFrame_board (f : Frame) : (assembleFrame f s).board = s.board := by simp [assembleFrame]

@[simp] theorem assembleFrame_tmplCv (f : Frame) : (assembleFrame f s).tmplCv = s.tmplCv := by simp [assembleFrame]

@[simp] theorem assembleFrame_tmplAx (f : Frame) : (assembleFrame f s).tmplAx = s.tmplAx := by simp [assembleFrame]

@[simp] theorem assembleFrame_phase (f : Frame) : (assembleFrame f s).phase = .assemble := by simp [assembleFrame]

@[simp] theorem assembleFrame_pwr (f : Frame) : (assembleFrame f s).pwr = s.pwr := by simp [assembleFrame]

@[simp] theorem assembleFrame_cs (f : Frame) : (assembleFrame f s).cs = s.cs := by simp [assembleFrame]

@[simp] theorem assembleFrame_busState (f : Frame) : (assembleFrame f s).busState = s.busState := by simp [assembleFrame]

@[simp] theorem assembleFrame_inflight (f : Frame) : (assembleFrame f s).inflight = s.inflight := by simp [assembleFrame]

@[simp] theorem assembleFrame_doneSig (f : Frame) : (assembleFrame f s).doneSig = s.doneSig := by simp [assembleFrame]

@[simp] theorem assembleFrame_errFlag (f : Frame) : (assembleFrame f s).errFlag = s.errFlag := by simp [assembleFrame]

@[simp] theorem assembleFrame_status (f : Frame) : (assembleFrame f s).status = s.status := by simp [assembleFrame]

@[simp] theorem assembleFrame_pecFail (f : Frame) : (assembleFrame f s).pecFail = s.pecFail := by simp [assembleFrame]

@[simp] theorem assembleFrame_pecOut (f : Frame) : (assembleFrame f s).pecOut = s.pecOut := by simp [assembleFrame]

@[simp] theorem assembleFrame_pending (f : Frame) : (assembleFrame f s).pending = s.pending := by simp [assembleFrame]

@[simp] theorem assembleFrame_answer (f : Frame) : (assembleFrame f s).answer = s.answer := by simp [assembleFrame]

@[simp] theorem assembleFrame_tornDown (f : Frame) : (assembleFrame f s).tornDown = s.tornDown := by simp [assembleFrame]

@[simp] theorem assembleFrame_code (f : Frame) : (assembleFrame f s).code = s.code := by simp [assembleFrame]

@[simp] theorem assembleFrame_agg (f : Frame) : (assembleFrame f s).agg = s.agg := by simp [assembleFrame]

@[simp] theorem assembleFrame_errCount (f : Frame) : (assembleFrame f s).errCount = s.errCount := by simp [assembleFrame]

@[simp] theorem assembleFrame_todo (f : Frame) : (assembleFrame f s).todo = s.todo := by simp [assembleFrame]

@[simp] theorem assembleFrame_moved (f : Frame) : (assembleFrame f s).moved = s.moved := by simp [assembleFrame]

@[simp] theorem assembleFrame_script (f : Frame) : (assembleFrame f s).script = s.script := by simp [assembleFrame]

@[simp] theorem assembleFrame_draws (f : Frame) : (assembleFrame f s).draws = s.draws := by simp [assembleFrame]

@[simp] theorem assembleFrame_ports (f : Frame) : (assembleFrame f s).ports = s.ports ++ [.phase .assemble] := by simp [assembleFrame]

/-! ### completionHandler -/

@[simp] theorem completionHandler_n : (completionHandler s).n = s.n := rfl

@[simp] theorem completionHandler_par : (completionHandler s).par = s.par := rfl

@[simp] theorem completionHandler_tx : (completionHandler s).tx = s.tx := rfl

@[simp] theorem completionHandler_rx : (completionHandler s).rx = s.rx := rfl

@[simp] theorem completionHandler_rxUnspec : (completionHandler s).rxUnspec = s.rxUnspec := rfl

@[simp] theorem completionHandler_board : (completionHandler s).board = s.board := rfl

@[simp] theorem completionHandler_tmplCv : (completionHandler s).tmplCv = s.tmplCv := rfl

@[simp] theorem completionHandler_tmplAx : (completionHandler s).tmplAx = s.tmplAx := rfl

@[simp] theorem completionHandler_phase : (completionHandler s).phase = s.phase := rfl

@[simp] theorem completionHandler_pwr : (completionHandler s).pwr = s.pwr := rfl

@[simp] theorem completionHandler_cs : (completionHandler s).cs = s.cs := rfl

@[simp] theorem completionHandler_busState : (completionHandler s).busState = .idle := rfl

@[simp] theorem completionHandler_inflight : (completionHandler s).inflight = none := rfl

@[simp] theorem completionHandler_doneSig : (completionHandler s).doneSig = true := rfl

@[simp] theorem completionHandler_errFlag : (completionHandler s).errFlag = s.errFlag := rfl

@[simp] theorem completionHandler_status : (completionHandler s).status = s.status := rfl

@[simp] theorem completionHandler_pecFail : (completionHandler s).pecFail = s.pecFail := rfl

@[simp] theorem completionHandler_pecOut : (completionHandler s).pecOut = s.pecOut := rfl

@[simp] theorem completionHandler_pending : (completionHandler s).pending = s.pending := rfl

@[simp] theorem completionHandler_answer : (completionHandler s).answer = s.answer := rfl

@[simp] theorem completionHandler_tornDown : (completionHandler s).tornDown = s.tornDown := rfl

@[simp] theorem completionHandler_code : (completionHandler s).code = s.code := rfl

@[simp] theorem completionHandler_agg : (completionHandler s).agg = s.agg := rfl

@[simp] theorem completionHandler_errCount : (completionHandler s).errCount = s.errCount := rfl

@[simp] theorem completionHandler_todo : (completionHandler s).todo = s.todo := rfl

@[simp] theorem completionHandler_moved : (completionHandler s).moved = s.moved := rfl

@[simp] theorem completionHandler_script : (completionHandler s).script = s.script := rfl

@[simp] theorem completionHandler_draws : (completionHandler s).draws = s.draws := rfl

@[simp] theorem completionHandler_ports : (completionHandler s).ports = s.ports ++ [.hook s.par.given.onTransferComplete] := rfl

/-! ### errorHandler -/

@[simp] theorem errorHandler_n : (errorHandler s).n = s.n := rfl

@[simp] theorem errorHandler_par : (errorHandler s).par = s.par := rfl

@[simp] theorem errorHandler_tx : (errorHandler s).tx = s.tx := rfl

@[simp] theorem errorHandler_rx : (errorHandler s).rx = s.rx := rfl

@[simp] theorem errorHandler_rxUnspec : (errorHandler s).rxUnspec = s.rxUnspec := rfl

@[simp] theorem errorHandler_board : (errorHandler s).board = s.board := rfl

@[simp] theorem errorHandler_tmplCv : (errorHandler s).tmplCv = s.tmplCv := rfl

@[simp] theorem errorHandler_tmplAx : (errorHandler s).tmplAx = s.tmplAx := rfl

@[simp] theorem errorHandler_phase : (errorHandler s).phase = s.phase := rfl

@[simp] theorem errorHandler_pwr : (errorHandler s).pwr = s.pwr := rfl

@[simp] theorem errorHandler_cs : (errorHandler s).cs = s.cs := rfl

@[simp] theorem errorHandler_busState : (errorHandler s).busState = s.busState := rfl

@[simp] theorem errorHandler_inflight : (errorHandler s).inflight = s.inflight := rfl

@[simp] theorem errorHandler_doneSig : (errorHandler s).doneSig = s.doneSig := rfl

@[simp] theorem errorHandler_errFlag : (errorHandler s).errFlag = true := rfl

@[simp] theorem errorHandler_status : (errorHandler s).status = s.status := rfl

@[simp] theorem errorHandler_pecFail : (errorHandler s).pecFail = s.pecFail := rfl

@[simp] theorem errorHandler_pecOut : (errorHandler s).pecOut = s.pecOut := rfl

@[simp] theorem errorHandler_pending : (errorHandler s).pending = s.pending := rfl

@[simp] theorem errorHandler_answer : (errorHandler s).answer = s.answer := rfl

@[simp] theorem errorHandler_tornDown : (errorHandler s).tornDown = s.tornDown := rfl

@[simp] theorem errorHandler_code : (errorHandler s).code = s.code := rfl

@[simp] theorem errorHandler_agg : (errorHandler s).agg = s.agg := rfl

@[simp] theorem errorHandler_errCount : (errorHandler s).errCount = s.errCount := rfl

@[simp] theorem errorHandler_todo : (errorHandler s).todo = s.todo := rfl

@[simp] theorem errorHandler_moved : (errorHandler s).moved = s.moved := rfl

@[simp] theorem errorHandler_script : (errorHandler s).script = s.script := rfl

@[simp] theorem errorHandler_draws : (errorHandler s).draws = s.draws := rfl

@[simp] theorem errorHandler_ports : (errorHandler s).ports = s.ports ++ [.hook s.par.given.onError] := rfl

/-! ### unspecifyRx -/

@[simp] theorem unspecifyRx_n (len : Nat) : (unspecifyRx len s).n = s.n := rfl

@[simp] theorem unspecifyRx_par (len : Nat) : (unspecifyRx len s).par = s.par := rfl

@[simp] theorem unspecifyRx_tx (len : Nat) : (unspecifyRx len s).tx = s.tx := rfl

@[simp] theorem unspecifyRx_rx (len : Nat) : (unspecifyRx len s).rx = memUnspecify s.draws s.rx len := rfl

@[simp] theorem unspecifyRx_rxUnspec (len : Nat) : (unspecifyRx len s).rxUnspec = max s.rxUnspec len := rfl

@[simp] theorem unspecifyRx_board (len : Nat) : (unspecifyRx len s).board = s.board := rfl

@[simp] theorem unspecifyRx_tmplCv (len : Nat) : (unspecifyRx len s).tmplCv = s.tmplCv := rfl

@[simp] theorem unspecifyRx_tmplAx (len : Nat) : (unspecifyRx len s).tmplAx = s.tmplAx := rfl

@[simp] theorem unspecifyRx_phase (len : Nat) : (unspecifyRx len s).phase = s.phase := rfl

@[simp] theorem unspecifyRx_pwr (len : Nat) : (unspecifyRx len s).pwr = s.pwr := rfl

@[simp] theorem unspecifyRx_cs (len : Nat) : (unspecifyRx len s).cs = s.cs := rfl

@[simp] theorem unspecifyRx_busState (len : Nat) : (unspecifyRx len s).busState = s.busState := rfl

@[simp] theorem unspecifyRx_inflight (len : Nat) : (unspecifyRx len s).inflight = s.inflight := rfl

@[simp] theorem unspecifyRx_doneSig (len : Nat) : (unspecifyRx len s).doneSig = s.doneSig := rfl

@[simp] theorem unspecifyRx_errFlag (len : Nat) : (unspecifyRx len s).errFlag = s.errFlag := rfl

@[simp] theorem unspecifyRx_status (len : Nat) : (unspecifyRx len s).status = s.status := rfl

@[simp] theorem unspecifyRx_pecFail (len : Nat) : (unspecifyRx len s).pecFail = s.pecFail := rfl

@[simp] theorem unspecifyRx_pecOut (len : Nat) : (unspecifyRx len s).pecOut = s.pecOut := rfl

@[simp] theorem unspecifyRx_pending (len : Nat) : (unspecifyRx len s).pending = s.pending := rfl

@[simp] theorem unspecifyRx_answer (len : Nat) : (unspecifyRx len s).answer = s.answer := rfl

@[simp] theorem unspecifyRx_tornDown (len : Nat) : (unspecifyRx len s).tornDown = s.tornDown := rfl

@[simp] theorem unspecifyRx_code (len : Nat) : (unspecifyRx len s).code = s.code := rfl

@[simp] theorem unspecifyRx_agg (len : Nat) : (unspecifyRx len s).agg = s.agg := rfl

@[simp] theorem unspecifyRx_errCount (len : Nat) : (unspecifyRx len s).errCount = s.errCount := rfl

@[simp] theorem unspecifyRx_todo (len : Nat) : (unspecifyRx len s).todo = s.todo := rfl

@[simp] theorem unspecifyRx_moved (len : Nat) : (unspecifyRx len s).moved = s.moved := rfl

@[simp] theorem unspecifyRx_script (len : Nat) : (unspecifyRx len s).script = s.script := rfl

@[simp] theorem unspecifyRx_draws (len : Nat) : (unspecifyRx len s).draws = s.draws + 1 := rfl

@[simp] theorem unspecifyRx_ports (len : Nat) : (unspecifyRx len s).ports = s.ports := rfl

/-! ### takeCompletion -/

@[simp] theorem takeCompletion_n (len : Nat) (dir : Dir) : (takeCompletion len dir s).n = s.n := by
  cases dir <;> cases h : s.errFlag <;> simp [takeCompletion, h]

@[simp] theorem takeCompletion_par (len : Nat) (dir : Dir) : (takeCompletion len dir s).par = s.par := by
  cases dir <;> cases h : s.errFlag <;> simp [takeCompletion, h]

@[simp] theorem takeCompletion_tx (len : Nat) (dir : Dir) : (takeCompletion len dir s).tx = s.tx := by
  cases dir <;> cases h : s.errFlag <;> simp [takeCompletion, h]

@[simp] theorem takeCompletion_rx (len : Nat) (dir : Dir) : (takeCompletion len dir s).rx = (if s.errFlag then memUnspecify s.draws s.rx len else s.rx) := by
  cases dir <;> cases h : s.errFlag <;> simp [takeCompletion, h]

@[simp] theorem takeCompletion_rxUnspec (len : Nat) (dir : Dir) : (takeCompletion len dir s).rxUnspec = (if s.errFlag then max s.rxUnspec len else s.rxUnspec) := by
  cases dir <;> cases h : s.errFlag <;> simp [takeCompletion, h]

@[simp] theorem takeCompletion_board (len : Nat) (dir : Dir) : (takeCompletion len dir s).board = s.board := by
  cases dir <;> cases h : s.errFlag <;> simp [takeCompletion, h]

@[simp] theorem takeCompletion_tmplCv (len : Nat) (dir : Dir) : (takeCompletion len dir s).tmplCv = s.tmplCv := by
  cases dir <;> cases h : s.errFlag <;> simp [takeCompletion, h]

@[simp] theorem takeCompletion_tmplAx (len : Nat) (dir : Dir) : (takeCompletion len dir s).tmplAx = s.tmplAx := by
  cases dir <;> cases h : s.errFlag <;> simp [takeCompletion, h]

@[simp] theorem takeCompletion_phase (len : Nat) (dir : Dir) : (takeCompletion len dir s).phase = s.phase := by
  cases dir <;> cases h : s.errFlag <;> simp [takeCompletion, h]

@[simp] theorem takeCompletion_pwr (len : Nat) (dir : Dir) : (takeCompletion len dir s).pwr = s.pwr := by
  cases dir <;> cases h : s.errFlag <;> simp [takeCompletion, h]

@[simp] theorem takeCompletion_cs (len : Nat) (dir : Dir) : (takeCompletion len dir s).cs = (if dir = .duplex then false else s.cs) := by
  cases dir <;> cases h : s.errFlag <;> simp [takeCompletion, h]

@[simp] theorem takeCompletion_busState (len : Nat) (dir : Dir) : (takeCompletion len dir s).busState = s.busState := by
  cases dir <;> cases h : s.errFlag <;> simp [takeCompletion, h]

@[simp] theorem takeCompletion_inflight (len : Nat) (dir : Dir) : (takeCompletion len dir s).inflight = s.inflight := by
  cases dir <;> cases h : s.errFlag <;> simp [takeCompletion, h]

@[simp] theorem takeCompletion_doneSig (len : Nat) (dir : Dir) : (takeCompletion len dir s).doneSig = false := by
  cases dir <;> cases h : s.errFlag <;> simp [takeCompletion, h]

@[simp] theorem takeCompletion_errFlag (len : Nat) (dir : Dir) : (takeCompletion len dir s).errFlag = s.errFlag := by
  cases dir <;> cases h : s.errFlag <;> simp [takeCompletion, h]

@[simp] theorem takeCompletion_status (len : Nat) (dir : Dir) : (takeCompletion len dir s).status = (if s.errFlag then .busError else .ok) := by
  cases dir <;> cases h : s.errFlag <;> simp [takeCompletion, h]

@[simp] theorem takeCompletion_pecFail (len : Nat) (dir : Dir) : (takeCompletion len dir s).pecFail = s.pecFail := by
  cases dir <;> cases h : s.errFlag <;> simp [takeCompletion, h]

@[simp] theorem takeCompletion_pecOut (len : Nat) (dir : Dir) : (takeCompletion len dir s).pecOut = s.pecOut := by
  cases dir <;> cases h : s.errFlag <;> simp [takeCompletion, h]

@[simp] theorem takeCompletion_pending (len : Nat) (dir : Dir) : (takeCompletion len dir s).pending = s.pending := by
  cases dir <;> cases h : s.errFlag <;> simp [takeCompletion, h]

@[simp] theorem takeCompletion_answer (len : Nat) (dir : Dir) : (takeCompletion len dir s).answer = s.answer := by
  cases dir <;> cases h : s.errFlag <;> simp [takeCompletion, h]

@[simp] theorem takeCompletion_tornDown (len : Nat) (dir : Dir) : (takeCompletion len dir s).tornDown = s.tornDown := by
  cases dir <;> cases h : s.errFlag <;> simp [takeCompletion, h]

@[simp] theorem takeCompletion_code (len : Nat) (dir : Dir) : (takeCompletion len dir s).code = s.code := by
  cases dir <;> cases h : s.errFlag <;> simp [takeCompletion, h]

@[simp] theorem takeCompletion_agg (len : Nat) (dir : Dir) : (takeCompletion len dir s).agg = s.agg := by
  cases dir <;> cases h : s.errFlag <;> simp [takeCompletion, h]

@[simp] theorem takeCompletion_errCount (len : Nat) (dir : Dir) : (takeCompletion len dir s).errCount = s.errCount := by
  cases dir <;> cases h : s.errFlag <;> simp [takeCompletion, h]

@[simp] theorem takeCompletion_todo (len : Nat) (dir : Dir) : (takeCompletion len dir s).todo = s.todo := by
  cases dir <;> cases h : s.errFlag <;> simp [takeCompletion, h]

@[simp] theorem takeCompletion_moved (len : Nat) (dir : Dir) : (takeCompletion len dir s).moved = 0 := by
  cases dir <;> cases h : s.errFlag <;> simp [takeCompletion, h]

@[simp] theorem takeCompletion_script (len : Nat) (dir : Dir) : (takeCompletion len dir s).script = s.script := by
  cases dir <;> cases h : s.errFlag <;> simp [takeCompletion, h]

@[simp] theorem takeCompletion_draws (len : Nat) (dir : Dir) : (takeCompletion len dir s).draws = (if s.errFlag then s.draws + 1 else s.draws) := by
  cases dir <;> cases h : s.errFlag <;> simp [takeCompletion, h]

@[simp] theorem takeCompletion_ports (len : Nat) (dir : Dir) : (takeCompletion len dir s).ports = s.ports ++ if dir = .duplex then [.cs false] else [] := by
  cases dir <;> cases h : s.errFlag <;> simp [takeCompletion, h]

/-! ### parseGroup -/

@[simp] theorem parseGroup_n (grp : Group) : (parseGroup grp s).n = s.n := rfl

@[simp] theorem parseGroup_par (grp : Group) : (parseGroup grp s).par = s.par := rfl

@[simp] theorem parseGroup_tx (grp : Group) : (parseGroup grp s).tx = s.tx := rfl

@[simp] theorem parseGroup_rx (grp : Group) : (parseGroup grp s).rx = s.rx := rfl

@[simp] theorem parseGroup_rxUnspec (grp : Group) : (parseGroup grp s).rxUnspec = s.rxUnspec := rfl

@[simp] theorem parseGroup_board (grp : Group) : (parseGroup grp s).board = s.board.mapIdx (parseBoard s grp) := rfl

@[simp] theorem parseGroup_tmplCv (grp : Group) : (parseGroup grp s).tmplCv = s.tmplCv := rfl

@[simp] theorem parseGroup_tmplAx (grp : Group) : (parseGroup grp s).tmplAx = s.tmplAx := rfl

@[simp] theorem parseGroup_phase (grp : Group) : (parseGroup grp s).phase = s.phase := rfl

@[simp] theorem parseGroup_pwr (grp : Group) : (parseGroup grp s).pwr = s.pwr := rfl

@[simp] theorem parseGroup_cs (grp : Group) : (parseGroup grp s).cs = s.cs := rfl

@[simp] theorem parseGroup_busState (grp : Group) : (parseGroup grp s).busState = s.busState := rfl

@[simp] theorem parseGroup_inflight (grp : Group) : (parseGroup grp s).inflight = s.inflight := rfl

@[simp] theorem parseGroup_doneSig (grp : Group) : (parseGroup grp s).doneSig = s.doneSig := rfl

@[simp] theorem parseGroup_errFlag (grp : Group) : (parseGroup grp s).errFlag = s.errFlag := rfl

@[simp] theorem parseGroup_status (grp : Group) : (parseGroup grp s).status = s.status := rfl

@[simp] theorem parseGroup_pecFail (grp : Group) : (parseGroup grp s).pecFail = s.pecFail := rfl

@[simp] theorem parseGroup_pecOut (grp : Group) : (parseGroup grp s).pecOut = s.pecOut := rfl

@[simp] theorem parseGroup_pending (grp : Group) : (parseGroup grp s).pending = s.pending := rfl

@[simp] theorem parseGroup_answer (grp : Group) : (parseGroup grp s).answer = s.answer := rfl

@[simp] theorem parseGroup_tornDown (grp : Group) : (parseGroup grp s).tornDown = s.tornDown := rfl

@[simp] theorem parseGroup_code (grp : Group) : (parseGroup grp s).code = s.code := rfl

@[simp] theorem parseGroup_agg (grp : Group) : (parseGroup grp s).agg = s.agg := rfl

@[simp] theorem parseGroup_errCount (grp : Group) : (parseGroup grp s).errCount = s.errCount := rfl

@[simp] theorem parseGroup_todo (grp : Group) : (parseGroup grp s).todo = s.todo := rfl

@[simp] theorem parseGroup_moved (grp : Group) : (parseGroup grp s).moved = s.moved := rfl

@[simp] theorem parseGroup_script (grp : Group) : (parseGroup grp s).script = s.script := rfl

@[simp] theorem parseGroup_draws (grp : Group) : (parseGroup grp s).draws = s.draws + 1 := rfl

@[simp] theorem parseGroup_ports (grp : Group) : (parseGroup grp s).ports = s.ports := rfl

/-! ### parseOperation -/

/-- What a parse makes of an entry does not depend on the phase. -/
@[simp] theorem parseBoard_setPhase (p : Phase) (grp : Group) (i : Nat) (b : Board) :
    parseBoard (setPhase p s) grp i b = parseBoard s grp i b := by
  cases grp <;> rfl

@[simp] theorem parseOperation_n (grp : Group) : (parseOperation grp s).n = s.n := by simp [parseOperation, computing]

@[simp] theorem parseOperation_par (grp : Group) : (parseOperation grp s).par = s.par := by simp [parseOperation, computing]

@[simp] theorem parseOperation_tx (grp : Group) : (parseOperation grp s).tx = s.tx := by simp [parseOperation, computing]

@[simp] theorem parseOperation_rx (grp : Group) : (parseOperation grp s).rx = s.rx := by simp [parseOperation, computing]

@[simp] theorem parseOperation_rxUnspec (grp : Group) : (parseOperation grp s).rxUnspec = s.rxUnspec := by simp [parseOperation, computing]

@[simp] theorem parseOperation_board (grp : Group) : (parseOperation grp s).board = s.board.mapIdx (parseBoard s grp) := by simp [parseOperation, computing, funext fun i => funext (parseBoard_setPhase s .compute grp i)]

@[simp] theorem parseOperation_tmplCv (grp : Group) : (parseOperation grp s).tmplCv = s.tmplCv := by simp [parseOperation, computing]

@[simp] theorem parseOperation_tmplAx (grp : Group) : (parseOperation grp s).tmplAx = s.tmplAx := by simp [parseOperation, computing]

@[simp] theorem parseOperation_phase (grp : Group) : (parseOperation grp s).phase = .idle := by simp [parseOperation, computing]

@[simp] theorem parseOperation_pwr (grp : Group) : (parseOperation grp s).pwr = s.pwr := by simp [parseOperation, computing]

@[simp] theorem parseOperation_cs (grp : Group) : (parseOperation grp s).cs = s.cs := by simp [parseOperation, computing]

@[simp] theorem parseOperation_busState (grp : Group) : (parseOperation grp s).busState = s.busState := by simp [parseOperation, computing]

@[simp] theorem parseOperation_inflight (grp : Group) : (parseOperation grp s).inflight = s.inflight := by simp [parseOperation, computing]

@[simp] theorem parseOperation_doneSig (grp : Group) : (parseOperation grp s).doneSig = s.doneSig := by simp [parseOperation, computing]

@[simp] theorem parseOperation_errFlag (grp : Group) : (parseOperation grp s).errFlag = s.errFlag := by simp [parseOperation, computing]

@[simp] theorem parseOperation_status (grp : Group) : (parseOperation grp s).status = s.status := by simp [parseOperation, computing]

@[simp] theorem parseOperation_pecFail (grp : Group) : (parseOperation grp s).pecFail = s.pecFail := by simp [parseOperation, computing]

@[simp] theorem parseOperation_pecOut (grp : Group) : (parseOperation grp s).pecOut = s.pecOut := by simp [parseOperation, computing]

@[simp] theorem parseOperation_pending (grp : Group) : (parseOperation grp s).pending = s.pending := by simp [parseOperation, computing]

@[simp] theorem parseOperation_answer (grp : Group) : (parseOperation grp s).answer = .done := by simp [parseOperation, computing]

@[simp] theorem parseOperation_tornDown (grp : Group) : (parseOperation grp s).tornDown = s.tornDown := by simp [parseOperation, computing]

@[simp] theorem parseOperation_code (grp : Group) : (parseOperation grp s).code = s.code := by simp [parseOperation, computing]

@[simp] theorem parseOperation_agg (grp : Group) : (parseOperation grp s).agg = s.agg := by simp [parseOperation, computing]

@[simp] theorem parseOperation_errCount (grp : Group) : (parseOperation grp s).errCount = s.errCount := by simp [parseOperation, computing]

@[simp] theorem parseOperation_todo (grp : Group) : (parseOperation grp s).todo = s.todo := by simp [parseOperation, computing]

@[simp] theorem parseOperation_moved (grp : Group) : (parseOperation grp s).moved = s.moved := by simp [parseOperation, computing]

@[simp] theorem parseOperation_script (grp : Group) : (parseOperation grp s).script = s.script := by simp [parseOperation, computing]

@[simp] theorem parseOperation_draws (grp : Group) : (parseOperation grp s).draws = s.draws + 1 := by simp [parseOperation, computing]

@[simp] theorem parseOperation_ports (grp : Group) : (parseOperation grp s).ports = s.ports ++ [.phase .compute, .phase .idle] := by simp [parseOperation, computing]

/-! ### refreshOperation -/

@[simp] theorem refreshOperation_n : (refreshOperation s).n = s.n := by simp [refreshOperation]

@[simp] theorem refreshOperation_par : (refreshOperation s).par = s.par := by simp [refreshOperation]

@[simp] theorem refreshOperation_tx : (refreshOperation s).tx = s.tx := by simp [refreshOperation]

@[simp] theorem refreshOperation_rx : (refreshOperation s).rx = s.rx := by simp [refreshOperation]

@[simp] theorem refreshOperation_rxUnspec : (refreshOperation s).rxUnspec = s.rxUnspec := by simp [refreshOperation]

@[simp] theorem refreshOperation_board : (refreshOperation s).board = s.board := by simp [refreshOperation]

@[simp] theorem refreshOperation_tmplCv : (refreshOperation s).tmplCv = s.tmplCv := by simp [refreshOperation]

@[simp] theorem refreshOperation_tmplAx : (refreshOperation s).tmplAx = s.tmplAx := by simp [refreshOperation]

@[simp] theorem refreshOperation_phase : (refreshOperation s).phase = .idle := by simp [refreshOperation]

@[simp] theorem refreshOperation_pwr : (refreshOperation s).pwr = .idleReady := by simp [refreshOperation]

@[simp] theorem refreshOperation_cs : (refreshOperation s).cs = false := by simp [refreshOperation]

@[simp] theorem refreshOperation_busState : (refreshOperation s).busState = s.busState := by simp [refreshOperation]

@[simp] theorem refreshOperation_inflight : (refreshOperation s).inflight = s.inflight := by simp [refreshOperation]

@[simp] theorem refreshOperation_doneSig : (refreshOperation s).doneSig = s.doneSig := by simp [refreshOperation]

@[simp] theorem refreshOperation_errFlag : (refreshOperation s).errFlag = s.errFlag := by simp [refreshOperation]

@[simp] theorem refreshOperation_status : (refreshOperation s).status = s.status := by simp [refreshOperation]

@[simp] theorem refreshOperation_pecFail : (refreshOperation s).pecFail = s.pecFail := by simp [refreshOperation]

@[simp] theorem refreshOperation_pecOut : (refreshOperation s).pecOut = s.pecOut := by simp [refreshOperation]

@[simp] theorem refreshOperation_pending : (refreshOperation s).pending = s.pending := by simp [refreshOperation]

@[simp] theorem refreshOperation_answer : (refreshOperation s).answer = .done := by simp [refreshOperation]

@[simp] theorem refreshOperation_tornDown : (refreshOperation s).tornDown = s.tornDown := by simp [refreshOperation]

@[simp] theorem refreshOperation_code : (refreshOperation s).code = s.code := by simp [refreshOperation]

@[simp] theorem refreshOperation_agg : (refreshOperation s).agg = s.agg := by simp [refreshOperation]

@[simp] theorem refreshOperation_errCount : (refreshOperation s).errCount = s.errCount := by simp [refreshOperation]

@[simp] theorem refreshOperation_todo : (refreshOperation s).todo = s.todo := by simp [refreshOperation]

@[simp] theorem refreshOperation_moved : (refreshOperation s).moved = s.moved := by simp [refreshOperation]

@[simp] theorem refreshOperation_script : (refreshOperation s).script = s.script := by simp [refreshOperation]

@[simp] theorem refreshOperation_draws : (refreshOperation s).draws = s.draws := by simp [refreshOperation]

@[simp] theorem refreshOperation_ports : (refreshOperation s).ports = s.ports ++ [.phase .wakeCs, .cs true, .delay .coarse (refreshDelay s.par.given), .cs false, .phase .idle] := by simp [refreshOperation]

/-! ### endWrite -/

@[simp] theorem endWrite_n : (endWrite s).n = s.n := by simp [endWrite]

@[simp] theorem endWrite_par : (endWrite s).par = s.par := by simp [endWrite]

@[simp] theorem endWrite_tx : (endWrite s).tx = s.tx := by simp [endWrite]

@[simp] theorem endWrite_rx : (endWrite s).rx = s.rx := by simp [endWrite]

@[simp] theorem endWrite_rxUnspec : (endWrite s).rxUnspec = s.rxUnspec := by simp [endWrite]

@[simp] theorem endWrite_board : (endWrite s).board = s.board := by simp [endWrite]

@[simp] theorem endWrite_tmplCv : (endWrite s).tmplCv = s.tmplCv := by simp [endWrite]

@[simp] theorem endWrite_tmplAx : (endWrite s).tmplAx = s.tmplAx := by simp [endWrite]

@[simp] theorem endWrite_phase : (endWrite s).phase = .idle := by simp [endWrite]

@[simp] theorem endWrite_pwr : (endWrite s).pwr = s.pwr := by simp [endWrite]

@[simp] theorem endWrite_cs : (endWrite s).cs = s.cs := by simp [endWrite]

@[simp] theorem endWrite_busState : (endWrite s).busState = s.busState := by simp [endWrite]

@[simp] theorem endWrite_inflight : (endWrite s).inflight = s.inflight := by simp [endWrite]

@[simp] theorem endWrite_doneSig : (endWrite s).doneSig = s.doneSig := by simp [endWrite]

@[simp] theorem endWrite_errFlag : (endWrite s).errFlag = s.errFlag := by simp [endWrite]

@[simp] theorem endWrite_status : (endWrite s).status = s.status := by simp [endWrite]

@[simp] theorem endWrite_pecFail : (endWrite s).pecFail = s.pecFail := by simp [endWrite]

@[simp] theorem endWrite_pecOut : (endWrite s).pecOut = s.pecOut := by simp [endWrite]

@[simp] theorem endWrite_pending : (endWrite s).pending = s.pending := by simp [endWrite]

@[simp] theorem endWrite_answer : (endWrite s).answer = .status s.status := by simp [endWrite]

@[simp] theorem endWrite_tornDown : (endWrite s).tornDown = s.tornDown := by simp [endWrite]

@[simp] theorem endWrite_code : (endWrite s).code = s.code := by simp [endWrite]

@[simp] theorem endWrite_agg : (endWrite s).agg = s.agg := by simp [endWrite]

@[simp] theorem endWrite_errCount : (endWrite s).errCount = s.errCount := by simp [endWrite]

@[simp] theorem endWrite_todo : (endWrite s).todo = s.todo := by simp [endWrite]

@[simp] theorem endWrite_moved : (endWrite s).moved = s.moved := by simp [endWrite]

@[simp] theorem endWrite_script : (endWrite s).script = s.script := by simp [endWrite]

@[simp] theorem endWrite_draws : (endWrite s).draws = s.draws := by simp [endWrite]

@[simp] theorem endWrite_ports : (endWrite s).ports = s.ports ++ [.phase .idle] := by simp [endWrite]

/-! ### validate -/

/-- A block's flag does not depend on the phase. -/
@[simp] theorem blockFails_setPhase (p : Phase) (j : Nat) : blockFails (setPhase p s) j = blockFails s j := rfl

@[simp] theorem validate_n : (validate s).n = s.n := by simp [validate]

@[simp] theorem validate_par : (validate s).par = s.par := by simp [validate]

@[simp] theorem validate_tx : (validate s).tx = s.tx := by simp [validate]

@[simp] theorem validate_rx : (validate s).rx = s.rx := by simp [validate]

@[simp] theorem validate_rxUnspec : (validate s).rxUnspec = s.rxUnspec := by simp [validate]

@[simp] theorem validate_board : (validate s).board = s.board := by simp [validate]

@[simp] theorem validate_tmplCv : (validate s).tmplCv = s.tmplCv := by simp [validate]

@[simp] theorem validate_tmplAx : (validate s).tmplAx = s.tmplAx := by simp [validate]

@[simp] theorem validate_phase : (validate s).phase = .validate := by simp [validate]

@[simp] theorem validate_pwr : (validate s).pwr = s.pwr := by simp [validate]

@[simp] theorem validate_cs : (validate s).cs = s.cs := by simp [validate]

@[simp] theorem validate_busState : (validate s).busState = s.busState := by simp [validate]

@[simp] theorem validate_inflight : (validate s).inflight = s.inflight := by simp [validate]

@[simp] theorem validate_doneSig : (validate s).doneSig = s.doneSig := by simp [validate]

@[simp] theorem validate_errFlag : (validate s).errFlag = s.errFlag := by simp [validate]

@[simp] theorem validate_status : (validate s).status = s.status := by simp [validate]

@[simp] theorem validate_pecFail : (validate s).pecFail = { val := (List.range s.n).map (blockFails s), known := true } := by simp [validate, funext (blockFails_setPhase s .validate)]

@[simp] theorem validate_pecOut : (validate s).pecOut = s.pecOut := by simp [validate]

@[simp] theorem validate_pending : (validate s).pending = s.pending := by simp [validate]

@[simp] theorem validate_answer : (validate s).answer = s.answer := by simp [validate]

@[simp] theorem validate_tornDown : (validate s).tornDown = s.tornDown := by simp [validate]

@[simp] theorem validate_code : (validate s).code = s.code := by simp [validate]

@[simp] theorem validate_agg : (validate s).agg = s.agg := by simp [validate]

@[simp] theorem validate_errCount : (validate s).errCount = s.errCount := by simp [validate]

@[simp] theorem validate_todo : (validate s).todo = s.todo := by simp [validate]

@[simp] theorem validate_moved : (validate s).moved = s.moved := by simp [validate]

@[simp] theorem validate_script : (validate s).script = s.script := by simp [validate]

@[simp] theorem validate_draws : (validate s).draws = s.draws + 1 := by simp [validate]

@[simp] theorem validate_ports : (validate s).ports = s.ports ++ [.phase .validate] := by simp [validate]

/-! ### unspecifiedPecFail -/

@[simp] theorem unspecifiedPecFail_n : (unspecifiedPecFail s).n = s.n := rfl

@[simp] theorem unspecifiedPecFail_par : (unspecifiedPecFail s).par = s.par := rfl

@[simp] theorem unspecifiedPecFail_tx : (unspecifiedPecFail s).tx = s.tx := rfl

@[simp] theorem unspecifiedPecFail_rx : (unspecifiedPecFail s).rx = s.rx := rfl

@[simp] theorem unspecifiedPecFail_rxUnspec : (unspecifiedPecFail s).rxUnspec = s.rxUnspec := rfl

@[simp] theorem unspecifiedPecFail_board : (unspecifiedPecFail s).board = s.board := rfl

@[simp] theorem unspecifiedPecFail_tmplCv : (unspecifiedPecFail s).tmplCv = s.tmplCv := rfl

@[simp] theorem unspecifiedPecFail_tmplAx : (unspecifiedPecFail s).tmplAx = s.tmplAx := rfl

@[simp] theorem unspecifiedPecFail_phase : (unspecifiedPecFail s).phase = s.phase := rfl

@[simp] theorem unspecifiedPecFail_pwr : (unspecifiedPecFail s).pwr = s.pwr := rfl

@[simp] theorem unspecifiedPecFail_cs : (unspecifiedPecFail s).cs = s.cs := rfl

@[simp] theorem unspecifiedPecFail_busState : (unspecifiedPecFail s).busState = s.busState := rfl

@[simp] theorem unspecifiedPecFail_inflight : (unspecifiedPecFail s).inflight = s.inflight := rfl

@[simp] theorem unspecifiedPecFail_doneSig : (unspecifiedPecFail s).doneSig = s.doneSig := rfl

@[simp] theorem unspecifiedPecFail_errFlag : (unspecifiedPecFail s).errFlag = s.errFlag := rfl

@[simp] theorem unspecifiedPecFail_status : (unspecifiedPecFail s).status = s.status := rfl

@[simp] theorem unspecifiedPecFail_pecFail : (unspecifiedPecFail s).pecFail = { val := (List.range s.n).map (Config.freeFlag s.draws), known := true } := rfl

@[simp] theorem unspecifiedPecFail_pecOut : (unspecifiedPecFail s).pecOut = s.pecOut := rfl

@[simp] theorem unspecifiedPecFail_pending : (unspecifiedPecFail s).pending = s.pending := rfl

@[simp] theorem unspecifiedPecFail_answer : (unspecifiedPecFail s).answer = s.answer := rfl

@[simp] theorem unspecifiedPecFail_tornDown : (unspecifiedPecFail s).tornDown = s.tornDown := rfl

@[simp] theorem unspecifiedPecFail_code : (unspecifiedPecFail s).code = s.code := rfl

@[simp] theorem unspecifiedPecFail_agg : (unspecifiedPecFail s).agg = s.agg := rfl

@[simp] theorem unspecifiedPecFail_errCount : (unspecifiedPecFail s).errCount = s.errCount := rfl

@[simp] theorem unspecifiedPecFail_todo : (unspecifiedPecFail s).todo = s.todo := rfl

@[simp] theorem unspecifiedPecFail_moved : (unspecifiedPecFail s).moved = s.moved := rfl

@[simp] theorem unspecifiedPecFail_script : (unspecifiedPecFail s).script = s.script := rfl

@[simp] theorem unspecifiedPecFail_draws : (unspecifiedPecFail s).draws = s.draws + 1 := rfl

@[simp] theorem unspecifiedPecFail_ports : (unspecifiedPecFail s).ports = s.ports := rfl

/-! ### endRead -/

@[simp] theorem endRead_n : (endRead s).n = s.n := by
  by_cases h : s.status = .ok <;> simp [endRead, h]

@[simp] theorem endRead_par : (endRead s).par = s.par := by
  by_cases h : s.status = .ok <;> simp [endRead, h]

@[simp] theorem endRead_tx : (endRead s).tx = s.tx := by
  by_cases h : s.status = .ok <;> simp [endRead, h]

@[simp] theorem endRead_rx : (endRead s).rx = s.rx := by
  by_cases h : s.status = .ok <;> simp [endRead, h]

@[simp] theorem endRead_rxUnspec : (endRead s).rxUnspec = s.rxUnspec := by
  by_cases h : s.status = .ok <;> simp [endRead, h]

@[simp] theorem endRead_board : (endRead s).board = s.board := by
  by_cases h : s.status = .ok <;> simp [endRead, h]

@[simp] theorem endRead_tmplCv : (endRead s).tmplCv = s.tmplCv := by
  by_cases h : s.status = .ok <;> simp [endRead, h]

@[simp] theorem endRead_tmplAx : (endRead s).tmplAx = s.tmplAx := by
  by_cases h : s.status = .ok <;> simp [endRead, h]

@[simp] theorem endRead_phase : (endRead s).phase = .idle := by
  by_cases h : s.status = .ok <;> simp [endRead, h]

@[simp] theorem endRead_pwr : (endRead s).pwr = s.pwr := by
  by_cases h : s.status = .ok <;> simp [endRead, h]

@[simp] theorem endRead_cs : (endRead s).cs = s.cs := by
  by_cases h : s.status = .ok <;> simp [endRead, h]

@[simp] theorem endRead_busState : (endRead s).busState = s.busState := by
  by_cases h : s.status = .ok <;> simp [endRead, h]

@[simp] theorem endRead_inflight : (endRead s).inflight = s.inflight := by
  by_cases h : s.status = .ok <;> simp [endRead, h]

@[simp] theorem endRead_doneSig : (endRead s).doneSig = s.doneSig := by
  by_cases h : s.status = .ok <;> simp [endRead, h]

@[simp] theorem endRead_errFlag : (endRead s).errFlag = s.errFlag := by
  by_cases h : s.status = .ok <;> simp [endRead, h]

@[simp] theorem endRead_status : (endRead s).status = s.status := by
  by_cases h : s.status = .ok <;> simp [endRead, h]

@[simp] theorem endRead_pecFail : (endRead s).pecFail = { val := (List.range s.n).map (if s.status = .ok then blockFails s else Config.freeFlag s.draws), known := true } := by
  by_cases h : s.status = .ok <;> simp [endRead, h]

@[simp] theorem endRead_pecOut : (endRead s).pecOut = s.pecOut := by
  by_cases h : s.status = .ok <;> simp [endRead, h]

@[simp] theorem endRead_pending : (endRead s).pending = s.pending := by
  by_cases h : s.status = .ok <;> simp [endRead, h]

@[simp] theorem endRead_answer : (endRead s).answer = .readResult s.status ((List.range s.n).map (if s.status = .ok then blockFails s else Config.freeFlag s.draws)) := by
  by_cases h : s.status = .ok <;> simp [endRead, h]

@[simp] theorem endRead_tornDown : (endRead s).tornDown = s.tornDown := by
  by_cases h : s.status = .ok <;> simp [endRead, h]

@[simp] theorem endRead_code : (endRead s).code = s.code := by
  by_cases h : s.status = .ok <;> simp [endRead, h]

@[simp] theorem endRead_agg : (endRead s).agg = s.agg := by
  by_cases h : s.status = .ok <;> simp [endRead, h]

@[simp] theorem endRead_errCount : (endRead s).errCount = s.errCount := by
  by_cases h : s.status = .ok <;> simp [endRead, h]

@[simp] theorem endRead_todo : (endRead s).todo = s.todo := by
  by_cases h : s.status = .ok <;> simp [endRead, h]

@[simp] theorem endRead_moved : (endRead s).moved = s.moved := by
  by_cases h : s.status = .ok <;> simp [endRead, h]

@[simp] theorem endRead_script : (endRead s).script = s.script := by
  by_cases h : s.status = .ok <;> simp [endRead, h]

@[simp] theorem endRead_draws : (endRead s).draws = s.draws + 1 := by
  by_cases h : s.status = .ok <;> simp [endRead, h]

@[simp] theorem endRead_ports : (endRead s).ports = s.ports ++ if s.status = .ok then [.phase .validate, .phase .idle] else [.phase .idle] := by
  by_cases h : s.status = .ok <;> simp [endRead, h]

/-! ### countErrors -/

@[simp] theorem countErrors_n : (countErrors s).n = s.n := rfl

@[simp] theorem countErrors_par : (countErrors s).par = s.par := rfl

@[simp] theorem countErrors_tx : (countErrors s).tx = s.tx := rfl

@[simp] theorem countErrors_rx : (countErrors s).rx = s.rx := rfl

@[simp] theorem countErrors_rxUnspec : (countErrors s).rxUnspec = s.rxUnspec := rfl

@[simp] theorem countErrors_board : (countErrors s).board = s.board := rfl

@[simp] theorem countErrors_tmplCv : (countErrors s).tmplCv = s.tmplCv := rfl

@[simp] theorem countErrors_tmplAx : (countErrors s).tmplAx = s.tmplAx := rfl

@[simp] theorem countErrors_phase : (countErrors s).phase = s.phase := rfl

@[simp] theorem countErrors_pwr : (countErrors s).pwr = s.pwr := rfl

@[simp] theorem countErrors_cs : (countErrors s).cs = s.cs := rfl

@[simp] theorem countErrors_busState : (countErrors s).busState = s.busState := rfl

@[simp] theorem countErrors_inflight : (countErrors s).inflight = s.inflight := rfl

@[simp] theorem countErrors_doneSig : (countErrors s).doneSig = s.doneSig := rfl

@[simp] theorem countErrors_errFlag : (countErrors s).errFlag = s.errFlag := rfl

@[simp] theorem countErrors_status : (countErrors s).status = s.status := rfl

@[simp] theorem countErrors_pecFail : (countErrors s).pecFail = s.pecFail := rfl

@[simp] theorem countErrors_pecOut : (countErrors s).pecOut = s.pecOut := rfl

@[simp] theorem countErrors_pending : (countErrors s).pending = s.pending := rfl

@[simp] theorem countErrors_answer : (countErrors s).answer = s.answer := rfl

@[simp] theorem countErrors_tornDown : (countErrors s).tornDown = s.tornDown := rfl

@[simp] theorem countErrors_code : (countErrors s).code = s.code := rfl

@[simp] theorem countErrors_agg : (countErrors s).agg = s.agg := rfl

@[simp] theorem countErrors_errCount : (countErrors s).errCount = s.errCount - (failCount s : Int) := rfl

@[simp] theorem countErrors_todo : (countErrors s).todo = s.todo := rfl

@[simp] theorem countErrors_moved : (countErrors s).moved = s.moved := rfl

@[simp] theorem countErrors_script : (countErrors s).script = s.script := rfl

@[simp] theorem countErrors_draws : (countErrors s).draws = s.draws := rfl

@[simp] theorem countErrors_ports : (countErrors s).ports = s.ports := rfl

/-! ### beginBus -/

@[simp] theorem beginBus_n (f : Frame) : (beginBus f s).n = s.n := by simp [beginBus]

@[simp] theorem beginBus_par (f : Frame) : (beginBus f s).par = s.par := by simp [beginBus]

@[simp] theorem beginBus_tx (f : Frame) : (beginBus f s).tx = memWriteBytes s.tx 0 (frameBytes s.n f) := by simp [beginBus]

@[simp] theorem beginBus_rx (f : Frame) : (beginBus f s).rx = s.rx := by simp [beginBus]

@[simp] theorem beginBus_rxUnspec (f : Frame) : (beginBus f s).rxUnspec = s.rxUnspec := by simp [beginBus]

@[simp] theorem beginBus_board (f : Frame) : (beginBus f s).board = s.board := by simp [beginBus]

@[simp] theorem beginBus_tmplCv (f : Frame) : (beginBus f s).tmplCv = s.tmplCv := by simp [beginBus]

@[simp] theorem beginBus_tmplAx (f : Frame) : (beginBus f s).tmplAx = s.tmplAx := by simp [beginBus]

@[simp] theorem beginBus_phase (f : Frame) : (beginBus f s).phase = .waitIdle := by simp [beginBus]

@[simp] theorem beginBus_pwr (f : Frame) : (beginBus f s).pwr = .idleReady := by simp [beginBus]

@[simp] theorem beginBus_cs (f : Frame) : (beginBus f s).cs = false := by simp [beginBus]

@[simp] theorem beginBus_busState (f : Frame) : (beginBus f s).busState = s.busState := by simp [beginBus]

@[simp] theorem beginBus_inflight (f : Frame) : (beginBus f s).inflight = s.inflight := by simp [beginBus]

@[simp] theorem beginBus_doneSig (f : Frame) : (beginBus f s).doneSig = s.doneSig := by simp [beginBus]

@[simp] theorem beginBus_errFlag (f : Frame) : (beginBus f s).errFlag = s.errFlag := by simp [beginBus]

@[simp] theorem beginBus_status (f : Frame) : (beginBus f s).status = s.status := by simp [beginBus]

@[simp] theorem beginBus_pecFail (f : Frame) : (beginBus f s).pecFail = s.pecFail := by simp [beginBus]

@[simp] theorem beginBus_pecOut (f : Frame) : (beginBus f s).pecOut = s.pecOut := by simp [beginBus]

@[simp] theorem beginBus_pending (f : Frame) : (beginBus f s).pending = s.pending := by simp [beginBus]

@[simp] theorem beginBus_answer (f : Frame) : (beginBus f s).answer = s.answer := by simp [beginBus]

@[simp] theorem beginBus_tornDown (f : Frame) : (beginBus f s).tornDown = s.tornDown := by simp [beginBus]

@[simp] theorem beginBus_code (f : Frame) : (beginBus f s).code = s.code := by simp [beginBus]

@[simp] theorem beginBus_agg (f : Frame) : (beginBus f s).agg = s.agg := by simp [beginBus]

@[simp] theorem beginBus_errCount (f : Frame) : (beginBus f s).errCount = s.errCount := by simp [beginBus]

@[simp] theorem beginBus_todo (f : Frame) : (beginBus f s).todo = s.todo := by simp [beginBus]

@[simp] theorem beginBus_moved (f : Frame) : (beginBus f s).moved = s.moved := by simp [beginBus]

@[simp] theorem beginBus_script (f : Frame) : (beginBus f s).script = s.script := by simp [beginBus]

@[simp] theorem beginBus_draws (f : Frame) : (beginBus f s).draws = s.draws := by simp [beginBus]

@[simp] theorem beginBus_ports (f : Frame) : (beginBus f s).ports = s.ports ++ [.phase .wakeCs, .cs true, .delay .coarse (refreshDelay s.par.given), .cs false, .phase .assemble, .phase .waitIdle] := by simp [beginBus]

/-! ### idleTimeout -/

@[simp] theorem idleTimeout_n : (idleTimeout s).n = s.n := by simp [idleTimeout]

@[simp] theorem idleTimeout_par : (idleTimeout s).par = s.par := by simp [idleTimeout]

@[simp] theorem idleTimeout_tx : (idleTimeout s).tx = s.tx := by simp [idleTimeout]

@[simp] theorem idleTimeout_rx : (idleTimeout s).rx = s.rx := by simp [idleTimeout]

@[simp] theorem idleTimeout_rxUnspec : (idleTimeout s).rxUnspec = s.rxUnspec := by simp [idleTimeout]

@[simp] theorem idleTimeout_board : (idleTimeout s).board = s.board := by simp [idleTimeout]

@[simp] theorem idleTimeout_tmplCv : (idleTimeout s).tmplCv = s.tmplCv := by simp [idleTimeout]

@[simp] theorem idleTimeout_tmplAx : (idleTimeout s).tmplAx = s.tmplAx := by simp [idleTimeout]

@[simp] theorem idleTimeout_phase : (idleTimeout s).phase = s.phase := by simp [idleTimeout]

@[simp] theorem idleTimeout_pwr : (idleTimeout s).pwr = s.pwr := by simp [idleTimeout]

@[simp] theorem idleTimeout_cs : (idleTimeout s).cs = false := by simp [idleTimeout]

@[simp] theorem idleTimeout_busState : (idleTimeout s).busState = s.busState := by simp [idleTimeout]

@[simp] theorem idleTimeout_inflight : (idleTimeout s).inflight = s.inflight := by simp [idleTimeout]

@[simp] theorem idleTimeout_doneSig : (idleTimeout s).doneSig = s.doneSig := by simp [idleTimeout]

@[simp] theorem idleTimeout_errFlag : (idleTimeout s).errFlag = s.errFlag := by simp [idleTimeout]

@[simp] theorem idleTimeout_status : (idleTimeout s).status = .timeout := by simp [idleTimeout]

@[simp] theorem idleTimeout_pecFail : (idleTimeout s).pecFail = s.pecFail := by simp [idleTimeout]

@[simp] theorem idleTimeout_pecOut : (idleTimeout s).pecOut = s.pecOut := by simp [idleTimeout]

@[simp] theorem idleTimeout_pending : (idleTimeout s).pending = s.pending := by simp [idleTimeout]

@[simp] theorem idleTimeout_answer : (idleTimeout s).answer = s.answer := by simp [idleTimeout]

@[simp] theorem idleTimeout_tornDown : (idleTimeout s).tornDown = s.tornDown := by simp [idleTimeout]

@[simp] theorem idleTimeout_code : (idleTimeout s).code = s.code := by simp [idleTimeout]

@[simp] theorem idleTimeout_agg : (idleTimeout s).agg = s.agg := by simp [idleTimeout]

@[simp] theorem idleTimeout_errCount : (idleTimeout s).errCount = s.errCount := by simp [idleTimeout]

@[simp] theorem idleTimeout_todo : (idleTimeout s).todo = s.todo := by simp [idleTimeout]

@[simp] theorem idleTimeout_moved : (idleTimeout s).moved = s.moved := by simp [idleTimeout]

@[simp] theorem idleTimeout_script : (idleTimeout s).script = s.script := by simp [idleTimeout]

@[simp] theorem idleTimeout_draws : (idleTimeout s).draws = s.draws := by simp [idleTimeout]

@[simp] theorem idleTimeout_ports : (idleTimeout s).ports = s.ports ++ [.cs false] := by simp [idleTimeout]

/-! ### issue -/

@[simp] theorem issue_n (len : Nat) (dir : Dir) : (issue len dir s).n = s.n := by
  cases dir <;> simp [issue]

@[simp] theorem issue_par (len : Nat) (dir : Dir) : (issue len dir s).par = s.par := by
  cases dir <;> simp [issue]

@[simp] theorem issue_tx (len : Nat) (dir : Dir) : (issue len dir s).tx = s.tx := by
  cases dir <;> simp [issue]

@[simp] theorem issue_rx (len : Nat) (dir : Dir) : (issue len dir s).rx = (if dir = .duplex then s.rx else memUnspecify (s.draws + 1) s.rx len) := by
  cases dir <;> simp [issue]

@[simp] theorem issue_rxUnspec (len : Nat) (dir : Dir) : (issue len dir s).rxUnspec = (if dir = .duplex then 0 else max s.rxUnspec len) := by
  cases dir <;> simp [issue]

@[simp] theorem issue_board (len : Nat) (dir : Dir) : (issue len dir s).board = s.board := by
  cases dir <;> simp [issue]

@[simp] theorem issue_tmplCv (len : Nat) (dir : Dir) : (issue len dir s).tmplCv = s.tmplCv := by
  cases dir <;> simp [issue]

@[simp] theorem issue_tmplAx (len : Nat) (dir : Dir) : (issue len dir s).tmplAx = s.tmplAx := by
  cases dir <;> simp [issue]

@[simp] theorem issue_phase (len : Nat) (dir : Dir) : (issue len dir s).phase = s.phase := by
  cases dir <;> simp [issue]

@[simp] theorem issue_pwr (len : Nat) (dir : Dir) : (issue len dir s).pwr = s.pwr := by
  cases dir <;> simp [issue]

@[simp] theorem issue_cs (len : Nat) (dir : Dir) : (issue len dir s).cs = s.cs := by
  cases dir <;> simp [issue]

@[simp] theorem issue_busState (len : Nat) (dir : Dir) : (issue len dir s).busState = busyValue s := by
  cases dir <;> simp [issue]

@[simp] theorem issue_inflight (len : Nat) (dir : Dir) : (issue len dir s).inflight = s.inflight := by
  cases dir <;> simp [issue]

@[simp] theorem issue_doneSig (len : Nat) (dir : Dir) : (issue len dir s).doneSig = s.doneSig := by
  cases dir <;> simp [issue]

@[simp] theorem issue_errFlag (len : Nat) (dir : Dir) : (issue len dir s).errFlag = false := by
  cases dir <;> simp [issue]

@[simp] theorem issue_status (len : Nat) (dir : Dir) : (issue len dir s).status = s.status := by
  cases dir <;> simp [issue]

@[simp] theorem issue_pecFail (len : Nat) (dir : Dir) : (issue len dir s).pecFail = s.pecFail := by
  cases dir <;> simp [issue]

@[simp] theorem issue_pecOut (len : Nat) (dir : Dir) : (issue len dir s).pecOut = s.pecOut := by
  cases dir <;> simp [issue]

@[simp] theorem issue_pending (len : Nat) (dir : Dir) : (issue len dir s).pending = s.pending := by
  cases dir <;> simp [issue]

@[simp] theorem issue_answer (len : Nat) (dir : Dir) : (issue len dir s).answer = s.answer := by
  cases dir <;> simp [issue]

@[simp] theorem issue_tornDown (len : Nat) (dir : Dir) : (issue len dir s).tornDown = s.tornDown := by
  cases dir <;> simp [issue]

@[simp] theorem issue_code (len : Nat) (dir : Dir) : (issue len dir s).code = s.code := by
  cases dir <;> simp [issue]

@[simp] theorem issue_agg (len : Nat) (dir : Dir) : (issue len dir s).agg = s.agg := by
  cases dir <;> simp [issue]

@[simp] theorem issue_errCount (len : Nat) (dir : Dir) : (issue len dir s).errCount = s.errCount := by
  cases dir <;> simp [issue]

@[simp] theorem issue_todo (len : Nat) (dir : Dir) : (issue len dir s).todo = s.todo := by
  cases dir <;> simp [issue]

@[simp] theorem issue_moved (len : Nat) (dir : Dir) : (issue len dir s).moved = 0 := by
  cases dir <;> simp [issue]

@[simp] theorem issue_script (len : Nat) (dir : Dir) : (issue len dir s).script = s.script := by
  cases dir <;> simp [issue]

@[simp] theorem issue_draws (len : Nat) (dir : Dir) : (issue len dir s).draws = (if dir = .duplex then s.draws + 1 else s.draws + 2) := by
  cases dir <;> simp [issue]

@[simp] theorem issue_ports (len : Nat) (dir : Dir) : (issue len dir s).ports = s.ports := by
  cases dir <;> simp [issue]

/-! ### startTransfer -/

/-- Which busy value the platform shows depends on the draws alone. -/
@[simp] theorem busyValue_setPhase (p : Phase) : busyValue (setPhase p s) = busyValue s := rfl

@[simp] theorem busyValue_setCs (b : Bool) : busyValue (setCs b s) = busyValue s := rfl

@[simp] theorem startTransfer_n (m : Mode) (f : Frame) : (startTransfer m f s).n = s.n := by
  cases m <;> simp [startTransfer]

@[simp] theorem startTransfer_par (m : Mode) (f : Frame) : (startTransfer m f s).par = s.par := by
  cases m <;> simp [startTransfer]

@[simp] theorem startTransfer_tx (m : Mode) (f : Frame) : (startTransfer m f s).tx = s.tx := by
  cases m <;> simp [startTransfer]

@[simp] theorem startTransfer_rx (m : Mode) (f : Frame) : (startTransfer m f s).rx = (if frameDir f = .duplex then s.rx else memUnspecify (s.draws + 1) s.rx (frameLen s.n f)) := by
  cases m <;> cases h : frameDir f <;> simp [startTransfer, h]

@[simp] theorem startTransfer_rxUnspec (m : Mode) (f : Frame) : (startTransfer m f s).rxUnspec = (if frameDir f = .duplex then 0 else max s.rxUnspec (frameLen s.n f)) := by
  cases m <;> cases h : frameDir f <;> simp [startTransfer, h]

@[simp] theorem startTransfer_board (m : Mode) (f : Frame) : (startTransfer m f s).board = s.board := by
  cases m <;> simp [startTransfer]

@[simp] theorem startTransfer_tmplCv (m : Mode) (f : Frame) : (startTransfer m f s).tmplCv = s.tmplCv := by
  cases m <;> simp [startTransfer]

@[simp] theorem startTransfer_tmplAx (m : Mode) (f : Frame) : (startTransfer m f s).tmplAx = s.tmplAx := by
  cases m <;> simp [startTransfer]

@[simp] theorem startTransfer_phase (m : Mode) (f : Frame) : (startTransfer m f s).phase = (match m with | .b _ => .xferB | .a => .waitDone) := by
  cases m <;> simp [startTransfer]

@[simp] theorem startTransfer_pwr (m : Mode) (f : Frame) : (startTransfer m f s).pwr = s.pwr := by
  cases m <;> simp [startTransfer]

@[simp] theorem startTransfer_cs (m : Mode) (f : Frame) : (startTransfer m f s).cs = true := by
  cases m <;> simp [startTransfer]

@[simp] theorem startTransfer_busState (m : Mode) (f : Frame) : (startTransfer m f s).busState = busyValue s := by
  cases m <;> simp [startTransfer]

@[simp] theorem startTransfer_inflight (m : Mode) (f : Frame) : (startTransfer m f s).inflight = (match m with | .b _ => s.inflight | .a => some { len := frameLen s.n f, dir := frameDir f }) := by
  cases m <;> simp [startTransfer]

@[simp] theorem startTransfer_doneSig (m : Mode) (f : Frame) : (startTransfer m f s).doneSig = s.doneSig := by
  cases m <;> simp [startTransfer]

@[simp] theorem startTransfer_errFlag (m : Mode) (f : Frame) : (startTransfer m f s).errFlag = false := by
  cases m <;> simp [startTransfer]

@[simp] theorem startTransfer_status (m : Mode) (f : Frame) : (startTransfer m f s).status = s.status := by
  cases m <;> simp [startTransfer]

@[simp] theorem startTransfer_pecFail (m : Mode) (f : Frame) : (startTransfer m f s).pecFail = s.pecFail := by
  cases m <;> simp [startTransfer]

@[simp] theorem startTransfer_pecOut (m : Mode) (f : Frame) : (startTransfer m f s).pecOut = s.pecOut := by
  cases m <;> simp [startTransfer]

@[simp] theorem startTransfer_pending (m : Mode) (f : Frame) : (startTransfer m f s).pending = s.pending := by
  cases m <;> simp [startTransfer]

@[simp] theorem startTransfer_answer (m : Mode) (f : Frame) : (startTransfer m f s).answer = s.answer := by
  cases m <;> simp [startTransfer]

@[simp] theorem startTransfer_tornDown (m : Mode) (f : Frame) : (startTransfer m f s).tornDown = s.tornDown := by
  cases m <;> simp [startTransfer]

@[simp] theorem startTransfer_code (m : Mode) (f : Frame) : (startTransfer m f s).code = s.code := by
  cases m <;> simp [startTransfer]

@[simp] theorem startTransfer_agg (m : Mode) (f : Frame) : (startTransfer m f s).agg = s.agg := by
  cases m <;> simp [startTransfer]

@[simp] theorem startTransfer_errCount (m : Mode) (f : Frame) : (startTransfer m f s).errCount = s.errCount := by
  cases m <;> simp [startTransfer]

@[simp] theorem startTransfer_todo (m : Mode) (f : Frame) : (startTransfer m f s).todo = s.todo := by
  cases m <;> simp [startTransfer]

@[simp] theorem startTransfer_moved (m : Mode) (f : Frame) : (startTransfer m f s).moved = 0 := by
  cases m <;> simp [startTransfer]

@[simp] theorem startTransfer_script (m : Mode) (f : Frame) : (startTransfer m f s).script = s.script := by
  cases m <;> simp [startTransfer]

@[simp] theorem startTransfer_draws (m : Mode) (f : Frame) : (startTransfer m f s).draws = (if frameDir f = .duplex then s.draws + 1 else s.draws + 2) := by
  cases m <;> cases h : frameDir f <;> simp [startTransfer, h]

@[simp] theorem startTransfer_ports (m : Mode) (f : Frame) : (startTransfer m f s).ports = s.ports ++ match m with | .b tmo => [.cs true, .phase .xferB, .xferStart (frameLen s.n f) (frameDir f) (.b tmo)] | .a => [.cs true, .xferStart (frameLen s.n f) (frameDir f) .a, .phase .waitDone] := by
  cases m <;> simp [startTransfer]

/-! ### moveByte -/

@[simp] theorem moveByte_n (b : Byte) (len : Nat) (dir : Dir) : (moveByte b len dir s).n = s.n := by
  by_cases h : s.moved < len <;> simp [moveByte, h]

@[simp] theorem moveByte_par (b : Byte) (len : Nat) (dir : Dir) : (moveByte b len dir s).par = s.par := by
  by_cases h : s.moved < len <;> simp [moveByte, h]

@[simp] theorem moveByte_tx (b : Byte) (len : Nat) (dir : Dir) : (moveByte b len dir s).tx = s.tx := by
  by_cases h : s.moved < len <;> simp [moveByte, h]

@[simp] theorem moveByte_rx (b : Byte) (len : Nat) (dir : Dir) : (moveByte b len dir s).rx = (if s.moved < len ∧ dir = .duplex then memWrite s.rx s.moved b else s.rx) := by
  by_cases h : s.moved < len <;> simp [moveByte, h]

@[simp] theorem moveByte_rxUnspec (b : Byte) (len : Nat) (dir : Dir) : (moveByte b len dir s).rxUnspec = s.rxUnspec := by
  by_cases h : s.moved < len <;> simp [moveByte, h]

@[simp] theorem moveByte_board (b : Byte) (len : Nat) (dir : Dir) : (moveByte b len dir s).board = s.board := by
  by_cases h : s.moved < len <;> simp [moveByte, h]

@[simp] theorem moveByte_tmplCv (b : Byte) (len : Nat) (dir : Dir) : (moveByte b len dir s).tmplCv = s.tmplCv := by
  by_cases h : s.moved < len <;> simp [moveByte, h]

@[simp] theorem moveByte_tmplAx (b : Byte) (len : Nat) (dir : Dir) : (moveByte b len dir s).tmplAx = s.tmplAx := by
  by_cases h : s.moved < len <;> simp [moveByte, h]

@[simp] theorem moveByte_phase (b : Byte) (len : Nat) (dir : Dir) : (moveByte b len dir s).phase = s.phase := by
  by_cases h : s.moved < len <;> simp [moveByte, h]

@[simp] theorem moveByte_pwr (b : Byte) (len : Nat) (dir : Dir) : (moveByte b len dir s).pwr = s.pwr := by
  by_cases h : s.moved < len <;> simp [moveByte, h]

@[simp] theorem moveByte_cs (b : Byte) (len : Nat) (dir : Dir) : (moveByte b len dir s).cs = s.cs := by
  by_cases h : s.moved < len <;> simp [moveByte, h]

@[simp] theorem moveByte_busState (b : Byte) (len : Nat) (dir : Dir) : (moveByte b len dir s).busState = s.busState := by
  by_cases h : s.moved < len <;> simp [moveByte, h]

@[simp] theorem moveByte_inflight (b : Byte) (len : Nat) (dir : Dir) : (moveByte b len dir s).inflight = s.inflight := by
  by_cases h : s.moved < len <;> simp [moveByte, h]

@[simp] theorem moveByte_doneSig (b : Byte) (len : Nat) (dir : Dir) : (moveByte b len dir s).doneSig = s.doneSig := by
  by_cases h : s.moved < len <;> simp [moveByte, h]

@[simp] theorem moveByte_errFlag (b : Byte) (len : Nat) (dir : Dir) : (moveByte b len dir s).errFlag = s.errFlag := by
  by_cases h : s.moved < len <;> simp [moveByte, h]

@[simp] theorem moveByte_status (b : Byte) (len : Nat) (dir : Dir) : (moveByte b len dir s).status = s.status := by
  by_cases h : s.moved < len <;> simp [moveByte, h]

@[simp] theorem moveByte_pecFail (b : Byte) (len : Nat) (dir : Dir) : (moveByte b len dir s).pecFail = s.pecFail := by
  by_cases h : s.moved < len <;> simp [moveByte, h]

@[simp] theorem moveByte_pecOut (b : Byte) (len : Nat) (dir : Dir) : (moveByte b len dir s).pecOut = s.pecOut := by
  by_cases h : s.moved < len <;> simp [moveByte, h]

@[simp] theorem moveByte_pending (b : Byte) (len : Nat) (dir : Dir) : (moveByte b len dir s).pending = s.pending := by
  by_cases h : s.moved < len <;> simp [moveByte, h]

@[simp] theorem moveByte_answer (b : Byte) (len : Nat) (dir : Dir) : (moveByte b len dir s).answer = s.answer := by
  by_cases h : s.moved < len <;> simp [moveByte, h]

@[simp] theorem moveByte_tornDown (b : Byte) (len : Nat) (dir : Dir) : (moveByte b len dir s).tornDown = s.tornDown := by
  by_cases h : s.moved < len <;> simp [moveByte, h]

@[simp] theorem moveByte_code (b : Byte) (len : Nat) (dir : Dir) : (moveByte b len dir s).code = s.code := by
  by_cases h : s.moved < len <;> simp [moveByte, h]

@[simp] theorem moveByte_agg (b : Byte) (len : Nat) (dir : Dir) : (moveByte b len dir s).agg = s.agg := by
  by_cases h : s.moved < len <;> simp [moveByte, h]

@[simp] theorem moveByte_errCount (b : Byte) (len : Nat) (dir : Dir) : (moveByte b len dir s).errCount = s.errCount := by
  by_cases h : s.moved < len <;> simp [moveByte, h]

@[simp] theorem moveByte_todo (b : Byte) (len : Nat) (dir : Dir) : (moveByte b len dir s).todo = s.todo := by
  by_cases h : s.moved < len <;> simp [moveByte, h]

@[simp] theorem moveByte_moved (b : Byte) (len : Nat) (dir : Dir) : (moveByte b len dir s).moved = (if s.moved < len then s.moved + 1 else s.moved) := by
  by_cases h : s.moved < len <;> simp [moveByte, h]

@[simp] theorem moveByte_script (b : Byte) (len : Nat) (dir : Dir) : (moveByte b len dir s).script = s.script := by
  by_cases h : s.moved < len <;> simp [moveByte, h]

@[simp] theorem moveByte_draws (b : Byte) (len : Nat) (dir : Dir) : (moveByte b len dir s).draws = s.draws := by
  by_cases h : s.moved < len <;> simp [moveByte, h]

@[simp] theorem moveByte_ports (b : Byte) (len : Nat) (dir : Dir) : (moveByte b len dir s).ports = s.ports ++ if s.moved < len then [.wire (memRead s.tx s.moved) (s.pwr == .idleReady)] else [] := by
  by_cases h : s.moved < len <;> simp [moveByte, h]

/-! ### finishBlocking -/

@[simp] theorem finishBlocking_n (st : Status) (len : Nat) : (finishBlocking st len s).n = s.n := by
  by_cases h : st = .ok <;> simp [finishBlocking, h]

@[simp] theorem finishBlocking_par (st : Status) (len : Nat) : (finishBlocking st len s).par = s.par := by
  by_cases h : st = .ok <;> simp [finishBlocking, h]

@[simp] theorem finishBlocking_tx (st : Status) (len : Nat) : (finishBlocking st len s).tx = s.tx := by
  by_cases h : st = .ok <;> simp [finishBlocking, h]

@[simp] theorem finishBlocking_rx (st : Status) (len : Nat) : (finishBlocking st len s).rx = (if st = .ok then s.rx else memUnspecify s.draws s.rx len) := by
  by_cases h : st = .ok <;> simp [finishBlocking, h]

@[simp] theorem finishBlocking_rxUnspec (st : Status) (len : Nat) : (finishBlocking st len s).rxUnspec = (if st = .ok then s.rxUnspec else max s.rxUnspec len) := by
  by_cases h : st = .ok <;> simp [finishBlocking, h]

@[simp] theorem finishBlocking_board (st : Status) (len : Nat) : (finishBlocking st len s).board = s.board := by
  by_cases h : st = .ok <;> simp [finishBlocking, h]

@[simp] theorem finishBlocking_tmplCv (st : Status) (len : Nat) : (finishBlocking st len s).tmplCv = s.tmplCv := by
  by_cases h : st = .ok <;> simp [finishBlocking, h]

@[simp] theorem finishBlocking_tmplAx (st : Status) (len : Nat) : (finishBlocking st len s).tmplAx = s.tmplAx := by
  by_cases h : st = .ok <;> simp [finishBlocking, h]

@[simp] theorem finishBlocking_phase (st : Status) (len : Nat) : (finishBlocking st len s).phase = s.phase := by
  by_cases h : st = .ok <;> simp [finishBlocking, h]

@[simp] theorem finishBlocking_pwr (st : Status) (len : Nat) : (finishBlocking st len s).pwr = s.pwr := by
  by_cases h : st = .ok <;> simp [finishBlocking, h]

@[simp] theorem finishBlocking_cs (st : Status) (len : Nat) : (finishBlocking st len s).cs = false := by
  by_cases h : st = .ok <;> simp [finishBlocking, h]

@[simp] theorem finishBlocking_busState (st : Status) (len : Nat) : (finishBlocking st len s).busState = .idle := by
  by_cases h : st = .ok <;> simp [finishBlocking, h]

@[simp] theorem finishBlocking_inflight (st : Status) (len : Nat) : (finishBlocking st len s).inflight = s.inflight := by
  by_cases h : st = .ok <;> simp [finishBlocking, h]

@[simp] theorem finishBlocking_doneSig (st : Status) (len : Nat) : (finishBlocking st len s).doneSig = s.doneSig := by
  by_cases h : st = .ok <;> simp [finishBlocking, h]

@[simp] theorem finishBlocking_errFlag (st : Status) (len : Nat) : (finishBlocking st len s).errFlag = s.errFlag := by
  by_cases h : st = .ok <;> simp [finishBlocking, h]

@[simp] theorem finishBlocking_status (st : Status) (len : Nat) : (finishBlocking st len s).status = st := by
  by_cases h : st = .ok <;> simp [finishBlocking, h]

@[simp] theorem finishBlocking_pecFail (st : Status) (len : Nat) : (finishBlocking st len s).pecFail = s.pecFail := by
  by_cases h : st = .ok <;> simp [finishBlocking, h]

@[simp] theorem finishBlocking_pecOut (st : Status) (len : Nat) : (finishBlocking st len s).pecOut = s.pecOut := by
  by_cases h : st = .ok <;> simp [finishBlocking, h]

@[simp] theorem finishBlocking_pending (st : Status) (len : Nat) : (finishBlocking st len s).pending = s.pending := by
  by_cases h : st = .ok <;> simp [finishBlocking, h]

@[simp] theorem finishBlocking_answer (st : Status) (len : Nat) : (finishBlocking st len s).answer = s.answer := by
  by_cases h : st = .ok <;> simp [finishBlocking, h]

@[simp] theorem finishBlocking_tornDown (st : Status) (len : Nat) : (finishBlocking st len s).tornDown = s.tornDown := by
  by_cases h : st = .ok <;> simp [finishBlocking, h]

@[simp] theorem finishBlocking_code (st : Status) (len : Nat) : (finishBlocking st len s).code = s.code := by
  by_cases h : st = .ok <;> simp [finishBlocking, h]

@[simp] theorem finishBlocking_agg (st : Status) (len : Nat) : (finishBlocking st len s).agg = s.agg := by
  by_cases h : st = .ok <;> simp [finishBlocking, h]

@[simp] theorem finishBlocking_errCount (st : Status) (len : Nat) : (finishBlocking st len s).errCount = s.errCount := by
  by_cases h : st = .ok <;> simp [finishBlocking, h]

@[simp] theorem finishBlocking_todo (st : Status) (len : Nat) : (finishBlocking st len s).todo = s.todo := by
  by_cases h : st = .ok <;> simp [finishBlocking, h]

@[simp] theorem finishBlocking_moved (st : Status) (len : Nat) : (finishBlocking st len s).moved = 0 := by
  by_cases h : st = .ok <;> simp [finishBlocking, h]

@[simp] theorem finishBlocking_script (st : Status) (len : Nat) : (finishBlocking st len s).script = s.script := by
  by_cases h : st = .ok <;> simp [finishBlocking, h]

@[simp] theorem finishBlocking_draws (st : Status) (len : Nat) : (finishBlocking st len s).draws = (if st = .ok then s.draws else s.draws + 1) := by
  by_cases h : st = .ok <;> simp [finishBlocking, h]

@[simp] theorem finishBlocking_ports (st : Status) (len : Nat) : (finishBlocking st len s).ports = s.ports ++ [.cs false] := by
  by_cases h : st = .ok <;> simp [finishBlocking, h]

/-! ### teardown -/

@[simp] theorem teardown_n : (teardown s).n = s.n := rfl

@[simp] theorem teardown_par : (teardown s).par = s.par := rfl

@[simp] theorem teardown_tx : (teardown s).tx = [] := rfl

@[simp] theorem teardown_rx : (teardown s).rx = [] := rfl

@[simp] theorem teardown_rxUnspec : (teardown s).rxUnspec = 0 := rfl

@[simp] theorem teardown_board : (teardown s).board = List.replicate s.n emptyBoard := rfl

@[simp] theorem teardown_tmplCv : (teardown s).tmplCv = { b0 := Config.freeByte s.draws 0 0, b1 := Config.freeByte s.draws 0 1 } := rfl

@[simp] theorem teardown_tmplAx : (teardown s).tmplAx = { b0 := Config.freeByte s.draws 1 0, b1 := Config.freeByte s.draws 1 1 } := rfl

@[simp] theorem teardown_phase : (teardown s).phase = .idle := rfl

@[simp] theorem teardown_pwr : (teardown s).pwr = s.pwr := rfl

@[simp] theorem teardown_cs : (teardown s).cs = Config.freeFlag s.draws 0 := rfl

@[simp] theorem teardown_busState : (teardown s).busState = s.busState := rfl

@[simp] theorem teardown_inflight : (teardown s).inflight = none := rfl

@[simp] theorem teardown_doneSig : (teardown s).doneSig = false := rfl

@[simp] theorem teardown_errFlag : (teardown s).errFlag = Config.freeFlag s.draws 1 := rfl

@[simp] theorem teardown_status : (teardown s).status = Config.freeStatus s.draws := rfl

@[simp] theorem teardown_pecFail : (teardown s).pecFail = { val := List.replicate s.n false, known := false } := rfl

@[simp] theorem teardown_pecOut : (teardown s).pecOut = { val := 0, known := false } := rfl

@[simp] theorem teardown_pending : (teardown s).pending = s.pending := rfl

@[simp] theorem teardown_answer : (teardown s).answer = .none := rfl

@[simp] theorem teardown_tornDown : (teardown s).tornDown = true := rfl

@[simp] theorem teardown_code : (teardown s).code = Config.freeWord s.draws 0 0 := rfl

@[simp] theorem teardown_agg : (teardown s).agg = Config.freeWord s.draws 0 1 := rfl

@[simp] theorem teardown_errCount : (teardown s).errCount = Config.freeCount s.draws := rfl

@[simp] theorem teardown_todo : (teardown s).todo = [] := rfl

@[simp] theorem teardown_moved : (teardown s).moved = 0 := rfl

@[simp] theorem teardown_script : (teardown s).script = s.script := rfl

@[simp] theorem teardown_draws : (teardown s).draws = s.draws + 1 := rfl

@[simp] theorem teardown_ports : (teardown s).ports = s.ports := rfl

/-! ### placeConversion -/

@[simp] theorem placeConversion_n (mode dcp ch chg : Byte) : (placeConversion mode dcp ch chg s).n = s.n := rfl

@[simp] theorem placeConversion_par (mode dcp ch chg : Byte) : (placeConversion mode dcp ch chg s).par = s.par := rfl

@[simp] theorem placeConversion_tx (mode dcp ch chg : Byte) : (placeConversion mode dcp ch chg s).tx = s.tx := rfl

@[simp] theorem placeConversion_rx (mode dcp ch chg : Byte) : (placeConversion mode dcp ch chg s).rx = s.rx := rfl

@[simp] theorem placeConversion_rxUnspec (mode dcp ch chg : Byte) : (placeConversion mode dcp ch chg s).rxUnspec = s.rxUnspec := rfl

@[simp] theorem placeConversion_board (mode dcp ch chg : Byte) : (placeConversion mode dcp ch chg s).board = s.board := rfl

@[simp] theorem placeConversion_tmplCv (mode dcp ch chg : Byte) : (placeConversion mode dcp ch chg s).tmplCv = { b0 := modeHighByte s.par.modeHiPos s.tmplCv.b0 mode, b1 := cellLowByte s.tmplCv.b1 mode dcp ch } := rfl

@[simp] theorem placeConversion_tmplAx (mode dcp ch chg : Byte) : (placeConversion mode dcp ch chg s).tmplAx = { b0 := modeHighByte s.par.modeHiPos s.tmplAx.b0 mode, b1 := auxLowByte s.tmplAx.b1 mode chg } := rfl

@[simp] theorem placeConversion_phase (mode dcp ch chg : Byte) : (placeConversion mode dcp ch chg s).phase = s.phase := rfl

@[simp] theorem placeConversion_pwr (mode dcp ch chg : Byte) : (placeConversion mode dcp ch chg s).pwr = s.pwr := rfl

@[simp] theorem placeConversion_cs (mode dcp ch chg : Byte) : (placeConversion mode dcp ch chg s).cs = s.cs := rfl

@[simp] theorem placeConversion_busState (mode dcp ch chg : Byte) : (placeConversion mode dcp ch chg s).busState = s.busState := rfl

@[simp] theorem placeConversion_inflight (mode dcp ch chg : Byte) : (placeConversion mode dcp ch chg s).inflight = s.inflight := rfl

@[simp] theorem placeConversion_doneSig (mode dcp ch chg : Byte) : (placeConversion mode dcp ch chg s).doneSig = s.doneSig := rfl

@[simp] theorem placeConversion_errFlag (mode dcp ch chg : Byte) : (placeConversion mode dcp ch chg s).errFlag = s.errFlag := rfl

@[simp] theorem placeConversion_status (mode dcp ch chg : Byte) : (placeConversion mode dcp ch chg s).status = s.status := rfl

@[simp] theorem placeConversion_pecFail (mode dcp ch chg : Byte) : (placeConversion mode dcp ch chg s).pecFail = s.pecFail := rfl

@[simp] theorem placeConversion_pecOut (mode dcp ch chg : Byte) : (placeConversion mode dcp ch chg s).pecOut = s.pecOut := rfl

@[simp] theorem placeConversion_pending (mode dcp ch chg : Byte) : (placeConversion mode dcp ch chg s).pending = s.pending := rfl

@[simp] theorem placeConversion_answer (mode dcp ch chg : Byte) : (placeConversion mode dcp ch chg s).answer = s.answer := rfl

@[simp] theorem placeConversion_tornDown (mode dcp ch chg : Byte) : (placeConversion mode dcp ch chg s).tornDown = s.tornDown := rfl

@[simp] theorem placeConversion_code (mode dcp ch chg : Byte) : (placeConversion mode dcp ch chg s).code = s.code := rfl

@[simp] theorem placeConversion_agg (mode dcp ch chg : Byte) : (placeConversion mode dcp ch chg s).agg = s.agg := rfl

@[simp] theorem placeConversion_errCount (mode dcp ch chg : Byte) : (placeConversion mode dcp ch chg s).errCount = s.errCount := rfl

@[simp] theorem placeConversion_todo (mode dcp ch chg : Byte) : (placeConversion mode dcp ch chg s).todo = s.todo := rfl

@[simp] theorem placeConversion_moved (mode dcp ch chg : Byte) : (placeConversion mode dcp ch chg s).moved = s.moved := rfl

@[simp] theorem placeConversion_script (mode dcp ch chg : Byte) : (placeConversion mode dcp ch chg s).script = s.script := rfl

@[simp] theorem placeConversion_draws (mode dcp ch chg : Byte) : (placeConversion mode dcp ch chg s).draws = s.draws := rfl

@[simp] theorem placeConversion_ports (mode dcp ch chg : Byte) : (placeConversion mode dcp ch chg s).ports = s.ports := rfl

end

end Sys2Proof.Machine
end

