-- ==== Sys2Proof/Laws/Sequencer.lean ====
section
/-! SUPPORT. The sequencer and the environment's moves: one lemma per shape, the induction over moves packaged once,
and a transfer that is served to its end as one equation. -/

namespace Sys2Proof.Machine

/-! ### Stages -/

@[simp] theorem runTasks_nil (s : State) : runTasks [] s = { s with todo := [] } := rfl

/-- A bus stage begins and waits: the stages after it stay to be done. -/
@[simp] theorem runTasks_bus (m : Mode) (f : Frame) (rest : List Task) (s : State) :
    runTasks (.bus m f :: rest) s = beginBus f { s with todo := .bus m f :: rest } := rfl

/-- Any other stage has its effect and the next one runs. -/
theorem runTasks_stage {t : Task} (h : transferOf t = none) (rest : List Task) (s : State) :
    runTasks (t :: rest) s = runTasks rest (stage t s) := by
  simp [runTasks, h]

/-- What is left to do is part of what there was to do. -/
theorem mem_runTasks_todo {ts : List Task} {s : State} {t : Task} (h : t ∈ (runTasks ts s).todo) : t ∈ ts := by
  induction ts generalizing s with
  | nil => simp at h
  | cons u rest ih =>
    cases hu : transferOf u with
    | none => rw [runTasks_stage hu] at h; exact List.mem_cons_of_mem _ (ih h)
    | some mf => simpa [runTasks, hu] using h

/-! ### Moves, by phase -/

theorem react_idle {s : State} (h : s.phase = .idle) (e : EnvEvent) :
    react e s = if e = .sleep then chainSleep s else s := by
  unfold react; rw [h]; cases e <;> rfl

theorem react_waitIdle {s : State} {m : Mode} {f : Frame} {rest : List Task} (h : s.phase = .waitIdle)
    (ht : s.todo = .bus m f :: rest) (e : EnvEvent) : react e s = inWaitIdle e m f rest s := by
  unfold react; rw [h, ht]

theorem react_xferB {s : State} {m : Mode} {f : Frame} {rest : List Task} (h : s.phase = .xferB)
    (ht : s.todo = .bus m f :: rest) (e : EnvEvent) : react e s = inXferB e f rest s := by
  unfold react; rw [h, ht]

theorem react_waitDone {s : State} {m : Mode} {f : Frame} {rest : List Task} (h : s.phase = .waitDone)
    (ht : s.todo = .bus m f :: rest) (e : EnvEvent) : react e s = inWaitDone e f rest s := by
  unfold react; rw [h, ht]

@[simp] theorem drive_nil (s : State) : drive [] s = { s with script := [] } := rfl

theorem drive_idle {s : State} (h : s.phase = .idle) (es : List EnvEvent) :
    drive es s = { s with script := es } := by
  cases es <;> simp [drive, h]

theorem drive_cons {s : State} (h : s.phase ≠ .idle) (e : EnvEvent) (es : List EnvEvent) :
    drive (e :: es) s = drive es (react e s) := by
  simp [drive, h]

/-! ### The induction over stages and moves, once -/

/-- `P` does not depend on the model's bookkeeping, every stage that satisfies `A` keeps it, and so does every part
of a transfer. -/
structure Kept (A : Task → Prop) (P : State → Prop) : Prop where
  todo : ∀ ts s, P s → P { s with todo := ts }
  script : ∀ es s, P s → P { s with script := es }
  draws : ∀ d s, P s → P { s with draws := d }
  stage : ∀ t s, A t → transferOf t = none → P s → P (stage t s)
  bus : ∀ m f s, A (.bus m f) → P s → P (beginBus f s)
  poll : ∀ b s, P s → P { s with busState := b }
  delay : ∀ u d s, P s → P (delayFor u d s)
  sleep : ∀ s, P s → P (chainSleep s)
  start : ∀ m f s, A (.bus m f) → P s → P (startTransfer m f s)
  timeout : ∀ s, P s → P (idleTimeout s)
  move : ∀ b m f s, A (.bus m f) → P s → P (moveByte b (frameLen s.n f) (frameDir f) s)
  ret : ∀ st m f s, A (.bus m f) → P s → P (finishBlocking st (frameLen s.n f) s)
  complete : ∀ s, P s → P (completionHandler s)
  error : ∀ s, P s → P (errorHandler s)
  take : ∀ m f s, A (.bus m f) → P s → P (takeCompletion (frameLen s.n f) (frameDir f) s)

variable {A : Task → Prop} {P : State → Prop}

theorem Kept.runTasks (K : Kept A P) {ts : List Task} {s : State} (hA : ∀ t ∈ ts, A t) (h : P s) :
    P (runTasks ts s) := by
  induction ts generalizing s with
  | nil => exact K.todo _ _ h
  | cons t rest ih =>
    cases ht : transferOf t with
    | none =>
      rw [runTasks_stage ht]
      exact ih (fun u hu => hA u (List.mem_cons_of_mem _ hu)) (K.stage t s (hA t (by simp)) ht h)
    | some mf =>
      have hb : A (.bus mf.1 mf.2) := by
        cases t <;> simp only [transferOf, Option.some.injEq, reduceCtorEq] at ht
        subst ht
        exact hA _ (by simp)
      simp only [Machine.runTasks, ht]
      exact K.bus _ _ _ hb (K.todo _ _ h)

theorem todo_moves (A : Task → Prop) {s : State} (hA : ∀ t ∈ s.todo, A t) (e : EnvEvent) :
    ∀ t ∈ (react e s).todo, A t := by
  have hid : ∀ {ts : List Task} {s' : State}, (∀ t ∈ ts, A t) → ∀ t ∈ (Machine.runTasks ts s').todo, A t :=
    fun h t ht => h t (mem_runTasks_todo ht)
  unfold react
  split
  · cases e <;> simpa using hA
  · split
    · rename_i m f rest htodo
      have hrest : ∀ t ∈ rest, A t := fun t ht => hA t (by simp [htodo, ht])
      cases e with
      | poll bus x =>
        simp only [inWaitIdle]
        split
        · simpa using hA
        · split
          · exact hid hrest
          · simpa using hA
      | _ => simpa [inWaitIdle] using hA
    · exact hA
  · split
    · rename_i m f rest htodo
      have hrest : ∀ t ∈ rest, A t := fun t ht => hA t (by simp [htodo, ht])
      cases e with
      | ret st =>
        simp only [inXferB]
        split
        · exact hid hrest
        · exact hA
      | _ => simpa [inXferB] using hA
    · exact hA
  · split
    · rename_i m f rest htodo
      have hrest : ∀ t ∈ rest, A t := fun t ht => hA t (by simp [htodo, ht])
      cases e with
      | resume =>
        simp only [inWaitDone]
        split
        · exact hid hrest
        · exact hA
      | byte b => simp only [inWaitDone]; split <;> simpa using hA
      | complete => simp only [inWaitDone]; split <;> simpa using hA
      | error => simp only [inWaitDone]; split <;> simpa using hA
      | _ => simpa [inWaitDone] using hA
    · exact hA
  all_goals exact hA

theorem Kept.react (K : Kept A P) {s : State} (hA : ∀ t ∈ s.todo, A t) (h : P s) (e : EnvEvent) :
    P (react e s) := by
  unfold Machine.react
  split
  · cases e <;> first | exact h | exact K.sleep _ h
  · split
    · rename_i m f rest htodo
      have hrest : ∀ t ∈ rest, A t := fun t ht => hA t (by simp [htodo, ht])
      have hb : A (.bus m f) := hA _ (by simp [htodo])
      cases e with
      | poll bus x =>
        simp only [inWaitIdle]
        have hp := K.poll bus s h
        split
        · exact K.start _ _ _ hb hp
        · split
          · exact K.runTasks hrest (K.timeout _ hp)
          · exact K.delay _ _ _ hp
      | sleep => exact K.sleep _ h
      | _ => exact h
    · exact h
  · split
    · rename_i m f rest htodo
      have hrest : ∀ t ∈ rest, A t := fun t ht => hA t (by simp [htodo, ht])
      have hb : A (.bus m f) := hA _ (by simp [htodo])
      cases e with
      | byte b => exact K.move _ m _ _ hb h
      | ret st =>
        simp only [inXferB]
        split
        · exact K.runTasks hrest (K.ret _ m _ _ hb h)
        · exact h
      | _ => exact h
    · exact h
  · split
    · rename_i m f rest htodo
      have hrest : ∀ t ∈ rest, A t := fun t ht => hA t (by simp [htodo, ht])
      have hb : A (.bus m f) := hA _ (by simp [htodo])
      cases e with
      | byte b =>
        simp only [inWaitDone]
        split
        · exact h
        · exact K.move _ m _ _ hb h
      | complete =>
        simp only [inWaitDone]
        split
        · exact K.complete _ h
        · exact h
      | error =>
        simp only [inWaitDone]
        split
        · exact K.error _ h
        · exact h
      | resume =>
        simp only [inWaitDone]
        split
        · exact K.runTasks hrest (K.take m _ _ hb h)
        · exact h
      | _ => exact h
    · exact h
  all_goals exact h

theorem Kept.drive (K : Kept A P) {es : List EnvEvent} {s : State} (hA : ∀ t ∈ s.todo, A t) (h : P s) :
    P (drive es s) := by
  induction es generalizing s with
  | nil => exact K.script _ _ h
  | cons e rest ih =>
    simp only [Machine.drive]
    split
    · exact K.script _ _ h
    · exact ih (todo_moves A hA e) (K.react hA h e)

theorem Kept.operate (K : Kept A P) {ts : List Task} {s : State} (hA : ∀ t ∈ ts, A t) (h : P s) :
    P (operate ts s) :=
  K.drive (fun _ ht => hA _ (mem_runTasks_todo ht)) (K.runTasks hA h)

theorem Kept.environmentMove (K : Kept A P) {s : State} (hA : ∀ t ∈ s.todo, A t) (h : P s) :
    P (environmentMove s) := by
  unfold Machine.environmentMove
  split
  · exact K.react (s := { s with draws := s.draws + 1 }) hA (K.draws _ s h) _
  · rename_i e rest _
    exact K.react (s := { s with script := rest }) hA (K.script _ s h) _

/-! ### The idle wait -/

/-- The state after moves with which the wait goes on. -/
def waited (ws : List EnvEvent) (s : State) : State := ws.foldl (fun s e => react e s) s

/-- A poll that keeps a wait going shows on the ports as its yield. -/
def Yields (s : State) (ds : List PortEvent) : Prop := ∀ e ∈ ds, e = .delay .poll s.par.given.tPoll

@[simp] theorem wireBytes_append (a b : List PortEvent) : wireBytes (a ++ b) = wireBytes a ++ wireBytes b := by
  simp [wireBytes, List.filterMap_append]

@[simp] theorem wireBytes_nil : wireBytes [] = [] := rfl

@[simp] theorem wireBytes_wire (b : Byte) (heard : Bool) (es : List PortEvent) :
    wireBytes (.wire (some b) heard :: es) = b :: wireBytes es := rfl

@[simp] theorem wireBytes_phase (p : Phase) (es : List PortEvent) : wireBytes (.phase p :: es) = wireBytes es := rfl

@[simp] theorem wireBytes_cs (b : Bool) (es : List PortEvent) : wireBytes (.cs b :: es) = wireBytes es := rfl

@[simp] theorem wireBytes_delay (u : DelayUnit) (d : Nat) (es : List PortEvent) :
    wireBytes (.delay u d :: es) = wireBytes es := rfl

@[simp] theorem wireBytes_xferStart (len : Nat) (dir : Dir) (m : Mode) (es : List PortEvent) :
    wireBytes (.xferStart len dir m :: es) = wireBytes es := rfl

@[simp] theorem wireBytes_hook (r : Nat) (es : List PortEvent) : wireBytes (.hook r :: es) = wireBytes es := rfl

/-- The bytes sent are the bytes on the wire. -/
@[simp] theorem wireBytes_wires (bs : List Byte) (heard : Bool) :
    wireBytes (bs.map fun b => .wire (some b) heard) = bs := by
  induction bs <;> simp_all

theorem wireBytes_yields {s : State} {ds : List PortEvent} (h : Yields s ds) : wireBytes ds = [] := by
  induction ds with
  | nil => rfl
  | cons e ds ih =>
    rw [h e (by simp), wireBytes_delay]
    exact ih fun e' he' => h e' (by simp [he'])

/-! The same for what the lines do. -/

@[simp] theorem lineTrace_append (a b : List PortEvent) : lineTrace (a ++ b) = lineTrace a ++ lineTrace b := by
  simp [lineTrace, List.filterMap_append]

@[simp] theorem lineTrace_nil : lineTrace [] = [] := rfl

@[simp] theorem lineTrace_wire (out : Option Byte) (heard : Bool) (es : List PortEvent) :
    lineTrace (.wire out heard :: es) = .wire out true :: lineTrace es := rfl

@[simp] theorem lineTrace_cs (b : Bool) (es : List PortEvent) : lineTrace (.cs b :: es) = .cs b :: lineTrace es := rfl

@[simp] theorem lineTrace_xferStart (len : Nat) (dir : Dir) (m : Mode) (es : List PortEvent) :
    lineTrace (.xferStart len dir m :: es) = .xferStart len dir m :: lineTrace es := rfl

@[simp] theorem lineTrace_coarse (d : Nat) (es : List PortEvent) :
    lineTrace (.delay .coarse d :: es) = .delay .coarse d :: lineTrace es := rfl

@[simp] theorem lineTrace_fine (d : Nat) (es : List PortEvent) :
    lineTrace (.delay .fine d :: es) = .delay .fine d :: lineTrace es := rfl

@[simp] theorem lineTrace_settle (d : Nat) (es : List PortEvent) :
    lineTrace (.delay .settle d :: es) = .delay .settle d :: lineTrace es := rfl

@[simp] theorem lineTrace_poll (d : Nat) (es : List PortEvent) : lineTrace (.delay .poll d :: es) = lineTrace es := rfl

@[simp] theorem lineTrace_phase (p : Phase) (es : List PortEvent) : lineTrace (.phase p :: es) = lineTrace es := rfl

@[simp] theorem lineTrace_hook (r : Nat) (es : List PortEvent) : lineTrace (.hook r :: es) = lineTrace es := rfl

@[simp] theorem lineTrace_wires (bs : List Byte) (heard : Bool) :
    lineTrace (bs.map fun b => .wire (some b) heard) = bs.map fun b => .wire (some b) true := by
  induction bs <;> simp_all

theorem lineTrace_yields {s : State} {ds : List PortEvent} (h : Yields s ds) : lineTrace ds = [] := by
  induction ds with
  | nil => rfl
  | cons e ds ih =>
    rw [h e (by simp), lineTrace_poll]
    exact ih fun e' he' => h e' (by simp [he'])

/-- The trace of the lines says what went over the wire. -/
theorem wireBytes_lineTrace (ports : List PortEvent) : wireBytes (lineTrace ports) = wireBytes ports := by
  induction ports with
  | nil => rfl
  | cons e es ih =>
    cases e with
    | delay u d => cases u <;> simp [ih]
    | wire out heard => cases out <;> simpa [wireBytes] using ih
    | _ => simp [ih]

/-- A wait that goes on changes the chain's power state, the platform's input and the ports, nothing else. -/
theorem react_keepsWaiting {s : State} {m : Mode} {f : Frame} {rest : List Task} (h : s.phase = .waitIdle)
    (ht : s.todo = .bus m f :: rest) {e : EnvEvent} (he : keepsWaiting m e = true) :
    ∃ p b ds, react e s = { s with pwr := p, busState := b, ports := s.ports ++ ds } ∧ Yields s ds := by
  rw [react_waitIdle h ht]
  cases e with
  | sleep => exact ⟨.asleep, s.busState, [], by simp [inWaitIdle, chainSleep], by simp [Yields]⟩
  | poll bus x =>
    simp only [keepsWaiting, Bool.and_eq_true, Bool.not_eq_true'] at he
    refine ⟨s.pwr, bus, [.delay .poll s.par.given.tPoll], ?_, by simp [Yields]⟩
    simp [inWaitIdle, he.1, he.2, delayFor, emit]
  | _ => simp [keepsWaiting] at he

/-- The same for a sequence of such moves. -/
theorem waited_eq {s : State} {m : Mode} {f : Frame} {rest : List Task} (h : s.phase = .waitIdle)
    (ht : s.todo = .bus m f :: rest) {ws : List EnvEvent} (hw : ∀ e ∈ ws, keepsWaiting m e = true) :
    ∃ p b ds, waited ws s = { s with pwr := p, busState := b, ports := s.ports ++ ds } ∧ Yields s ds := by
  induction ws generalizing s with
  | nil => exact ⟨s.pwr, s.busState, [], by simp [waited], by simp [Yields]⟩
  | cons e ws ih =>
    obtain ⟨p, b, ds, hr, hd⟩ := react_keepsWaiting h ht (hw e (by simp))
    obtain ⟨p', b', ds', hr', hd'⟩ :=
      ih (s := react e s) (by rw [hr]; exact h) (by rw [hr]; exact ht) (fun e' he' => hw e' (by simp [he']))
    refine ⟨p', b', ds ++ ds', ?_, ?_⟩
    · show waited ws (react e s) = _
      rw [hr', hr]
      simp
    · intro e' he'
      rcases List.mem_append.1 he' with hm | hm
      · exact hd e' hm
      · have := hd' e' hm
        rw [hr] at this
        exact this

theorem drive_waited {s : State} {m : Mode} {f : Frame} {rest : List Task} (h : s.phase = .waitIdle)
    (ht : s.todo = .bus m f :: rest) {ws : List EnvEvent} (hw : ∀ e ∈ ws, keepsWaiting m e = true)
    (es : List EnvEvent) : drive (ws ++ es) s = drive es (waited ws s) := by
  induction ws generalizing s with
  | nil => rfl
  | cons e ws ih =>
    obtain ⟨p, b, ds, hr, -⟩ := react_keepsWaiting h ht (hw e (by simp))
    rw [List.cons_append, drive_cons (by simp [h])]
    exact ih (by rw [hr]; exact h) (by rw [hr]; exact ht) (fun e' he' => hw e' (by simp [he']))

/-- A poll that lets the transfer start starts it. -/
theorem drive_go {s : State} {m : Mode} {f : Frame} {rest : List Task} (h : s.phase = .waitIdle)
    (ht : s.todo = .bus m f :: rest) {bus : BusState} (hgo : mayStart m bus = true) (x : Bool)
    (es : List EnvEvent) :
    drive (.poll bus x :: es) s = drive es (startTransfer m f { s with busState := bus }) := by
  rw [drive_cons (by simp [h]), react_waitIdle h ht]
  simp [inWaitIdle, hgo]

/-- A poll of a blocking wait that finds the bus not idle and the timeout reached ends the operation. -/
theorem drive_timeout {s : State} {tmo : BitVec 32} {f : Frame} {rest : List Task} (h : s.phase = .waitIdle)
    (ht : s.todo = .bus (.b tmo) f :: rest) {bus : BusState} (hbus : bus ≠ .idle) (es : List EnvEvent) :
    drive (.poll bus true :: es) s = drive es (runTasks rest (idleTimeout { s with busState := bus })) := by
  rw [drive_cons (by simp [h]), react_waitIdle h ht]
  simp [inWaitIdle, mayStart, timesOut, hbus]

/-! ### The bytes of a transfer -/

/-- The bus engine moves a sequence of bytes. -/
def moveBytes (len : Nat) (dir : Dir) (bytes : List Byte) (s : State) : State :=
  bytes.foldl (fun s b => moveByte b len dir s) s

@[simp] theorem moveBytes_nil (len : Nat) (dir : Dir) (s : State) : moveBytes len dir [] s = s := rfl

theorem moveBytes_cons (len : Nat) (dir : Dir) (b : Byte) (bytes : List Byte) (s : State) :
    moveBytes len dir (b :: bytes) s = moveBytes len dir bytes (moveByte b len dir s) := rfl

/-! Moving bytes changes only `rx`, `moved` and `ports` (20_memory.md R45). -/

@[simp] theorem moveBytes_n (len : Nat) (dir : Dir) (bytes : List Byte) (s : State) :
    (moveBytes len dir bytes s).n = s.n := by
  induction bytes generalizing s <;> simp_all [moveBytes_cons]

@[simp] theorem moveBytes_par (len : Nat) (dir : Dir) (bytes : List Byte) (s : State) :
    (moveBytes len dir bytes s).par = s.par := by
  induction bytes generalizing s <;> simp_all [moveBytes_cons]

@[simp] theorem moveBytes_tx (len : Nat) (dir : Dir) (bytes : List Byte) (s : State) :
    (moveBytes len dir bytes s).tx = s.tx := by
  induction bytes generalizing s <;> simp_all [moveBytes_cons]

@[simp] theorem moveBytes_board (len : Nat) (dir : Dir) (bytes : List Byte) (s : State) :
    (moveBytes len dir bytes s).board = s.board := by
  induction bytes generalizing s <;> simp_all [moveBytes_cons]

@[simp] theorem moveBytes_rxUnspec (len : Nat) (dir : Dir) (bytes : List Byte) (s : State) :
    (moveBytes len dir bytes s).rxUnspec = s.rxUnspec := by
  induction bytes generalizing s <;> simp_all [moveBytes_cons]

@[simp] theorem moveBytes_tmplCv (len : Nat) (dir : Dir) (bytes : List Byte) (s : State) :
    (moveBytes len dir bytes s).tmplCv = s.tmplCv := by
  induction bytes generalizing s <;> simp_all [moveBytes_cons]

@[simp] theorem moveBytes_tmplAx (len : Nat) (dir : Dir) (bytes : List Byte) (s : State) :
    (moveBytes len dir bytes s).tmplAx = s.tmplAx := by
  induction bytes generalizing s <;> simp_all [moveBytes_cons]

@[simp] theorem moveBytes_phase (len : Nat) (dir : Dir) (bytes : List Byte) (s : State) :
    (moveBytes len dir bytes s).phase = s.phase := by
  induction bytes generalizing s <;> simp_all [moveBytes_cons]

@[simp] theorem moveBytes_pwr (len : Nat) (dir : Dir) (bytes : List Byte) (s : State) :
    (moveBytes len dir bytes s).pwr = s.pwr := by
  induction bytes generalizing s <;> simp_all [moveBytes_cons]

@[simp] theorem moveBytes_cs (len : Nat) (dir : Dir) (bytes : List Byte) (s : State) :
    (moveBytes len dir bytes s).cs = s.cs := by
  induction bytes generalizing s <;> simp_all [moveBytes_cons]

@[simp] theorem moveBytes_busState (len : Nat) (dir : Dir) (bytes : List Byte) (s : State) :
    (moveBytes len dir bytes s).busState = s.busState := by
  induction bytes generalizing s <;> simp_all [moveBytes_cons]

@[simp] theorem moveBytes_inflight (len : Nat) (dir : Dir) (bytes : List Byte) (s : State) :
    (moveBytes len dir bytes s).inflight = s.inflight := by
  induction bytes generalizing s <;> simp_all [moveBytes_cons]

@[simp] theorem moveBytes_doneSig (len : Nat) (dir : Dir) (bytes : List Byte) (s : State) :
    (moveBytes len dir bytes s).doneSig = s.doneSig := by
  induction bytes generalizing s <;> simp_all [moveBytes_cons]

@[simp] theorem moveBytes_errFlag (len : Nat) (dir : Dir) (bytes : List Byte) (s : State) :
    (moveBytes len dir bytes s).errFlag = s.errFlag := by
  induction bytes generalizing s <;> simp_all [moveBytes_cons]

@[simp] theorem moveBytes_status (len : Nat) (dir : Dir) (bytes : List Byte) (s : State) :
    (moveBytes len dir bytes s).status = s.status := by
  induction bytes generalizing s <;> simp_all [moveBytes_cons]

@[simp] theorem moveBytes_pecFail (len : Nat) (dir : Dir) (bytes : List Byte) (s : State) :
    (moveBytes len dir bytes s).pecFail = s.pecFail := by
  induction bytes generalizing s <;> simp_all [moveBytes_cons]

@[simp] theorem moveBytes_pecOut (len : Nat) (dir : Dir) (bytes : List Byte) (s : State) :
    (moveBytes len dir bytes s).pecOut = s.pecOut := by
  induction bytes generalizing s <;> simp_all [moveBytes_cons]

@[simp] theorem moveBytes_pending (len : Nat) (dir : Dir) (bytes : List Byte) (s : State) :
    (moveBytes len dir bytes s).pending = s.pending := by
  induction bytes generalizing s <;> simp_all [moveBytes_cons]

@[simp] theorem moveBytes_answer (len : Nat) (dir : Dir) (bytes : List Byte) (s : State) :
    (moveBytes len dir bytes s).answer = s.answer := by
  induction bytes generalizing s <;> simp_all [moveBytes_cons]

@[simp] theorem moveBytes_tornDown (len : Nat) (dir : Dir) (bytes : List Byte) (s : State) :
    (moveBytes len dir bytes s).tornDown = s.tornDown := by
  induction bytes generalizing s <;> simp_all [moveBytes_cons]

@[simp] theorem moveBytes_code (len : Nat) (dir : Dir) (bytes : List Byte) (s : State) :
    (moveBytes len dir bytes s).code = s.code := by
  induction bytes generalizing s <;> simp_all [moveBytes_cons]

@[simp] theorem moveBytes_agg (len : Nat) (dir : Dir) (bytes : List Byte) (s : State) :
    (moveBytes len dir bytes s).agg = s.agg := by
  induction bytes generalizing s <;> simp_all [moveBytes_cons]

@[simp] theorem moveBytes_errCount (len : Nat) (dir : Dir) (bytes : List Byte) (s : State) :
    (moveBytes len dir bytes s).errCount = s.errCount := by
  induction bytes generalizing s <;> simp_all [moveBytes_cons]

@[simp] theorem moveBytes_todo (len : Nat) (dir : Dir) (bytes : List Byte) (s : State) :
    (moveBytes len dir bytes s).todo = s.todo := by
  induction bytes generalizing s <;> simp_all [moveBytes_cons]

@[simp] theorem moveBytes_script (len : Nat) (dir : Dir) (bytes : List Byte) (s : State) :
    (moveBytes len dir bytes s).script = s.script := by
  induction bytes generalizing s <;> simp_all [moveBytes_cons]

@[simp] theorem moveBytes_draws (len : Nat) (dir : Dir) (bytes : List Byte) (s : State) :
    (moveBytes len dir bytes s).draws = s.draws := by
  induction bytes generalizing s <;> simp_all [moveBytes_cons]

/-- As many bytes move as there are, up to the frame's length. -/
theorem moveBytes_moved {len : Nat} {dir : Dir} {bytes : List Byte} {s : State}
    (h : s.moved + bytes.length ≤ len) : (moveBytes len dir bytes s).moved = s.moved + bytes.length := by
  induction bytes generalizing s with
  | nil => rfl
  | cons b bytes ih =>
    have hlt : s.moved < len := by simp at h; omega
    rw [moveBytes_cons, ih (by simp [hlt] at h ⊢; omega)]
    simp [hlt]; omega

/-- A duplex transfer stores the bytes from where it stands, in order; a write stores nothing (20_memory.md R45). -/
theorem moveBytes_rx {len : Nat} {dir : Dir} {bytes : List Byte} {s : State}
    (h : s.moved + bytes.length ≤ len) :
    (moveBytes len dir bytes s).rx = if dir = .duplex then memWriteBytes s.rx s.moved bytes else s.rx := by
  induction bytes generalizing s with
  | nil => simp [memWriteBytes]
  | cons b bytes ih =>
    have hlt : s.moved < len := by simp at h; omega
    rw [moveBytes_cons, ih (by simp [hlt] at h ⊢; omega)]
    cases dir <;> simp [hlt, memWriteBytes]

/-- The bytes of `tx` go out in order, heard by the chain or not (20_memory.md R45, 43_transport.md R168). -/
theorem moveBytes_ports {len : Nat} {dir : Dir} {bytes : List Byte} {s : State}
    (h : s.moved + bytes.length ≤ len) :
    (moveBytes len dir bytes s).ports = s.ports ++
      (List.range' s.moved bytes.length).map fun k => .wire (memRead s.tx k) (s.pwr == .idleReady) := by
  induction bytes generalizing s with
  | nil => simp
  | cons b bytes ih =>
    have hlt : s.moved < len := by simp at h; omega
    rw [moveBytes_cons, ih (by simp [hlt] at h ⊢; omega)]
    simp [hlt, List.range'_succ]

theorem drive_bytes_xferB {s : State} {m : Mode} {f : Frame} {rest : List Task} (h : s.phase = .xferB)
    (ht : s.todo = .bus m f :: rest) (bytes : List Byte) (es : List EnvEvent) :
    drive (bytes.map .byte ++ es) s = drive es (moveBytes (frameLen s.n f) (frameDir f) bytes s) := by
  induction bytes generalizing s with
  | nil => rfl
  | cons b bytes ih =>
    rw [List.map_cons, List.cons_append, drive_cons (by simp [h]), react_xferB h ht]
    simp only [inXferB]
    rw [ih (by simpa using h) (by simpa using ht)]
    simp [moveBytes_cons]

theorem drive_bytes_waitDone {s : State} {m : Mode} {f : Frame} {rest : List Task} (h : s.phase = .waitDone)
    (ht : s.todo = .bus m f :: rest) (hi : s.inflight ≠ none) (bytes : List Byte) (es : List EnvEvent) :
    drive (bytes.map .byte ++ es) s = drive es (moveBytes (frameLen s.n f) (frameDir f) bytes s) := by
  induction bytes generalizing s with
  | nil => rfl
  | cons b bytes ih =>
    rw [List.map_cons, List.cons_append, drive_cons (by simp [h]), react_waitDone h ht]
    simp only [inWaitDone, if_neg hi]
    rw [ih (by simpa using h) (by simpa using ht) (by simpa using hi)]
    simp [moveBytes_cons]

/-! ### A transfer served to its end -/

/-- The state after a transfer that started in `s` and was served with `bytes`. -/
def served (m : Mode) (f : Frame) (bytes : List Byte) (s : State) : State :=
  let moved := moveBytes (frameLen s.n f) (frameDir f) bytes (startTransfer m f s)
  match m with
  | .b _ => finishBlocking .ok (frameLen s.n f) moved
  | .a => takeCompletion (frameLen s.n f) (frameDir f) (completionHandler moved)

/-- A transfer that starts at this poll and is served: the stages after it run (43_transport.md R156, R160). -/
theorem drive_transfer {s : State} {m : Mode} {f : Frame} {rest : List Task} (h : s.phase = .waitIdle)
    (ht : s.todo = .bus m f :: rest) {bus : BusState} (hgo : mayStart m bus = true) (x : Bool)
    {bytes : List Byte} (hlen : bytes.length = frameLen s.n f) (es : List EnvEvent) :
    drive (.poll bus x :: (transferMoves m bytes ++ es)) s =
      drive es (runTasks rest (served m f bytes { s with busState := bus })) := by
  rw [drive_go h ht hgo]
  simp only [transferMoves, List.append_assoc]
  have hn : (startTransfer m f { s with busState := bus }).n = s.n := by simp
  have hmoved : (startTransfer m f { s with busState := bus }).moved = 0 := by simp
  have htodo : (startTransfer m f { s with busState := bus }).todo = .bus m f :: rest := by simpa using ht
  cases m with
  | b tmo =>
    have hph : (startTransfer (.b tmo) f { s with busState := bus }).phase = .xferB := by simp
    simp only [served]
    generalize startTransfer (.b tmo) f { s with busState := bus } = u at *
    rw [drive_bytes_xferB hph htodo, hn]
    have hm := moveBytes_moved (len := frameLen s.n f) (dir := frameDir f) (bytes := bytes) (s := u) (by omega)
    have hvn : (moveBytes (frameLen s.n f) (frameDir f) bytes u).n = s.n := by simp [hn]
    have hvp : (moveBytes (frameLen s.n f) (frameDir f) bytes u).phase = .xferB := by simp [hph]
    have hvt : (moveBytes (frameLen s.n f) (frameDir f) bytes u).todo = .bus (.b tmo) f :: rest := by simp [htodo]
    generalize moveBytes (frameLen s.n f) (frameDir f) bytes u = v at *
    rw [List.cons_append, List.nil_append, drive_cons (by simp [hvp]), react_xferB hvp hvt]
    simp [inXferB, mayReturn, hm, hmoved, hlen, hvn]
  | a =>
    have hph : (startTransfer .a f { s with busState := bus }).phase = .waitDone := by simp
    have hinf : (startTransfer .a f { s with busState := bus }).inflight ≠ none := by simp
    simp only [served]
    generalize startTransfer .a f { s with busState := bus } = u at *
    rw [drive_bytes_waitDone hph htodo hinf, hn]
    have hm := moveBytes_moved (len := frameLen s.n f) (dir := frameDir f) (bytes := bytes) (s := u) (by omega)
    have hvn : (moveBytes (frameLen s.n f) (frameDir f) bytes u).n = s.n := by simp [hn]
    have hvp : (moveBytes (frameLen s.n f) (frameDir f) bytes u).phase = .waitDone := by simp [hph]
    have hvt : (moveBytes (frameLen s.n f) (frameDir f) bytes u).todo = .bus .a f :: rest := by simp [htodo]
    have hvi : (moveBytes (frameLen s.n f) (frameDir f) bytes u).inflight ≠ none := by simpa using hinf
    generalize moveBytes (frameLen s.n f) (frameDir f) bytes u = v at *
    rw [List.cons_append, List.cons_append, List.nil_append, drive_cons (by simp [hvp]), react_waitDone hvp hvt]
    have hc : inWaitDone .complete f rest v = completionHandler v := by
      simp [inWaitDone, hvi, hm, hmoved, hlen, hvn]
    rw [hc, drive_cons (by simp [hvp]), react_waitDone (m := .a) (f := f) (rest := rest) (by simp [hvp]) (by simp [hvt])]
    simp [inWaitDone, hvn]

/-- The same after a wait that went on for a while. -/
theorem drive_served {s : State} {m : Mode} {f : Frame} {rest : List Task} (h : s.phase = .waitIdle)
    (ht : s.todo = .bus m f :: rest) {ws : List EnvEvent} (hw : ∀ e ∈ ws, keepsWaiting m e = true)
    {bus : BusState} (hgo : mayStart m bus = true) (x : Bool) {bytes : List Byte}
    (hlen : bytes.length = frameLen s.n f) (es : List EnvEvent) :
    drive (ws ++ .poll bus x :: (transferMoves m bytes ++ es)) s =
      drive es (runTasks rest (served m f bytes { waited ws s with busState := bus })) := by
  obtain ⟨p, b, ds, hwt, -⟩ := waited_eq h ht hw
  rw [drive_waited h ht hw]
  exact drive_transfer (by rw [hwt]; exact h) (by rw [hwt]; exact ht) hgo x (by rw [hwt]; exact hlen) es

end Sys2Proof.Machine
end

