-- ==== Sys2Proof/Laws/Bus.lean ====
section
/-! SUPPORT. The bus operations of the block as one shape, and what a served transfer leaves: every statement about one
of them comes down to `exec_served`, `exec_bus` and the field lemmas of `served`. -/

namespace Sys2Proof.Machine

/-- A request depends on its effect at the accepted state only. -/
theorem request_congr {ok : Bool} {s : State} {k k' : State → State}
    (h : k { s with answer := .none } = k' { s with answer := .none }) : request ok s k = request ok s k' := by
  simp only [request, h]

/-- The ten operations that make one transfer are one request: the transfer, then stage 4 (41_frame_write.md R110). -/
theorem exec_bus {s : State} {i : Instr} {m : Mode} {f : Frame} (h : busFrame s i = some (m, f)) :
    exec i s = request (i.wellFormed s.n) s (operate [.bus m f, resultTask f]) := by
  cases i <;> simp only [busFrame, Option.some.injEq, Prod.mk.injEq, reduceCtorEq] at h
  all_goals (obtain ⟨rfl, rfl⟩ := h)
  case wrcmd m code => rw [exec_wrcmd]; exact request_congr rfl
  case wrbcast m addr p6 => rw [exec_wrbcast]; exact request_congr rfl
  case wrcfg m payloads => rw [exec_wrcfg]; exact request_congr rfl
  case rdreg m addr => rw [exec_rdreg]; exact request_congr rfl
  case startcv m => rw [exec_startcv]; exact request_congr rfl
  case startax m => rw [exec_startax]; exact request_congr rfl
  case startcomb m => rw [exec_startcomb]; exact request_congr rfl
  case clrcell m => rw [exec_clrcell]; exact request_congr rfl
  case clraux m => rw [exec_clraux]; exact request_congr rfl
  case clrstat m => rw [exec_clrstat]; exact request_congr rfl

/-- The state in which a bus operation begins its idle wait. -/
def begun (m : Mode) (f : Frame) (s : State) : State :=
  beginBus f { s with answer := .none, todo := [.bus m f, resultTask f] }

/-- A ready block runs the operation from the start of its idle wait. -/
theorem exec_bus_ready {s : State} {i : Instr} {m : Mode} {f : Frame} (h : busFrame s i = some (m, f))
    (hr : s.Ready) (hw : i.wellFormed s.n = true) :
    exec i s = .next (drive s.script (begun m f s)) := by
  rw [exec_bus h, request_of_ready hr hw]
  rfl

/-- A next state of a bus operation is the one a ready block comes to. -/
theorem exec_bus_next {s t : State} {i : Instr} {m : Mode} {f : Frame} (h : busFrame s i = some (m, f))
    (ht : exec i s = .next t) :
    s.Ready ∧ i.wellFormed s.n = true ∧ t = drive s.script (begun m f s) := by
  obtain ⟨hr, hw⟩ := exec_next_ready ht
  rw [exec_bus_ready h hr hw] at ht
  exact ⟨hr, hw, by simpa using ht.symm⟩

/-! ### Frames -/

theorem length_chipBlock (d : List Byte) : (chipBlock d).length = d.length + 2 := by simp [chipBlock]

theorem length_flatten_chipBlocks {blocks : List (List Byte)} (h : ∀ d ∈ blocks, d.length = 6) :
    (blocks.map chipBlock).flatten.length = 8 * blocks.length := by
  induction blocks with
  | nil => rfl
  | cons d rest ih =>
    simp only [List.map_cons, List.flatten_cons, List.length_append, length_chipBlock, List.length_cons]
    rw [ih fun d' hd => h d' (by simp [hd]), h d (by simp)]
    omega

theorem okPayloads_iff {n : Nat} {payloads : List (List Byte)} :
    okPayloads n payloads = true ↔ payloads.length = n ∧ ∀ d ∈ payloads, d.length = 6 := by
  simp [okPayloads, okPayloadSizes, okPayload]

/-- A frame that fits the chain has the exact envelope length (30_encoding.md R65). -/
theorem length_frameBytes {n : Nat} {f : Frame} (h : frameFits n f = true) :
    (frameBytes n f).length = frameLen n f := by
  cases f with
  | cmd code => simp [frameBytes, frameLen, envelope]
  | wr code blocks =>
    obtain ⟨hl, h6⟩ := okPayloads_iff.1 h
    simp [frameBytes, frameLen, envelope, length_flatten_chipBlocks h6, hl, bufLen]; omega
  | rd code => simp [frameBytes, frameLen, envelope, bufLen]; omega

theorem frameLen_le (n : Nat) (f : Frame) : frameLen n f ≤ bufLen n := by
  cases f <;> simp [frameLen, bufLen]

theorem configBlocks_eq_reverse {n : Nat} {payloads : List (List Byte)} (h : payloads.length = n) :
    configBlocks n payloads = payloads.reverse := by
  subst h
  apply List.ext_getElem (by simp [configBlocks])
  intro j h1 h2
  simp only [configBlocks, List.length_map, List.length_range] at h1
  simp only [configBlocks, List.getElem_map, List.getElem_range, List.getElem_reverse]
  rw [List.getD_eq_getElem _ _ (by omega)]

/-- The frame of a request with operands in range fits the chain. -/
theorem busFrame_fits {s : State} {i : Instr} {m : Mode} {f : Frame} (h : busFrame s i = some (m, f))
    (hw : i.wellFormed s.n = true) : frameFits s.n f = true := by
  cases i <;> simp only [busFrame, Option.some.injEq, Prod.mk.injEq, reduceCtorEq] at h
  all_goals (obtain ⟨rfl, rfl⟩ := h)
  case wrbcast m addr p6 =>
    refine okPayloads_iff.2 ⟨by simp [broadcastBlocks], fun d hd => ?_⟩
    have : d = p6 := List.eq_of_mem_replicate hd
    simpa [this, Instr.wellFormed, Instr.inRange, Instr.perChip, okPayload] using hw
  case wrcfg m payloads =>
    simp only [Instr.wellFormed, Instr.inRange, Instr.perChip, okPayloadSizes, okPayload, Option.all_some,
      Bool.and_eq_true, List.all_eq_true, beq_iff_eq] at hw
    show okPayloads _ _ = true
    rw [configBlocks_eq_reverse hw.2]
    exact okPayloads_iff.2 ⟨by simp [hw.2], fun d hd => hw.1 d (by simpa using hd)⟩
  all_goals rfl

/-- Reading back a frame that was written, byte by byte, gives the frame (20_memory.md R45, R54). -/
theorem wires_memWriteBytes (bs : List Byte) (m : Memory) (heard : Bool) :
    (List.range' 0 bs.length).map (fun k => PortEvent.wire (memRead (memWriteBytes m 0 bs) k) heard) =
      bs.map fun b => .wire (some b) heard := by
  apply List.ext_getElem (by simp)
  intro k h1 _
  simp only [List.length_map, List.length_range'] at h1
  simp [memRead_memWriteBytes, h1]

/-! ### What a served transfer leaves -/

section served
variable (m : Mode) (f : Frame) (bytes : List Byte) (s : State)

@[simp] theorem served_n : (served m f bytes s).n = s.n := by cases m <;> simp [served]
@[simp] theorem served_par : (served m f bytes s).par = s.par := by cases m <;> simp [served]
@[simp] theorem served_tx : (served m f bytes s).tx = s.tx := by cases m <;> simp [served]
@[simp] theorem served_board : (served m f bytes s).board = s.board := by cases m <;> simp [served]
@[simp] theorem served_tmplCv : (served m f bytes s).tmplCv = s.tmplCv := by cases m <;> simp [served]
@[simp] theorem served_tmplAx : (served m f bytes s).tmplAx = s.tmplAx := by cases m <;> simp [served]
@[simp] theorem served_pwr : (served m f bytes s).pwr = s.pwr := by cases m <;> simp [served]
@[simp] theorem served_cs : (served m f bytes s).cs = csAfter m f := by
  cases m <;> cases h : frameDir f <;> simp [served, csAfter, h]
@[simp] theorem served_busState : (served m f bytes s).busState = .idle := by cases m <;> simp [served]
@[simp] theorem served_errFlag : (served m f bytes s).errFlag = false := by cases m <;> simp [served]
@[simp] theorem served_status : (served m f bytes s).status = .ok := by cases m <;> simp [served]
@[simp] theorem served_pecFail : (served m f bytes s).pecFail = s.pecFail := by cases m <;> simp [served]
@[simp] theorem served_pecOut : (served m f bytes s).pecOut = s.pecOut := by cases m <;> simp [served]
@[simp] theorem served_pending : (served m f bytes s).pending = s.pending := by cases m <;> simp [served]
@[simp] theorem served_answer : (served m f bytes s).answer = s.answer := by cases m <;> simp [served]
@[simp] theorem served_tornDown : (served m f bytes s).tornDown = s.tornDown := by cases m <;> simp [served]
@[simp] theorem served_code : (served m f bytes s).code = s.code := by cases m <;> simp [served]
@[simp] theorem served_agg : (served m f bytes s).agg = s.agg := by cases m <;> simp [served]
@[simp] theorem served_errCount : (served m f bytes s).errCount = s.errCount := by cases m <;> simp [served]
@[simp] theorem served_todo : (served m f bytes s).todo = s.todo := by cases m <;> simp [served]
@[simp] theorem served_moved : (served m f bytes s).moved = 0 := by cases m <;> simp [served]
@[simp] theorem served_script : (served m f bytes s).script = s.script := by cases m <;> simp [served]
@[simp] theorem served_draws :
    (served m f bytes s).draws = if frameDir f = .duplex then s.draws + 1 else s.draws + 2 := by
  cases m <;> simp [served]
@[simp] theorem served_rxUnspec :
    (served m f bytes s).rxUnspec = if frameDir f = .duplex then 0 else max s.rxUnspec (frameLen s.n f) := by
  cases m <;> simp [served]

/-- A read leaves the received bytes in `rx`, a write leaves its length unspecified (41_frame_write.md R115). -/
theorem served_rx (h : bytes.length ≤ frameLen s.n f) :
    (served m f bytes s).rx =
      if frameDir f = .duplex then memWriteBytes s.rx 0 bytes
      else memUnspecify (s.draws + 1) s.rx (frameLen s.n f) := by
  have hm := moveBytes_rx (len := frameLen s.n f) (dir := frameDir f) (bytes := bytes) (s := startTransfer m f s)
    (by simpa using h)
  cases m <;> simp only [served, finishBlocking_rx, takeCompletion_rx, completionHandler_rx, completionHandler_errFlag,
    moveBytes_errFlag, startTransfer_errFlag, hm] <;> by_cases hd : frameDir f = .duplex <;> simp [hd]

/-- The ports of a served transfer: chip-select, the start, the frame's bytes, the end. -/
theorem served_ports (h : bytes.length ≤ frameLen s.n f) :
    (served m f bytes s).ports = s.ports ++
      (match m with
        | .b tmo => [.cs true, .phase .xferB, .xferStart (frameLen s.n f) (frameDir f) (.b tmo)]
        | .a => [.cs true, .xferStart (frameLen s.n f) (frameDir f) .a, .phase .waitDone]) ++
      (List.range' 0 bytes.length).map (fun k => .wire (memRead s.tx k) (s.pwr == .idleReady)) ++
      (match m with
        | .b _ => [.cs false]
        | .a => .hook s.par.given.onTransferComplete :: if frameDir f = .duplex then [.cs false] else []) := by
  have hm := moveBytes_ports (len := frameLen s.n f) (dir := frameDir f) (bytes := bytes)
    (s := startTransfer m f s) (by simpa using h)
  cases m <;> simp [served, hm]

end served

/-! ### Scripts that serve -/

/-- The shortest script that serves a transfer. -/
theorem served_servedMoves {m : Mode} {len : Nat} {bytes : List Byte} (h : bytes.length = len) :
    Served m len bytes (servedMoves m bytes) :=
  ⟨[], .idle, false, by simp, by cases m <;> rfl, h, rfl⟩

/-- Transfers served one after the other, by the shortest scripts. -/
theorem servedAll_servedMoves {m : Mode} {transfers : List (Nat × List Byte)}
    (h : ∀ x ∈ transfers, x.2.length = x.1) :
    ServedAll m transfers (transfers.flatMap fun x => servedMoves m x.2) := by
  induction transfers with
  | nil => rfl
  | cons x rest ih =>
    exact ⟨_, _, rfl, served_servedMoves (h x (by simp)), ih fun y hy => h y (by simp [hy])⟩

/-! ### What was received -/

/-- With `bytes` in `rx`, the flag of a block is whether it passes the check (42_frame_read_parse.md R131). -/
theorem blockFails_of_bytes {s : State} {bytes : List Byte} (h : memReadBytes s.rx 0 bytes.length = some bytes)
    {j : Nat} (hj : blockAt j + 8 ≤ bytes.length) : blockFails s j = !blockAccepted bytes j := by
  unfold blockFails
  rw [memReadBytes_part h (by omega), memRead_part h (by omega), memRead_part h (by omega)]
  simp [blockAccepted]

/-- The flags of a read that received `bytes`. -/
theorem readFlags_of_bytes {s : State} {bytes : List Byte} (h : memReadBytes s.rx 0 bytes.length = some bytes)
    {n : Nat} (hn : bytes.length = bufLen n) : (List.range n).map (blockFails s) = readFlags n bytes := by
  refine List.map_congr_left fun j hj => blockFails_of_bytes h ?_
  simp only [List.mem_range] at hj
  simp only [blockAt, hn, bufLen]; omega

/-- The code a parse takes from `bytes` (20_memory.md R43). -/
theorem rxWord_of_bytes {s : State} {bytes : List Byte} (h : memReadBytes s.rx 0 bytes.length = some bytes)
    (hu : s.rxUnspec = 0) {i k : Nat} (hk : blockAt i + 2 * k + 2 ≤ bytes.length) :
    rxWord s i k = { val := blockCode s.par.regDataOrder bytes i k, known := true } := by
  simp only [rxWord, rxValue, hu, Nat.not_lt_zero, if_false]
  rw [memRead_part h (by omega), memRead_part h (by omega)]
  rfl

/-! ### Operations served to their end -/

/-- A served idle wait and transfer, in whatever phase of a longer sequence (43_transport.md R156, R160). -/
theorem drive_of_served {s : State} {m : Mode} {f : Frame} {rest : List Task} (h : s.phase = .waitIdle)
    (ht : s.todo = .bus m f :: rest) {bytes : List Byte} {moves : List EnvEvent}
    (hs : Served m (frameLen s.n f) bytes moves) (es : List EnvEvent) :
    ∃ p b ds, Yields s ds ∧
      drive (moves ++ es) s = drive es (runTasks rest (served m f bytes
        { s with pwr := p, busState := b, ports := s.ports ++ ds })) := by
  obtain ⟨ws, bus, x, hw, hgo, hlen, rfl⟩ := hs
  obtain ⟨p, b, ds, hwt, hd⟩ := waited_eq h ht hw
  refine ⟨p, bus, ds, hd, ?_⟩
  have := drive_served h ht hw hgo x hlen es
  simp only [List.append_assoc, List.cons_append] at this ⊢
  rw [this, hwt]

/-- A served transfer anywhere in a list of stages: the stages after it run on the state it left. Chained, this runs a
host sequence from transfer to transfer. -/
theorem drive_runTasks_bus {s : State} {m : Mode} {f : Frame} (rest : List Task) {bytes : List Byte}
    {moves : List EnvEvent} (hs : Served m (frameLen s.n f) bytes moves) (es : List EnvEvent) :
    ∃ p b ds, Yields s ds ∧
      drive (moves ++ es) (runTasks (.bus m f :: rest) s) = drive es (runTasks rest (served m f bytes
        { beginBus f { s with todo := .bus m f :: rest } with
          pwr := p, busState := b, ports := (beginBus f { s with todo := .bus m f :: rest }).ports ++ ds })) := by
  rw [runTasks_bus]
  have hn : (beginBus f { s with todo := .bus m f :: rest }).n = s.n := by simp
  have hp : (beginBus f { s with todo := .bus m f :: rest }).phase = .waitIdle := by simp
  have ht : (beginBus f { s with todo := .bus m f :: rest }).todo = .bus m f :: rest := by simp
  have hpar : (beginBus f { s with todo := .bus m f :: rest }).par = s.par := by simp
  generalize beginBus f { s with todo := .bus m f :: rest } = u at *
  obtain ⟨p, b, ds, hd, hdr⟩ := drive_of_served hp ht (hn.symm ▸ hs) es
  exact ⟨p, b, ds, by simpa [Yields, hpar] using hd, hdr⟩

/-- What the lines do in a served bus operation up to its stage 4, anywhere in a list of stages: with
`drive_runTasks_bus`, the trace of a host sequence transfer by transfer. -/
theorem lineTrace_transfer {s : State} {m : Mode} {f : Frame} (ts : List Task) (hf : frameFits s.n f = true)
    {bytes : List Byte} (hlen : bytes.length = frameLen s.n f) (p : Power) (b : BusState) {ds : List PortEvent}
    (hy : Yields s ds) :
    lineTrace (served m f bytes { beginBus f { s with todo := ts } with
      pwr := p, busState := b, ports := (beginBus f { s with todo := ts }).ports ++ ds }).ports =
      lineTrace s.ports ++ transferTrace s.n s.par.given m f := by
  have hl := length_frameBytes hf
  rw [served_ports _ _ _ _ (by simp [hlen])]
  simp only [beginBus_tx, beginBus_n, beginBus_par, beginBus_ports, hlen, ← hl, wires_memWriteBytes]
  cases m <;> cases hd : frameDir f <;> simp [lineTrace_yields hy, transferTrace, refreshTrace, csAfter, hd, hl]

/-- Stage 4 leaves the block idle. -/
theorem phase_resultTask (f : Frame) (s : State) : (stage (resultTask f) s).phase = .idle := by
  cases h : frameDir f <;> simp [resultTask, h, stage]

theorem transferOf_resultTask (f : Frame) : transferOf (resultTask f) = none := by
  cases h : frameDir f <;> simp [resultTask, h, transferOf]

/-- A bus operation of a ready block, served: stage 4 on the state the transfer left. -/
theorem exec_served {s : State} {i : Instr} {m : Mode} {f : Frame} (h : busFrame s i = some (m, f))
    (hr : s.Ready) (hw : i.wellFormed s.n = true) {bytes : List Byte} {moves left : List EnvEvent}
    (hs : Served m (frameLen s.n f) bytes moves) (hm : s.script = moves ++ left) :
    ∃ p b ds, Yields s ds ∧
      exec i s = .next { stage (resultTask f) (served m f bytes
        { begun m f s with pwr := p, busState := b, ports := (begun m f s).ports ++ ds }) with
          todo := [], script := left } := by
  rw [exec_bus_ready h hr hw, hm]
  have hn : (begun m f s).n = s.n := by simp [begun]
  have hp : (begun m f s).phase = .waitIdle := by simp [begun]
  have ht : (begun m f s).todo = .bus m f :: [resultTask f] := by simp [begun]
  have hpar : (begun m f s).par = s.par := by simp [begun]
  generalize begun m f s = u at *
  obtain ⟨p, b, ds, hd, hdr⟩ := drive_of_served hp ht (hn.symm ▸ hs) left
  refine ⟨p, b, ds, by simpa [Yields, hpar] using hd, ?_⟩
  rw [hdr, runTasks_stage (transferOf_resultTask f), runTasks_nil]
  rw [drive_idle (by simpa using phase_resultTask f _)]

end Sys2Proof.Machine
end

