-- ==== Sys2Proof/Laws/Encoding.lean ====
section
/-! SUPPORT. The small lemmas of the operand forms and of the request message. -/

namespace Sys2Proof

open Machine

/-- A 16-bit value is its two halves, high byte first (00_scope.md R8). -/
@[simp] theorem be16_hi_lo (v : U16) : be16 (hi v) (lo v) = v := by
  apply BitVec.eq_of_toNat_eq
  have := v.isLt
  simp only [be16, hi, lo, BitVec.toNat_append, BitVec.extractLsb'_toNat, Nat.shiftRight_zero]
  rw [← Nat.shiftLeft_add_eq_or_of_lt (Nat.mod_lt _ (by norm_num)), Nat.shiftLeft_eq, Nat.shiftRight_eq_div_pow]
  omega

@[simp] theorem hi_be16 (a b : Byte) : hi (be16 a b) = a := by
  apply BitVec.eq_of_toNat_eq
  have := a.isLt
  have := b.isLt
  simp only [be16, hi, BitVec.toNat_append, BitVec.extractLsb'_toNat]
  rw [← Nat.shiftLeft_add_eq_or_of_lt b.isLt, Nat.shiftLeft_eq, Nat.shiftRight_eq_div_pow]
  omega

@[simp] theorem lo_be16 (a b : Byte) : lo (be16 a b) = b := by
  apply BitVec.eq_of_toNat_eq
  have := a.isLt
  have := b.isLt
  simp only [be16, lo, BitVec.toNat_append, BitVec.extractLsb'_toNat, Nat.shiftRight_zero]
  rw [← Nat.shiftLeft_add_eq_or_of_lt b.isLt, Nat.shiftLeft_eq]
  omega

/-- A timeout is its four bytes, high byte first (log 2). -/
@[simp] theorem be32_split (v : BitVec 32) :
    be32 (v.extractLsb' 24 8) (v.extractLsb' 16 8) (v.extractLsb' 8 8) (v.extractLsb' 0 8) = v := by
  apply BitVec.eq_of_toNat_eq
  have := v.isLt
  simp only [be32, BitVec.toNat_append, BitVec.extractLsb'_toNat, Nat.shiftRight_zero]
  rw [← Nat.shiftLeft_add_eq_or_of_lt (Nat.mod_lt _ (by norm_num)),
    ← Nat.shiftLeft_add_eq_or_of_lt (Nat.mod_lt _ (by norm_num)),
    ← Nat.shiftLeft_add_eq_or_of_lt (Nat.mod_lt _ (by norm_num))]
  simp only [Nat.shiftLeft_eq, Nat.shiftRight_eq_div_pow]
  omega

/-- The three fields of a request byte (30_encoding.md R69). -/
theorem requestByte_fields (m : Bool) (o : BitVec 5) :
    (requestByte m o).extractLsb' 6 2 = 0#2 ∧ (requestByte m o).extractLsb' 0 5 = o ∧
      (requestByte m o).getLsbD 5 = m := by
  revert o; cases m <;> decide

/-- Decoding goes by the operation number and the mode bit (30_encoding.md R69). -/
theorem decode_requestByte (m : Bool) (o : BitVec 5) (ops : List Byte) :
    decode (requestByte m o :: ops) = decodeOperation o.toNat m ops := by
  obtain ⟨h1, h2, h3⟩ := requestByte_fields m o
  simp only [decode, h1, h2, h3, if_true]

/-- Payloads of six bytes are cut where they were joined. -/
theorem splitPayloads_flatten {payloads : List (List Byte)} (h : ∀ d ∈ payloads, d.length = 6) :
    splitPayloads payloads.flatten = some payloads := by
  induction payloads with
  | nil => rfl
  | cons d rest ih =>
    have hd := h d (by simp)
    match d, hd with
    | [a, b, c, e, f, g], _ => simp [splitPayloads, ih fun d hd => h d (by simp [hd])]

/-- Whatever is cut into payloads is their concatenation, six bytes each. -/
theorem splitPayloads_eq_some {bytes : List Byte} {payloads : List (List Byte)}
    (h : splitPayloads bytes = some payloads) : payloads.flatten = bytes ∧ ∀ d ∈ payloads, d.length = 6 := by
  induction bytes using splitPayloads.induct generalizing payloads with
  | case1 => simp [splitPayloads] at h; subst h; simp
  | case2 a b c d e f rest ih =>
    simp only [splitPayloads, Option.map_eq_some_iff] at h
    obtain ⟨more, hm, rfl⟩ := h
    obtain ⟨h1, h2⟩ := ih hm
    refine ⟨by simp [h1], fun x hx => ?_⟩
    simp only [List.mem_cons] at hx
    rcases hx with rfl | hx
    · rfl
    · exact h2 x hx
  | case3 bytes h1 h2 =>
    rw [splitPayloads] at h
    · simp at h
    · exact h1
    · exact h2

end Sys2Proof
end

