-- ==== Sys2Proof/Laws/PerInstr.lean ====
section
/-! SUPPORT. The family RequestByte: what every request, as syntax, says of its first byte (30_encoding.md R69). -/

namespace Sys2Proof.Laws.RequestByte

open Sys2Proof

/-- The mode bit of a request: 1 for the asynchronous form of an operation that has two (30_encoding.md R69). -/
def modeBit (i : Instr) : Bool :=
  match i with
  | .wrcmd .a _ | .wrbcast .a _ _ | .wrcfg .a _ | .rdreg .a _ => true
  | .startcv .a | .startax .a | .startcomb .a | .clrcell .a | .clraux .a | .clrstat .a => true
  | .init .a _ | .cvtest .a | .auxtest .a | .stattest .a | .adstattest .a | .acctest .a => true
  | .wrcmd (.b _) _ | .wrbcast (.b _) _ _ | .wrcfg (.b _) _ | .rdreg (.b _) _ => false
  | .startcv (.b _) | .startax (.b _) | .startcomb (.b _) => false
  | .clrcell (.b _) | .clraux (.b _) | .clrstat (.b _) => false
  | .init (.b _) _ | .cvtest (.b _) | .auxtest (.b _) | .stattest (.b _) | .adstattest (.b _) | .acctest (.b _) => false
  | .pec15 _ | .pecchk _ _ | .wake | .refresh | .parsecv _ | .parseaux _ | .parsestat _ | .parsecfg => false
  | .setconv _ _ _ _ => false

/-- The first byte of the message is `00m ooooo`, with the operation's number and its mode bit. -/
def Statement (i : Instr) : Prop := (encode i).head? = some (requestByte (modeBit i) i.opNumber)

theorem pec15 (s : List Byte) : Statement (.pec15 s) := rfl

theorem pecchk (p : U16) (s : List Byte) : Statement (.pecchk p s) := rfl

theorem wake : Statement .wake := rfl

theorem refresh : Statement .refresh := rfl

theorem wrcmd (m : Mode) (code : U16) : Statement (.wrcmd m code) := by cases m <;> rfl

theorem wrbcast (m : Mode) (addr : U16) (p6 : List Byte) : Statement (.wrbcast m addr p6) := by cases m <;> rfl

theorem wrcfg (m : Mode) (payloads : List (List Byte)) : Statement (.wrcfg m payloads) := by cases m <;> rfl

theorem rdreg (m : Mode) (addr : U16) : Statement (.rdreg m addr) := by cases m <;> rfl

theorem parsecv (g : Byte) : Statement (.parsecv g) := rfl

theorem parseaux (g : Byte) : Statement (.parseaux g) := rfl

theorem parsestat (g : Byte) : Statement (.parsestat g) := rfl

theorem parsecfg : Statement .parsecfg := rfl

theorem setconv (mode dcp ch chg : Byte) : Statement (.setconv mode dcp ch chg) := rfl

theorem startcv (m : Mode) : Statement (.startcv m) := by cases m <;> rfl

theorem startax (m : Mode) : Statement (.startax m) := by cases m <;> rfl

theorem startcomb (m : Mode) : Statement (.startcomb m) := by cases m <;> rfl

theorem clrcell (m : Mode) : Statement (.clrcell m) := by cases m <;> rfl

theorem clraux (m : Mode) : Statement (.clraux m) := by cases m <;> rfl

theorem clrstat (m : Mode) : Statement (.clrstat m) := by cases m <;> rfl

theorem init (m : Mode) (payloads : List (List Byte)) : Statement (.init m payloads) := by cases m <;> rfl

theorem cvtest (m : Mode) : Statement (.cvtest m) := by cases m <;> rfl

theorem auxtest (m : Mode) : Statement (.auxtest m) := by cases m <;> rfl

theorem stattest (m : Mode) : Statement (.stattest m) := by cases m <;> rfl

theorem adstattest (m : Mode) : Statement (.adstattest m) := by cases m <;> rfl

theorem acctest (m : Mode) : Statement (.acctest m) := by cases m <;> rfl

end Sys2Proof.Laws.RequestByte
end

