-- ==== Sys2Proof/Tests/Slice0.lean ====
section
/-! SUPPORT. The model's own tests: worked examples and vectors of spec/95_test_vectors.md and of the rules, the
well-formedness smoke tests, and a witness for the hypotheses of every statement that has some. -/

namespace Sys2Proof.Tests

open Machine

set_option Elab.async false

/-! ### A small session (values: 93_implementation_defined.md G3, G9, G10, G13, as examples) -/

def fault (x : Fin 65535) : FaultCode := { pred := x }

/-- Example arguments of a session. -/
def given : Given :=
  { cmdWrcfg := 0x0001, cmdCvBase := 0x0260, cmdAxBase := 0x0460, cmdCombined := 0x046F
    cmdClrcell := 0x0711, cmdClraux := 0x0712, cmdClrstat := 0x0713
    tWake := 10, tRefreshMore := 0, tPoll := 1, csActiveHigh := false, onTransferComplete := 1, onError := 2
    cmdCvst := { s1 := 0x0227, s2 := 0x0247 }, cmdAxst := { s1 := 0x0427, s2 := 0x0447 }
    cmdStatst := { s1 := 0x042F, s2 := 0x044F }, pattern := { s1 := 0x9555, s2 := 0x6AAA }, sel := .one
    cmdRdcv := #v[0x0004, 0x0006, 0x0008, 0x000A], cmdRdaux := #v[0x000C, 0x000E], cmdRdstat := #v[0x0010, 0x0012]
    cmdRdcfg := 0x0002, cmdAdstat := 0x0468, cmdDiagn := 0x0715, cmdRef2 := 0x0466
    tRefup := 1, tSt := 1, tDiag := 1, tAcc := 1
    bandVa := { lo := 0x1000, hi := 0x2000 }, bandVd := { lo := 0x1000, hi := 0x2000 }
    bandVref2 := { lo := 0x1000, hi := 0x2000 }
    fcCv := #v[fault 0, fault 1, fault 2, fault 3], fcAux := #v[fault 4, fault 5], fcStat := #v[fault 6, fault 7]
    idxVa := 2, idxVd := 0, idxFlags := 2, maskThsd := 0x0001, maskMuxfail := 0x0002 }

def par : Params := { given := given, regDataOrder := .be, modeHiPos := 7, initAgg := .lastNonzero, idxRef2 := 2 }

/-- A fresh session of `n` chips whose environment will move as `script` says. -/
def ready (n : Nat) (script : List EnvEvent) : State := { State.fresh n par with script := script }

/-- A session of two chips that has received the bytes of 42_frame_read_parse.md R130. -/
def received : State :=
  { ready 2 [] with
    rx := memWriteBytes [] 0
      [0xFF, 0xFF, 0xFF, 0xFF, 0x12, 0x34, 0x56, 0x78, 0x9A, 0xBC, 0xBC, 0x24,
        0x00, 0x01, 0x80, 0x00, 0xFF, 0xFF, 0xCA, 0x32] }

/-- What a next state says; nothing where there is none. -/
def after {α : Type} (o : Host.Outcome State Fault Refusal) (f : State → α) : Option α :=
  match o with
  | .next t => some (f t)
  | .fault _ => none
  | .refused _ => none

theorem exists_of_after {α : Type} {o : Host.Outcome State Fault Refusal} {f : State → α} {a : α}
    (h : after o f = some a) : ∃ t, o = .next t ∧ f t = a := by
  cases o <;> simp_all [after]

def refusedWith (o : Host.Outcome State Fault Refusal) (r : Refusal) : Bool :=
  match o with
  | .refused r' => r' == r
  | .next _ => false
  | .fault _ => false

def fourBytes : List Byte := [0, 0, 0, 0]

/-! ### Well-formedness: an ill-formed request for each check (30_encoding.md R71) -/

theorem test_illformed_parsecv : Instr.wellFormed 1 (.parsecv 4) = false := by decide
theorem test_illformed_parseaux : Instr.wellFormed 1 (.parseaux 2) = false := by decide
theorem test_illformed_parsestat : Instr.wellFormed 1 (.parsestat 2) = false := by decide
theorem test_illformed_setconv :
    Instr.wellFormed 1 (.setconv 4 0 0 0) = false ∧ Instr.wellFormed 1 (.setconv 0 2 0 0) = false ∧
      Instr.wellFormed 1 (.setconv 0 0 8 0) = false ∧ Instr.wellFormed 1 (.setconv 0 0 0 8) = false := by decide
theorem test_illformed_wrbcast :
    Instr.wellFormed 1 (.wrbcast .a 1 [1, 2, 3, 4, 5]) = false ∧
      Instr.wellFormed 1 (.wrbcast .a 1 [1, 2, 3, 4, 5, 6, 7]) = false := by decide
theorem test_illformed_wrcfg :
    Instr.wellFormed 2 (.wrcfg .a [[1, 2, 3, 4, 5, 6]]) = false ∧
      Instr.wellFormed 1 (.wrcfg .a [[1, 2, 3, 4, 5]]) = false := by decide
theorem test_illformed_init : Instr.wellFormed 1 (.init .a []) = false := by decide
theorem test_wellformed_limits :
    Instr.wellFormed 1 (.parsecv 3) = true ∧ Instr.wellFormed 1 (.parseaux 1) = true ∧
      Instr.wellFormed 1 (.parsestat 1) = true ∧ Instr.wellFormed 1 (.setconv 3 1 7 7) = true ∧
      Instr.wellFormed 2 (.wrcfg .a [[1, 2, 3, 4, 5, 6], [1, 2, 3, 4, 5, 6]]) = true := by decide

/-! ### Decoding: a message for every operation, the request byte from 30_encoding.md R69 and R70 -/

theorem test_decode_pec15 : decode [0b00000001, 0x00, 0x01] = .ok (.pec15 [0x00, 0x01]) := by decide
theorem test_decode_pecchk : decode [0b00000010, 0x3D, 0x6E, 0x00, 0x01] = .ok (.pecchk 0x3D6E [0x00, 0x01]) := by
  decide
theorem test_decode_wake : decode [0b00000011] = .ok .wake := by decide
theorem test_decode_refresh : decode [0b00000100] = .ok .refresh := by decide
theorem test_decode_wrcmd :
    decode [0b00000101, 0, 0, 1, 2, 0x07, 0x11] = .ok (.wrcmd (.b 258) 0x0711) ∧
      decode [0b00100101, 0x07, 0x11] = .ok (.wrcmd .a 0x0711) := by decide
theorem test_decode_wrbcast :
    decode [0b00100110, 0x00, 0x01, 1, 2, 3, 4, 5, 6] = .ok (.wrbcast .a 1 [1, 2, 3, 4, 5, 6]) := by decide
theorem test_decode_wrcfg :
    decode [0b00100111, 1, 2, 3, 4, 5, 6, 7, 8, 9, 10, 11, 12] =
      .ok (.wrcfg .a [[1, 2, 3, 4, 5, 6], [7, 8, 9, 10, 11, 12]]) := by decide
theorem test_decode_rdreg : decode [0b00001000, 0, 0, 0, 10, 0x00, 0x02] = .ok (.rdreg (.b 10) 2) := by decide
theorem test_decode_parsecv : decode [0b00001001, 3] = .ok (.parsecv 3) := by decide
theorem test_decode_parseaux : decode [0b00001010, 1] = .ok (.parseaux 1) := by decide
theorem test_decode_parsestat : decode [0b00001011, 0] = .ok (.parsestat 0) := by decide
theorem test_decode_parsecfg : decode [0b00001100] = .ok .parsecfg := by decide
theorem test_decode_setconv : decode [0b00001101, 3, 1, 5, 6] = .ok (.setconv 3 1 5 6) := by decide
theorem test_decode_startcv : decode [0b00101110] = .ok (.startcv .a) := by decide
theorem test_decode_startax : decode [0b00001111, 0, 0, 0, 9] = .ok (.startax (.b 9)) := by decide
theorem test_decode_startcomb : decode [0b00110000] = .ok (.startcomb .a) := by decide
theorem test_decode_clrcell : decode [0b00110001] = .ok (.clrcell .a) := by decide
theorem test_decode_clraux : decode [0b00110010] = .ok (.clraux .a) := by decide
theorem test_decode_clrstat :
    decode [0b00010011, 0, 0, 0, 9] = .ok (.clrstat (.b 9)) ∧ decode [0b00110011] = .ok (.clrstat .a) := by decide
theorem test_decode_init : decode [0b00111000, 1, 2, 3, 4, 5, 6] = .ok (.init .a [[1, 2, 3, 4, 5, 6]]) := by decide
theorem test_decode_cvtest : decode [0b00111001] = .ok (.cvtest .a) := by decide
theorem test_decode_auxtest : decode [0b00111010] = .ok (.auxtest .a) := by decide
theorem test_decode_stattest : decode [0b00111011] = .ok (.stattest .a) := by decide
theorem test_decode_adstattest : decode [0b00111100] = .ok (.adstattest .a) := by decide
theorem test_decode_acctest : decode [0b00011101, 0, 0, 0, 1] = .ok (.acctest (.b 1)) := by decide

/-- The refused request bytes of 95_test_vectors.md section 2.7. -/
theorem test_decode_refused_bytes :
    ([0x00, 0x14, 0x17, 0x1E, 0x1F, 0x34] : List Byte).all
        (fun r => decide (decode [r] = .error .noSuchOperation)) = true ∧
      ([0x45, 0x85, 0xC5] : List Byte).all (fun r => decide (decode [r] = .error .reservedBits)) = true ∧
      ([0x21, 0x2D] : List Byte).all (fun r => decide (decode [r] = .error .modeNotAllowed)) = true := by decide
theorem test_decode_refused_operands :
    decode [0x09, 4] = .error .operandRange ∧ decode [0x0A, 2] = .error .operandRange ∧
      decode [0x0B, 2] = .error .operandRange ∧ decode [0x0D, 4, 0, 0, 0] = .error .operandRange ∧
      decode [0x26, 0, 1, 1, 2, 3] = .error .operandLength ∧ decode [0x27, 1, 2, 3] = .error .operandLength ∧
      decode [0x05, 0, 0] = .error .operandLength ∧ decode [] = .error .emptyRequest := by decide

/-! ### The checksum engine (95_test_vectors.md section 2.1) -/

theorem test_pecTable_0 :
    (List.range 32).map (fun k => pecTable (BitVec.ofNat 8 (0 + k))) = [
      0x0000, 0xC599, 0xCEAB, 0x0B32, 0xD8CF, 0x1D56, 0x1664, 0xD3FD,
      0xF407, 0x319E, 0x3AAC, 0xFF35, 0x2CC8, 0xE951, 0xE263, 0x27FA,
      0xAD97, 0x680E, 0x633C, 0xA6A5, 0x7558, 0xB0C1, 0xBBF3, 0x7E6A,
      0x5990, 0x9C09, 0x973B, 0x52A2, 0x815F, 0x44C6, 0x4FF4, 0x8A6D] := by decide +kernel

theorem test_pecTable_1 :
    (List.range 32).map (fun k => pecTable (BitVec.ofNat 8 (32 + k))) = [
      0x5B2E, 0x9EB7, 0x9585, 0x501C, 0x83E1, 0x4678, 0x4D4A, 0x88D3,
      0xAF29, 0x6AB0, 0x6182, 0xA41B, 0x77E6, 0xB27F, 0xB94D, 0x7CD4,
      0xF6B9, 0x3320, 0x3812, 0xFD8B, 0x2E76, 0xEBEF, 0xE0DD, 0x2544,
      0x02BE, 0xC727, 0xCC15, 0x098C, 0xDA71, 0x1FE8, 0x14DA, 0xD143] := by decide +kernel

theorem test_pecTable_2 :
    (List.range 32).map (fun k => pecTable (BitVec.ofNat 8 (64 + k))) = [
      0xF3C5, 0x365C, 0x3D6E, 0xF8F7, 0x2B0A, 0xEE93, 0xE5A1, 0x2038,
      0x07C2, 0xC25B, 0xC969, 0x0CF0, 0xDF0D, 0x1A94, 0x11A6, 0xD43F,
      0x5E52, 0x9BCB, 0x90F9, 0x5560, 0x869D, 0x4304, 0x4836, 0x8DAF,
      0xAA55, 0x6FCC, 0x64FE, 0xA167, 0x729A, 0xB703, 0xBC31, 0x79A8] := by decide +kernel

theorem test_pecTable_3 :
    (List.range 32).map (fun k => pecTable (BitVec.ofNat 8 (96 + k))) = [
      0xA8EB, 0x6D72, 0x6640, 0xA3D9, 0x7024, 0xB5BD, 0xBE8F, 0x7B16,
      0x5CEC, 0x9975, 0x9247, 0x57DE, 0x8423, 0x41BA, 0x4A88, 0x8F11,
      0x057C, 0xC0E5, 0xCBD7, 0x0E4E, 0xDDB3, 0x182A, 0x1318, 0xD681,
      0xF17B, 0x34E2, 0x3FD0, 0xFA49, 0x29B4, 0xEC2D, 0xE71F, 0x2286] := by decide +kernel

theorem test_pecTable_4 :
    (List.range 32).map (fun k => pecTable (BitVec.ofNat 8 (128 + k))) = [
      0xA213, 0x678A, 0x6CB8, 0xA921, 0x7ADC, 0xBF45, 0xB477, 0x71EE,
      0x5614, 0x938D, 0x98BF, 0x5D26, 0x8EDB, 0x4B42, 0x4070, 0x85E9,
      0x0F84, 0xCA1D, 0xC12F, 0x04B6, 0xD74B, 0x12D2, 0x19E0, 0xDC79,
      0xFB83, 0x3E1A, 0x3528, 0xF0B1, 0x234C, 0xE6D5, 0xEDE7, 0x287E] := by decide +kernel

theorem test_pecTable_5 :
    (List.range 32).map (fun k => pecTable (BitVec.ofNat 8 (160 + k))) = [
      0xF93D, 0x3CA4, 0x3796, 0xF20F, 0x21F2, 0xE46B, 0xEF59, 0x2AC0,
      0x0D3A, 0xC8A3, 0xC391, 0x0608, 0xD5F5, 0x106C, 0x1B5E, 0xDEC7,
      0x54AA, 0x9133, 0x9A01, 0x5F98, 0x8C65, 0x49FC, 0x42CE, 0x8757,
      0xA0AD, 0x6534, 0x6E06, 0xAB9F, 0x7862, 0xBDFB, 0xB6C9, 0x7350] := by decide +kernel

theorem test_pecTable_6 :
    (List.range 32).map (fun k => pecTable (BitVec.ofNat 8 (192 + k))) = [
      0x51D6, 0x944F, 0x9F7D, 0x5AE4, 0x8919, 0x4C80, 0x47B2, 0x822B,
      0xA5D1, 0x6048, 0x6B7A, 0xAEE3, 0x7D1E, 0xB887, 0xB3B5, 0x762C,
      0xFC41, 0x39D8, 0x32EA, 0xF773, 0x248E, 0xE117, 0xEA25, 0x2FBC,
      0x0846, 0xCDDF, 0xC6ED, 0x0374, 0xD089, 0x1510, 0x1E22, 0xDBBB] := by decide +kernel

theorem test_pecTable_7 :
    (List.range 32).map (fun k => pecTable (BitVec.ofNat 8 (224 + k))) = [
      0x0AF8, 0xCF61, 0xC453, 0x01CA, 0xD237, 0x17AE, 0x1C9C, 0xD905,
      0xFEFF, 0x3B66, 0x3054, 0xF5CD, 0x2630, 0xE3A9, 0xE89B, 0x2D02,
      0xA76F, 0x62F6, 0x69C4, 0xAC5D, 0x7FA0, 0xBA39, 0xB10B, 0x7492,
      0x5368, 0x96F1, 0x9DC3, 0x585A, 0x8BA7, 0x4E3E, 0x450C, 0x8095] := by decide +kernel

theorem test_pec15_vectors :
    pec15 [] = 0x0020 ∧
      pec15 [0x00] = 0x2000 ∧
      pec15 [0x01] = 0xAB32 ∧
      pec15 [0x80] = 0x6426 ∧
      pec15 [0xFF] = 0x212A ∧
      pec15 [0x00, 0x00] = 0xB65C ∧
      pec15 [0x00, 0x01] = 0x3D6E ∧
      pec15 [0x00, 0x02] = 0x2B0A ∧
      pec15 [0x00, 0x03] = 0xA038 ∧
      pec15 [0xFF, 0xFF] = 0x1644 ∧
      pec15 [0x00, 0x00, 0x00, 0x00, 0x00, 0x00] = 0xC212 ∧
      pec15 [0xFF, 0xFF, 0xFF, 0xFF, 0xFF, 0xFF] = 0x664C ∧
      pec15 [0x01, 0x02, 0x03, 0x04, 0x05, 0x06] = 0x22EE ∧
      pec15 [0x55, 0x55, 0x55, 0x55, 0x55, 0x55] = 0xA1D8 ∧
      pec15 [0xAA, 0xAA, 0xAA, 0xAA, 0xAA, 0xAA] = 0x0586 ∧
      pec15 [0x95, 0x55, 0x95, 0x55, 0x95, 0x55] = 0x57C6 ∧
      pec15 [0x6A, 0xAA, 0x6A, 0xAA, 0x6A, 0xAA] = 0xF398 ∧
      pec15 [0x12, 0x34, 0x56, 0x78, 0x9A, 0xBC] = 0xBC24 ∧
      pec15 [0x00, 0x01, 0x80, 0x00, 0xFF, 0xFF] = 0xCA32 ∧
      pec15 [0xFE, 0x00, 0x00, 0x00, 0x00, 0x00] = 0x3732 ∧
      pec15 [0xFC, 0x00, 0x00, 0x00, 0x00, 0x00] = 0x4F82 ∧
      pec15 [0xF8, 0x00, 0x00, 0x00, 0x00, 0x00] = 0xBEE2 ∧
      pec15 [0x00, 0x01, 0x3D, 0x6E] = 0x0000 ∧
      pec15 [0x01, 0x02, 0x03, 0x04, 0x05, 0x06, 0x22, 0xEE] = 0x0000 := by decide +kernel

theorem test_pecSerial_vectors : pecSerial [0x00, 0x01] = 0x3D6E ∧ pecSerial [0x00, 0x02] = 0x2B0A ∧ pecSerial [] = 0x0020 := by
  decide +kernel

/-- 40_pec_engine.md R101. -/
theorem test_pec15 :
    after (exec (.pec15 [0x00, 0x01]) (ready 1 [])) (fun t => (t.answer, t.pecOut.val)) =
      some (.pecOut 0x3D6E, 0x3D6E) := by decide +kernel
/-- 40_pec_engine.md R99. -/
theorem test_pecchk :
    after (exec (.pecchk 0x3D6E [0x00, 0x01]) (ready 1 [])) (·.answer) = some (.matched true) ∧
      after (exec (.pecchk 0x3D6F [0x00, 0x01]) (ready 1 [])) (·.answer) = some (.matched false) := by decide +kernel

/-! ### Power and writes (95_test_vectors.md sections 2.2, 2.3, 2.5) -/

theorem test_wake :
    after (exec .wake (ready 1 [])) (fun t => (t.cs, t.pwr, t.phase)) = some (false, .idleReady, .idle) := by
  decide +kernel
theorem test_refresh_releases_cs :
    after (exec .refresh { ready 1 [] with cs := true }) (fun t => (t.cs, t.pwr)) = some (false, .idleReady) := by
  decide +kernel
/-- T_WAKE of 300 microseconds with T_REFRESH of 5 milliseconds, and the shortest T_REFRESH that exceeds 10. -/
theorem test_refresh_delay :
    refreshDelay { given with tWake := 300, tRefreshMore := 4 } = 5 ∧ refreshDelay given = 1 := by decide

theorem test_wrcmd_blocking :
    after (exec (.wrcmd (.b 10) 0x0711) (ready 1 (servedMoves (.b 10) fourBytes)))
      (fun t => (wireBytes t.ports, t.status, t.cs)) = some ([0x07, 0x11, 0xC9, 0xC0], .ok, false) := by
  decide +kernel
theorem test_wrcmd_async :
    after (exec (.wrcmd .a 0x0001) (ready 1 (servedMoves .a fourBytes)))
      (fun t => (wireBytes t.ports, t.status, t.cs)) = some ([0x00, 0x01, 0x3D, 0x6E], .ok, true) := by
  decide +kernel
theorem test_wrbcast :
    after (exec (.wrbcast .a 1 [1, 2, 3, 4, 5, 6]) (ready 2 (servedMoves .a (List.replicate 20 0))))
      (fun t => wireBytes t.ports) =
        some [0x00, 0x01, 0x3D, 0x6E, 1, 2, 3, 4, 5, 6, 0x22, 0xEE, 1, 2, 3, 4, 5, 6, 0x22, 0xEE] := by
  decide +kernel
/-- Block 0 carries the payload of the last chip. -/
theorem test_wrcfg :
    after (exec (.wrcfg .a [[0xFC, 0, 0, 0, 0, 0], [0xF8, 0, 0, 0, 0, 0]])
        (ready 2 (servedMoves .a (List.replicate 20 0)))) (fun t => wireBytes t.ports) =
      some [0x00, 0x01, 0x3D, 0x6E, 0xF8, 0, 0, 0, 0, 0, 0xBE, 0xE2, 0xFC, 0, 0, 0, 0, 0, 0x4F, 0x82] := by
  decide +kernel
/-- The three-chip frame of the source's property (V8). -/
theorem test_wrcfg_frame :
    frameBytes 3 (.wr 1 (configBlocks 3 [[0xA0, 0xA1, 0xA2, 0xA3, 0xA4, 0xA5],
        [0xB0, 0xB1, 0xB2, 0xB3, 0xB4, 0xB5], [0xC0, 0xC1, 0xC2, 0xC3, 0xC4, 0xC5]])) =
      [0x00, 0x01, 0x3D, 0x6E, 0xC0, 0xC1, 0xC2, 0xC3, 0xC4, 0xC5, 0x0E, 0xAE,
        0xB0, 0xB1, 0xB2, 0xB3, 0xB4, 0xB5, 0x6B, 0x9E, 0xA0, 0xA1, 0xA2, 0xA3, 0xA4, 0xA5, 0x24, 0x28] := by
  decide +kernel
theorem test_startcv :
    after (exec (.startcv .a) (ready 1 (servedMoves .a fourBytes))) (fun t => wireBytes t.ports) =
      some [0x02, 0x60, 0x7C, 0x20] := by decide +kernel
theorem test_startax :
    after (exec (.startax .a) (ready 1 (servedMoves .a fourBytes))) (fun t => wireBytes t.ports) =
      some [0x04, 0x60, 0x5B, 0xEC] := by decide +kernel
theorem test_startcomb :
    after (exec (.startcomb .a) (ready 1 (servedMoves .a fourBytes))) (fun t => wireBytes t.ports) =
      some [0x04, 0x6F, 0x14, 0x18] := by decide +kernel
theorem test_clrcell :
    after (exec (.clrcell .a) (ready 1 (servedMoves .a fourBytes))) (fun t => wireBytes t.ports) =
      some [0x07, 0x11, 0xC9, 0xC0] := by decide +kernel
theorem test_clraux :
    after (exec (.clraux .a) (ready 1 (servedMoves .a fourBytes))) (fun t => wireBytes t.ports) =
      some [0x07, 0x12, 0xDF, 0xA4] := by decide +kernel
theorem test_clrstat :
    after (exec (.clrstat .a) (ready 1 (servedMoves .a fourBytes))) (fun t => wireBytes t.ports) =
      some [0x07, 0x13, 0x54, 0x96] := by decide +kernel

/-! ### Reads and parses (95_test_vectors.md section 2.4) -/

theorem test_rdreg :
    after (exec (.rdreg (.b 10) 2) (ready 2 (servedMoves (.b 10)
      [0xFF, 0xFF, 0xFF, 0xFF, 0x12, 0x34, 0x56, 0x78, 0x9A, 0xBC, 0xBC, 0x24,
        0x00, 0x01, 0x80, 0x00, 0xFF, 0xFF, 0xCA, 0x33]))) (fun t => (t.answer, t.cs)) =
      some (.readResult .ok [false, true], false) := by decide +kernel
theorem test_parsecv :
    after (exec (.parsecv 1) received)
      (fun t => t.board.map fun b => (List.range 6).map fun j => (elemVal b.cellVoltage j)) =
      some [[0, 0, 0, 0x1234, 0x5678, 0x9ABC], [0, 0, 0, 0x0001, 0x8000, 0xFFFF]] := by decide +kernel
theorem test_parseaux :
    after (exec (.parseaux 1) received) (fun t => t.board.map fun b => elemVal b.auxVoltage 5) =
      some [0x9ABC, 0xFFFF] := by decide +kernel
theorem test_parsestat :
    after (exec (.parsestat 0) received) (fun t => t.board.map fun b => elemVal b.status 1) =
      some [0x5678, 0x8000] := by decide +kernel
theorem test_parsecfg :
    after (exec .parsecfg received) (fun t => t.board.map fun b => (b.config[0].val, b.config[5].val)) =
      some [(0x12, 0xBC), (0x00, 0xFF)] := by decide +kernel

/-- A write leaves the bytes of its frame with some value, and a parse takes none of them (41_frame_write.md R115,
42_frame_read_parse.md R137 (e)): the mirror of the first chip is written without a value by PARSECFG, the accessor of
`rx` answers. -/
theorem test_rx_after_write :
    after (exec (.wrbcast .a 1 [1, 2, 3, 4, 5, 6]) { received with script := servedMoves .a (List.replicate 20 0) })
      (fun t => ((memRead t.rx 4).isSome, rxValue t 4,
        after (step { t with pending := [.read (.rx 4)] }) fun _ => true,
        after (exec .parsecfg t) fun u => u.board.map fun b => b.config[0].known)) =
      some (true, none, some true, some [false, false]) := by decide +kernel

/-! ### SETCONV (95_test_vectors.md section 2.6) -/

theorem test_setconv :
    after (exec (.setconv 3 1 5 5) (ready 1 [])) (fun t => (t.tmplCv, t.tmplAx)) =
      some ({ b0 := 0x82, b1 := 0xF5 }, { b0 := 0x84, b1 := 0xE5 }) := by decide +kernel
theorem test_setconv_mode_position :
    after (exec (.setconv 2 0 0 0) { ready 1 [] with par := { par with modeHiPos := 0 } }) (·.tmplCv) =
      some { b0 := 0x03, b1 := 0x60 } := by decide +kernel

/-! ### Host sequences (95_test_vectors.md V5, V7, V10 and section 2.8) -/

/-- What a chain of `n` chips sends when every block is the pattern with its checksum. -/
def patternRead (n : Nat) : List Byte :=
  fourBytes ++ (List.replicate n [0x95, 0x55, 0x95, 0x55, 0x95, 0x55, 0x57, 0xC6]).flatten

/-- A session that has read before: every byte of `rx` holds a value, so that whether a write's free values are taken
for it or not leaves the same offsets with one. -/
def readyRead (n : Nat) (script : List EnvEvent) : State :=
  { ready n script with rx := memWriteBytes [] 0 (List.replicate (bufLen n) 0) }

/-- A received group with its own checksum, in every block but the last. -/
def blocks (ds : List (List Byte)) : List Byte := fourBytes ++ (ds.map chipBlock).flatten

theorem test_cvtest :
    after (exec (.cvtest .a) (readyRead 1 (servedMoves .a fourBytes ++ (List.replicate 4 (servedMoves .a (patternRead 1))).flatten)))
      (fun t => (t.answer, t.errCount)) = some (.code 0, 0) := by decide +kernel
theorem test_auxtest :
    after (exec (.auxtest .a) (readyRead 2 (servedMoves .a fourBytes ++ servedMoves .a (patternRead 2) ++
      servedMoves .a (blocks [[0x95, 0x55, 0x95, 0x55, 0x95, 0x55], [0x95, 0x55, 0x95, 0x54, 0x95, 0x55]]))))
      (·.answer) = some (.code 6) := by decide +kernel
theorem test_stattest :
    after (exec (.stattest .a) (readyRead 1 (servedMoves .a fourBytes ++ servedMoves .a (patternRead 1) ++
      servedMoves .a (fourBytes ++ [0x95, 0x55, 0x95, 0x55, 0x95, 0x55, 0x57, 0xC7]))))
      (fun t => (t.answer, t.errCount)) = some (.code 0, -1) := by decide +kernel
/-- V7: only chip 2 has the thermal-shutdown bit set. -/
theorem test_adstattest :
    after (exec (.adstattest .a) (readyRead 3 (servedMoves .a fourBytes ++ servedMoves .a fourBytes ++
      servedMoves .a (blocks (List.replicate 3 [0, 0, 0, 0, 0x15, 0])) ++
      servedMoves .a (blocks [[0x15, 0, 0, 0, 0, 0], [0x15, 0, 0, 0, 0, 0], [0x15, 0, 0, 0, 0, 1]]))))
      (·.answer) = some (.code 21) := by decide +kernel
/-- V10: the accuracy test reports `chipIndex * 10 + 1`. -/
theorem test_acctest :
    after (exec (.acctest .a) (readyRead 2 (servedMoves .a fourBytes ++
      servedMoves .a (blocks [[0, 0, 0, 0, 0x15, 0], [0, 0, 0, 0, 0x25, 0]])))) (·.answer) = some (.code 11) := by
  decide +kernel
theorem test_init :
    after (exec (.init .a [[1, 2, 3, 4, 5, 6]]) (readyRead 1 (servedMoves .a (List.replicate 12 0) ++
      servedMoves .a fourBytes ++ (List.replicate 4 (servedMoves .a (patternRead 1))).flatten ++
      servedMoves .a fourBytes ++ (List.replicate 2 (servedMoves .a (patternRead 1))).flatten ++
      servedMoves .a fourBytes ++ (List.replicate 2 (servedMoves .a (patternRead 1))).flatten ++
      servedMoves .a fourBytes ++ servedMoves .a fourBytes ++ servedMoves .a (blocks [[0, 0, 0, 0, 0x15, 0]]) ++
      servedMoves .a (blocks [[0x15, 0, 0, 0, 0, 2]]) ++
      servedMoves .a fourBytes ++ servedMoves .a (blocks [[0, 0, 0, 0, 0x15, 0]]))))
      (·.answer) = some (.code 4) := by decide +kernel
/-- `chipIndex * 10 + faultCategory`, as 95_test_vectors.md V10 lists it. -/
theorem test_chipFault :
    chipFault 0 2 = 2 ∧ chipFault 3 4 = 34 ∧ chipFault 11 3 = 113 ∧ chipFault 5 1 = 51 := by decide
/-- The aggregation table of section 2.8. -/
theorem test_aggregate :
    [5, 0, 7, 0, 0].foldl (aggregateCode .lastNonzero) 0 = 7 ∧
      [0, 0, 0, 21, 11].foldl (aggregateCode .lastNonzero) 0 = 11 ∧
      [5, 6, 7, 21, 0].foldl (aggregateCode .lastNonzero) 0 = 21 ∧
      [5, 6, 7, 21, 0].foldl (aggregateCode .finalOnly) 0 = 0 := by decide

/-! ### Witnesses: a state and operands that meet the hypotheses of each statement -/

/-- Ready with chip-select left asserted and the chain asleep, ready on two chips, and ready awake. -/
theorem test_witness_ready :
    (ready 1 []).Ready ∧ (ready 2 []).Ready ∧ State.Ready { ready 1 [] with cs := true, pwr := .idleReady } := by
  decide

theorem test_witness_PecResidueZero : (0x3D6E : U16).getLsbD 0 = false ∧ pec15 [0x00, 0x01] = 0x3D6E := by
  decide +kernel

/-- The received checksum that refutes the spec's "exactly the same frames": residue zero, but not the checksum. -/
theorem test_residue_accepts_other_checksum :
    pec15 [0x00, 0x01, 0xF8, 0xF7] = 0 ∧ pec15 [0x00, 0x01] ≠ 0xF8F7 := by decide +kernel

theorem test_witness_ChecksumBitZero : (0x3D6F : U16).getLsbD 0 = true := by decide

theorem test_witness_RemainderBit15Immaterial :
    (∀ i : Byte, (pecTable i ^^^ 0x8000).setWidth 15 = (pecTable i).setWidth 15) ∧
      (0x8010 : U16).setWidth 15 = pecSeed.setWidth 15 := by decide +kernel

theorem test_witness_ChecksumOperations : (ready 1 []).Ready := by decide

theorem test_witness_DecodeOfEncode :
    Instr.inRange (.setconv 3 1 7 7) = true ∧ Instr.inRange (.parsecv 3) = true ∧
      Instr.inRange (.wrcfg (.b 0xFFFFFFFF) [[0, 1, 2, 3, 4, 0xFF]]) = true ∧
      Instr.inRange (.pecchk 0xFF00 []) = true := by decide

theorem test_witness_EncodeOfDecode : decode [0x05, 0, 0, 0, 10, 0x12, 0x34] = .ok (.wrcmd (.b 10) 0x1234) := by
  decide

theorem test_witness_MeaninglessRequests_bytes :
    (([0x40, 0x80, 0xC0, 0xFF] : List Byte).all fun r => r.extractLsb' 6 2 != 0) = true ∧
      (([0x00, 0x14, 0x15, 0x16, 0x17, 0x1E, 0x1F, 0x20, 0x3F] : List Byte).all fun r =>
        r.extractLsb' 6 2 == 0 &&
          ([0x00, 0x14, 0x15, 0x16, 0x17, 0x1E, 0x1F] : List (BitVec 5)).contains (r.extractLsb' 0 5)) = true ∧
      (([0x21, 0x22, 0x23, 0x24, 0x29, 0x2A, 0x2B, 0x2C, 0x2D] : List Byte).all fun r =>
        r.extractLsb' 5 3 == 1 &&
          ([0x01, 0x02, 0x03, 0x04, 0x09, 0x0A, 0x0B, 0x0C, 0x0D] : List (BitVec 5)).contains
            (r.extractLsb' 0 5)) = true := by decide

theorem test_witness_MeaninglessRequests_step :
    (ready 1 []).phase = .idle ∧ decode [0x14] = .error .noSuchOperation := by decide

theorem test_witness_MeaninglessRequests_next :
    ∃ t, step { ready 1 [] with pending := [.request [0x09, 3]] } = .next t := ⟨_, rfl⟩

/-- Just outside each range, and what the model does there. -/
theorem test_witness_MeaninglessRequests_operands :
    3 < (4 : Byte).toNat ∧ 1 < (2 : Byte).toNat ∧ 7 < (8 : Byte).toNat ∧
      refusedWith (exec (.parsecv 4) (ready 1 [])) .operandOutOfRange = true ∧
      refusedWith (exec (.parseaux 2) (ready 1 [])) .operandOutOfRange = true ∧
      refusedWith (exec (.parsestat 2) (ready 1 [])) .operandOutOfRange = true ∧
      refusedWith (exec (.setconv 0 0 8 0) (ready 1 [])) .operandOutOfRange = true ∧
      refusedWith (exec (.wrbcast .a 0 [0, 0, 0, 0, 0]) (ready 1 [])) .operandOutOfRange = true ∧
      refusedWith (exec (.wrcfg .a []) (ready 1 [])) .operandOutOfRange = true ∧
      refusedWith (exec (.init .a [[0, 0, 0, 0, 0, 0], [0, 0, 0, 0, 0, 0]]) (ready 1 [])) .operandOutOfRange = true := by
  decide +kernel

theorem test_witness_RequestAcceptedExactly :
    (ready 1 []).Ready ∧ Instr.wellFormed 1 (.wrcfg .a [[0, 0, 0, 0, 0, 0]]) = true ∧
      ¬ State.Ready { ready 1 [] with tornDown := true } ∧ ¬ (ready 0 []).Ready := by decide

/-- A blocking transfer in progress on a live session. -/
def transferring : State :=
  { ready 1 [] with phase := .xferB, cs := true, todo := [.bus (.b 10) (.cmd 0x0711), .endWrite] }

/-- An idle wait on a live session. -/
def waiting (m : Mode) : State :=
  { ready 1 [] with phase := .waitIdle, todo := [.bus m (.cmd 0x0711), .endWrite] }

/-- A suspended asynchronous transfer, `k` bytes moved. -/
def suspended (k : Nat) : State :=
  { ready 1 [] with
    phase := .waitDone, cs := true, moved := k, inflight := some { len := 4, dir := .writeOnly }
    todo := [.bus .a (.cmd 0x0711), .endWrite] }

theorem test_witness_BusyBlockAcceptsNothing :
    transferring.phase ≠ .idle ∧ transferring.tornDown = false ∧ 1 ≤ transferring.n := by decide

theorem test_witness_NoSessionNoOperation :
    (ready 0 []).n = 0 ∧ (ready 0 []).tornDown = false ∧ (1 : Nat) ≤ 1 ∧
      ({ ready 1 [] with tornDown := true } : State).tornDown = true ∧
      ({ ready 1 [] with pending := [.teardown] } : State).pending = [.teardown] := by decide

/-- Two sessions that hold different things and have the same surroundings: the mirror and `rx` of one are written. -/
theorem test_witness_NoSessionNoOperation_survivors :
    SameSurroundings { received with pending := [.teardown] } { ready 2 [] with pending := [.teardown] } ∧
      received.phase = .idle ∧ received.rx ≠ (ready 2 []).rx := by
  refine ⟨⟨rfl, rfl, rfl, rfl, rfl, rfl, rfl, rfl⟩, by decide, by decide +kernel⟩

/-- Before a teardown a byte of `rx` holds a value, after it none (10_state.md R37). -/
theorem test_teardown :
    memRead received.rx 4 = some 0x12 ∧
      after (step { received with pending := [.teardown] }) (fun t => (memRead t.rx 4, t.tornDown)) =
        some (none, true) := by decide +kernel

theorem test_witness_StepRunsDecodedRequest :
    ({ ready 1 [] with pending := [.request [0x03]] } : State).phase = .idle ∧ decode [0x03] = .ok .wake := by decide

theorem test_witness_FrameLayout :
    frameFits 2 (.wr 1 [[1, 2, 3, 4, 5, 6], [1, 2, 3, 4, 5, 6]]) = true ∧ frameFits 1 (.cmd 1) = true ∧
      frameFits 1 (.rd 1) = true ∧ ([[1, 2, 3, 4, 5, 6]] : List (List Byte)).length = (ready 1 []).n := by decide

theorem test_witness_ConfigPayloadReachesItsChip :
    okPayloads 2 [[1, 2, 3, 4, 5, 6], [7, 8, 9, 10, 11, 12]] = true ∧
      takenBy 2 0 (frameBytes 2 (.wr 1 (configBlocks 2 [[1, 2, 3, 4, 5, 6], [7, 8, 9, 10, 11, 12]]))) =
        [1, 2, 3, 4, 5, 6] := by decide +kernel

theorem test_witness_WrittenFramesValidate :
    (∃ t, exec (.wrbcast .a 1 [1, 2, 3, 4, 5, 6]) (ready 1 []) = .next t) ∧
      ∃ t, exec (.wrcfg .a [[1, 2, 3, 4, 5, 6]]) (ready 1 []) = .next t :=
  ⟨⟨_, exec_bus_ready rfl (by decide) (by decide)⟩, ⟨_, exec_bus_ready rfl (by decide) (by decide)⟩⟩

theorem test_witness_SleepOnlyInIdleOrWait :
    (ready 1 []).phase = .idle ∧ (waiting .a).phase = .waitIdle ∧ (currentTransfer (waiting .a)).isSome = true ∧
      transferring.phase ≠ .idle ∧ transferring.phase ≠ .waitIdle ∧
      ({ ready 1 [] with pending := [.request [0x03]] } : State).pending = [.request [0x03]] := by decide

theorem test_witness_PowerStateNotRead : ∃ t, step (ready 1 [.sleep]) = .next t := ⟨_, rfl⟩

/-- A wait that goes on for a while, then a transfer: both modes, the asynchronous one on a receiving bus. -/
theorem test_witness_Served :
    Served (.b 10) 4 fourBytes ([.poll .busyRx false, .sleep] ++ .poll .idle true :: transferMoves (.b 10) fourBytes) ∧
      Served .a 4 fourBytes ([.poll .busy true] ++ .poll .busyRx false :: transferMoves .a fourBytes) :=
  ⟨⟨_, _, _, by decide, rfl, rfl, rfl⟩, ⟨_, _, _, by decide, rfl, rfl, rfl⟩⟩

theorem test_witness_WrcmdServed :
    (ready 1 (servedMoves .a fourBytes ++ [])).Ready ∧ Served .a 4 fourBytes (servedMoves .a fourBytes) :=
  ⟨by decide, served_servedMoves rfl⟩

theorem test_witness_WrbcastServed :
    (ready 1 (servedMoves .a (List.replicate 12 0) ++ [])).Ready ∧ ([1, 2, 3, 4, 5, 6] : List Byte).length = 6 ∧
      Served .a (bufLen 1) (List.replicate 12 0) (servedMoves .a (List.replicate 12 0)) :=
  ⟨by decide, rfl, served_servedMoves rfl⟩

theorem test_witness_WrcfgServed :
    (ready 1 (servedMoves .a (List.replicate 12 0) ++ [])).Ready ∧
      ([[1, 2, 3, 4, 5, 6]] : List (List Byte)).length = (ready 1 []).n ∧
      (∀ p ∈ ([[1, 2, 3, 4, 5, 6]] : List (List Byte)), p.length = 6) ∧
      Served .a (bufLen 1) (List.replicate 12 0) (servedMoves .a (List.replicate 12 0)) :=
  ⟨by decide, rfl, by decide, served_servedMoves rfl⟩

theorem test_witness_ConversionStartsServed :
    (ready 1 (servedMoves (.b 10) fourBytes ++ [.sleep])).Ready ∧
      Served (.b 10) 4 fourBytes (servedMoves (.b 10) fourBytes) :=
  ⟨by decide, served_servedMoves rfl⟩

theorem test_witness_ClearsServed :
    (ready 1 (servedMoves (.b 10) fourBytes ++ [])).Ready ∧
      Served (.b 10) 4 fourBytes (servedMoves (.b 10) fourBytes) :=
  ⟨by decide, served_servedMoves rfl⟩

theorem test_witness_ServedBusTrace :
    (ready 1 (.poll .busyRx false :: (transferMoves .a fourBytes ++ []))).Ready ∧
      Instr.wellFormed 1 (.wrcmd .a 1) = true ∧ busFrame (ready 1 []) (.wrcmd .a 1) = some (.a, .cmd 1) ∧
      busFrame (ready 1 []) (.rdreg (.b 10) 2) = some (.b 10, .rd 2) ∧ frameDir (.cmd 1) = .writeOnly ∧
      frameDir (.rd 2) = .duplex ∧ mayStart .a .busyRx = true ∧ mayStart (.b 10) .idle = true ∧
      fourBytes.length = frameLen 1 (.cmd 1) ∧ (patternRead 1).length = frameLen 1 (.rd 2) := by decide

theorem test_witness_RdregServed :
    (ready 1 (servedMoves (.b 10) (patternRead 1) ++ [])).Ready ∧
      Served (.b 10) (bufLen 1) (patternRead 1) (servedMoves (.b 10) (patternRead 1)) :=
  ⟨by decide, served_servedMoves (by decide)⟩

/-- The first and the last position of a chain. -/
theorem test_witness_OneWrongChecksumOneFailure :
    (ready 2 []).Ready ∧ fourBytes.length = 4 ∧
      (∀ d ∈ ([[1, 2, 3, 4, 5, 6], [6, 5, 4, 3, 2, 1]] : List (List Byte)), d.length = 6) ∧
      0xFFFF ≠ pec15 [1, 2, 3, 4, 5, 6] ∧ 0 ≠ pec15 [6, 5, 4, 3, 2, 1] ∧
      (fourBytes ++ ((([[1, 2, 3, 4, 5, 6], [6, 5, 4, 3, 2, 1]] : List (List Byte)).map chipBlock).set 1
        [6, 5, 4, 3, 2, 1, 0, 0]).flatten).length = bufLen 2 := by decide +kernel

theorem test_witness_ReadThenParse :
    (ready 2 []).Ready ∧ (ready 2 []).board.length = (ready 2 []).n ∧ (3 : Byte).toNat < 4 ∧
      (∀ d ∈ ([[1, 2, 3, 4, 5, 6], [6, 5, 4, 3, 2, 1]] : List (List Byte)), d.length = 6) ∧
      Served .a (bufLen 2) (chainAnswer fourBytes [[1, 2, 3, 4, 5, 6], [6, 5, 4, 3, 2, 1]])
        (servedMoves .a (chainAnswer fourBytes [[1, 2, 3, 4, 5, 6], [6, 5, 4, 3, 2, 1]])) :=
  ⟨by decide, by decide, by decide, by decide, served_servedMoves (by decide +kernel)⟩

theorem test_witness_ClearedGroupsReadAllOnes :
    (ready 1 []).Ready ∧ (ready 1 []).board.length = (ready 1 []).n ∧ (3 : Byte).toNat < 4 ∧ (1 : Byte).toNat < 2 ∧
      Served .a (bufLen 1) (chainAnswer fourBytes (List.replicate 1 clearedGroup))
        (servedMoves .a (chainAnswer fourBytes (List.replicate 1 clearedGroup))) :=
  ⟨by decide, by decide, by decide, by decide, served_servedMoves (by decide +kernel)⟩

/-- A read and a write, after a wait that went on for a while. -/
theorem test_witness_IdleWaitTimeout :
    (ready 1 ([.poll .busy false, .sleep] ++ .poll .busyRx true :: [])).Ready ∧
      Instr.wellFormed 1 (.rdreg (.b 10) 2) = true ∧
      busFrame (ready 1 []) (.rdreg (.b 10) 2) = some (.b 10, .rd 2) ∧
      busFrame (ready 1 []) (.clrcell (.b 10)) = some (.b 10, .cmd 0x0711) ∧
      (∀ e ∈ [EnvEvent.poll .busy false, .sleep], keepsWaiting (.b 10) e = true) ∧ BusState.busyRx ≠ .idle ∧
      (waiting (.b 10)).phase = .waitIdle ∧ (waiting .a).phase = .waitIdle ∧
      (react (.poll .busyRx true) (waiting .a)).phase = .waitDone ∧
      (react (.poll .busy true) (waiting .a)).phase = .waitIdle ∧
      (react (.poll .busyRx false) (waiting (.b 10))).phase = .waitIdle ∧
      after (exec (.clrcell (.b 10)) (ready 1 [.poll .busy false, .sleep, .poll .busyRx true])) (·.pwr) =
        some .asleep := by decide +kernel

theorem test_witness_BlockingTransferFailure :
    (ready 1 ([] ++ .poll .idle false :: (([7, 8] : List Byte).map .byte ++ .ret .busError :: []))).Ready ∧
      Status.busError ≠ .ok ∧ ([7, 8] : List Byte).length ≤ frameLen 1 (.rd 2) ∧
      busFrame (ready 1 []) (.rdreg (.b 10) 2) = some (.b 10, .rd 2) := by decide

/-- Both orders of the two events. -/
theorem test_witness_AsyncErrorAndCompletion :
    (ready 1 ([] ++ .poll .idle false :: (fourBytes.map .byte ++ ([.error, .complete, .resume] ++ [])))).Ready ∧
      busFrame (ready 1 []) (.wrcmd .a 1) = some (.a, .cmd 1) ∧ fourBytes.length = frameLen 1 (.cmd 1) ∧
      after (exec (.wrcmd .a 1) (ready 1 (.poll .idle false :: (fourBytes.map .byte ++ [.complete, .error, .resume]))))
        (·.status) = some .busError := by decide +kernel

theorem test_witness_NoCompletionNoEnd :
    (ready 1 ([] ++ .poll .busyRx false :: [.error, .resume])).Ready ∧ (ready 1 []).doneSig = false ∧
      busFrame (ready 1 []) (.wrcmd .a 1) = some (.a, .cmd 1) ∧
      (∀ e ∈ [EnvEvent.error, .resume], e ≠ .complete) := by decide

theorem test_witness_BlockingReleasesChipSelect :
    ∃ t, exec (.wrcmd (.b 10) 1) (ready 1 [.poll .idle false]) = .next t ∧ t.cs = true := by
  exact exists_of_after (f := (·.cs)) (by decide +kernel)

/-- An operation that was suspended in its transfer, and one in its idle wait; the second goes on to assert `cs`. -/
theorem test_witness_BlockingReleasesChipSelect_suspended :
    transferring.todo = .bus (.b 10) (.cmd 0x0711) :: [.endWrite] ∧ transferring.phase = .xferB ∧
      (react (.byte 0) transferring).cs = true ∧
      (waiting (.b 10)).phase = .waitIdle ∧ (waiting (.b 10)).cs = false ∧
      (react (.poll .idle false) (waiting (.b 10))).cs = true := by decide +kernel

theorem test_witness_AsyncOperationOver :
    ∃ t, exec (.wrcmd .a 1) (ready 1 (servedMoves .a fourBytes)) = .next t ∧ t.phase = .idle := by
  exact exists_of_after (f := (·.phase)) (by decide +kernel)

/-- The signal is given, after an error. -/
theorem test_witness_AsyncOperationOver_signal :
    (react .complete (react .error (suspended 4))).phase = .waitDone ∧
      (react .complete (react .error (suspended 4))).todo = [.bus .a (.cmd 0x0711), resultTask (.cmd 0x0711)] ∧
      (react .complete (react .error (suspended 4))).doneSig = true := by decide

theorem test_witness_FrameAssembledAfresh :
    busFrame (ready 1 []) (.rdreg .a 2) = some (.a, .rd 2) ∧ ∃ t, exec (.rdreg .a 2) (ready 1 []) = .next t :=
  ⟨rfl, _, exec_bus_ready (m := .a) (f := .rd 2) rfl (by decide) (by decide)⟩

theorem test_witness_BusOperationFrame :
    busFrame (ready 1 []) (.wrcmd .a 2) = some (.a, .cmd 2) ∧ frameDir (.cmd 2) = .writeOnly ∧
      (∃ t, exec (.wrcmd .a 2) (ready 1 []) = .next t) ∧ ∀ grp, Task.parse grp ∉ (suspended 4).todo :=
  ⟨rfl, rfl, ⟨_, exec_bus_ready (m := .a) (f := .cmd 2) rfl (by decide) (by decide)⟩,
    fun grp h => by simp [suspended] at h⟩

theorem test_witness_WireCarriesOnlyTheFrame :
    ∃ t, exec (.wrcmd .a 1) (ready 1 (servedMoves .a fourBytes)) = .next t ∧
      (t.phase, t.status) = (.idle, .ok) := by
  exact exists_of_after (f := fun t => (t.phase, t.status)) (by decide +kernel)

/-- A byte of a transfer in XFER_B, of one in WAIT_DONE, one that is past the frame's end, and one with no transfer in
flight. -/
theorem test_witness_WireCarriesOnlyTheFrame_bytes :
    transferring.todo = .bus (.b 10) (.cmd 0x0711) :: [.endWrite] ∧ transferring.phase = .xferB ∧
      transferring.moved < frameLen 1 (.cmd 0x0711) ∧
      (suspended 3).todo = .bus .a (.cmd 0x0711) :: [.endWrite] ∧ (suspended 3).phase = .waitDone ∧
      (suspended 3).inflight ≠ none ∧ (suspended 3).moved < frameLen 1 (.cmd 0x0711) ∧
      ¬ (suspended 4).moved < frameLen 1 (.cmd 0x0711) ∧
      ({ suspended 4 with inflight := none } : State).inflight = none := by decide

/-- A failure after no byte, a success after all of them, and one that comes too early. -/
theorem test_witness_CompletionAndErrorSteps_return :
    transferring.phase = .xferB ∧ transferring.todo = [.bus (.b 10) (.cmd 0x0711), resultTask (.cmd 0x0711)] ∧
      Status.timeout ≠ .ok ∧ transferring.moved ≠ frameLen 1 (.cmd 0x0711) ∧
      ({ transferring with moved := 4 } : State).moved = frameLen 1 (.cmd 0x0711) ∧
      (react (.ret .ok) { transferring with moved := 4 }).phase = .idle := by decide

/-- All bytes moved, none moved, and no transfer in flight. -/
theorem test_witness_CompletionAndErrorSteps :
    (suspended 4).phase = .waitDone ∧ (suspended 4).inflight ≠ none ∧ (suspended 4).moved = frameLen 1 (.cmd 0x0711) ∧
      (suspended 0).moved ≠ frameLen 1 (.cmd 0x0711) ∧
      ({ suspended 4 with inflight := none } : State).inflight = none ∧
      (react .complete (suspended 4)).doneSig = true := by decide

theorem test_witness_ParsecvStoresGroup :
    received.Ready ∧ (0 : Byte).toNat < 4 ∧ (3 : Byte).toNat < 4 ∧ 3 < (4 : Byte).toNat := by decide

theorem test_witness_ParseauxAndParsestatStoreGroup :
    received.Ready ∧ (0 : Byte).toNat < 2 ∧ (1 : Byte).toNat < 2 ∧ 1 < (2 : Byte).toNat := by decide

theorem test_witness_ParsecfgStoresBytes : received.Ready := by decide

theorem test_witness_ParseTwiceSameMirror :
    received.board.length = received.n ∧ (∀ a, a < bufLen received.n → (rxValue received a).isSome = true) ∧
      after (exec (.parsecv 1) received) (fun t => after (exec (.parsecv 1) t) fun u => decide (u.board = t.board)) =
        some (some true) := by decide +kernel

theorem test_witness_SetconvPlacesFields :
    (ready 1 []).Ready ∧ (3 : Byte).toNat < 4 ∧ (1 : Byte).toNat < 2 ∧ (7 : Byte).toNat < 8 ∧
      refusedWith (exec (.setconv 4 0 0 0) (ready 1 [])) .operandOutOfRange = true ∧
      refusedWith (exec (.setconv 0 2 0 0) (ready 1 [])) .operandOutOfRange = true ∧
      refusedWith (exec (.setconv 0 0 0 8) (ready 1 [])) .operandOutOfRange = true := by decide +kernel

theorem test_witness_SetconvOverwrites :
    after (exec (.setconv 3 1 5 5) (ready 1 [])) (fun t => after (exec (.setconv 0 1 7 7) t) fun u => (u.tmplCv, u.tmplAx)) =
        some (some ({ b0 := 0x02, b1 := 0x77 }, { b0 := 0x04, b1 := 0x67 })) ∧
      after (exec (.setconv 0 1 7 7) (ready 1 [])) (·.tmplCv) = some { b0 := 0x02, b1 := 0x77 } := by decide +kernel

theorem test_witness_NeverWritten : ∃ t, step (ready 1 [.sleep]) = .next t := ⟨_, rfl⟩

theorem test_witness_TemplatesAndPecOutWriters :
    after (step { ready 1 [] with pending := [.request [0x0D, 3, 1, 5, 5]] }) (fun t => decide (t.tmplCv ≠ { b0 := 0x02, b1 := 0x60 })) =
        some true ∧
      after (step { ready 1 [] with pending := [.request [0x01, 0x00, 0x01]] }) (fun t => t.pecOut.known) = some true := by
  decide +kernel

/-- One element that holds a value, one that holds none, one that does not exist. -/
theorem test_witness_HostReadWithoutSideEffect :
    hostElem received (.rx 4) = some { val := 0x12, known := true } ∧
      hostElem received (.cellVoltage 0 0) = some { val := 0, known := false } ∧
      hostElem received (.tx 20) = none ∧ hostElem received (.cellVoltage 2 0) = none ∧
      19 < bufLen received.n ∧ bufLen received.n ≤ 20 ∧ memRead received.rx 19 = some 0x32 ∧
      memRead received.tx 19 = none ∧ 1 < received.board.length ∧ received.board.length ≤ 2 ∧
      1 < received.pecFail.val.length ∧ received.status = .ok ∧
      received.phase = .idle ∧ received.tornDown = false := by decide +kernel

theorem test_witness_ConstructionValues : ∃ s, State.construct 1 par = .ok s := ⟨_, rfl⟩

theorem test_witness_InvariantAtReset : ∃ s, State.construct 3 par = .ok s := ⟨_, rfl⟩

/-- A suspended transfer whose frame is in `tx`. -/
def suspendedWithFrame : State :=
  { suspended 4 with tx := memWriteBytes [] 0 (frameBytes 1 (.cmd 0x0711)), script := [.complete] }

theorem test_witness_WireCarriesOnlyTheFrame_frame :
    suspendedWithFrame.phase ≠ .idle ∧ suspendedWithFrame.todo = .bus .a (.cmd 0x0711) :: [.endWrite] ∧
      3 < frameLen 1 (.cmd 0x0711) := by decide

/-- Idle, and in the middle of a transfer. -/
theorem test_witness_StepKeepsInvariant :
    (ready 1 []).Inv ∧ suspendedWithFrame.Inv ∧ ∃ t, step suspendedWithFrame = .next t := by
  refine ⟨⟨by decide, by decide, ⟨by decide, by decide, rfl, rfl, rfl⟩, fun h => absurd rfl h⟩, ?_, _, rfl⟩
  refine ⟨by decide, by decide +kernel,
    ⟨by decide, by decide, .cmd 0x0711, rfl, rfl, by decide, .inl ⟨rfl, rfl⟩⟩, fun _ m f h => ?_⟩
  have h' : some (Mode.a, Frame.cmd 0x0711) = some (m, f) := h
  simp only [Option.some.injEq, Prod.mk.injEq] at h'
  obtain ⟨rfl, rfl⟩ := h'
  decide +kernel

theorem test_witness_PatternEverywherePasses :
    (ready 1 []).Ready ∧ (ready 1 []).board.length = (ready 1 []).n ∧ fourBytes.length = 4 ∧ ([0x95, 0x55, 0x95, 0x55, 0x95, 0x55] : List Byte).length = 6 ∧
      ∀ k, k < 3 → regWord par.regDataOrder (([0x95, 0x55, 0x95, 0x55, 0x95, 0x55] : List Byte).getD (2 * k) 0)
        (([0x95, 0x55, 0x95, 0x55, 0x95, 0x55] : List Byte).getD (2 * k + 1) 0) = expectedPattern par.given := by
  decide

theorem test_witness_PatternEverywherePasses_served :
    ServedAll .a [(4, fourBytes), (bufLen 1, chainAnswer fourBytes (List.replicate 1 [0x95, 0x55, 0x95, 0x55, 0x95, 0x55])),
        (bufLen 1, chainAnswer fourBytes (List.replicate 1 [0x95, 0x55, 0x95, 0x55, 0x95, 0x55]))]
      (([(4, fourBytes), (bufLen 1, chainAnswer fourBytes (List.replicate 1 [0x95, 0x55, 0x95, 0x55, 0x95, 0x55])),
        (bufLen 1, chainAnswer fourBytes (List.replicate 1 [0x95, 0x55, 0x95, 0x55, 0x95, 0x55]))] :
          List (Nat × List Byte)).flatMap fun x => servedMoves .a x.2) ∧
    ServedAll .a (((4, fourBytes) : Nat × List Byte) :: List.replicate 4
        (bufLen 1, chainAnswer fourBytes (List.replicate 1 [0x95, 0x55, 0x95, 0x55, 0x95, 0x55])))
      ((((4, fourBytes) : Nat × List Byte) :: List.replicate 4
        (bufLen 1, chainAnswer fourBytes (List.replicate 1 [0x95, 0x55, 0x95, 0x55, 0x95, 0x55]))).flatMap
          fun x => servedMoves .a x.2) :=
  ⟨servedAll_servedMoves (by decide +kernel), servedAll_servedMoves (by decide +kernel)⟩

theorem test_witness_CvtestServed :
    (ready 1 []).Ready ∧ (ready 1 []).board.length = (ready 1 []).n ∧
      ServedAll .a [(4, fourBytes), (bufLen 1, patternRead 1), (bufLen 1, patternRead 1), (bufLen 1, patternRead 1),
          (bufLen 1, patternRead 1)]
        (([(4, fourBytes), (bufLen 1, patternRead 1), (bufLen 1, patternRead 1), (bufLen 1, patternRead 1),
          (bufLen 1, patternRead 1)] : List (Nat × List Byte)).flatMap fun x => servedMoves .a x.2) :=
  ⟨by decide, by decide, servedAll_servedMoves (by decide)⟩

theorem test_witness_AuxtestAndStattestServed :
    (ready 1 []).Ready ∧ (ready 1 []).board.length = (ready 1 []).n ∧
      ServedAll .a [(4, fourBytes), (bufLen 1, patternRead 1), (bufLen 1, patternRead 1)]
        (([(4, fourBytes), (bufLen 1, patternRead 1), (bufLen 1, patternRead 1)] : List (Nat × List Byte)).flatMap
          fun x => servedMoves .a x.2) :=
  ⟨by decide, by decide, servedAll_servedMoves (by decide)⟩

theorem test_witness_AdstattestServed :
    (ready 1 []).Ready ∧ (ready 1 []).board.length = (ready 1 []).n ∧
      ServedAll (.b 10) [(4, fourBytes), (4, fourBytes), (bufLen 1, patternRead 1), (bufLen 1, patternRead 1)]
        (([(4, fourBytes), (4, fourBytes), (bufLen 1, patternRead 1), (bufLen 1, patternRead 1)] :
          List (Nat × List Byte)).flatMap fun x => servedMoves (.b 10) x.2) :=
  ⟨by decide, by decide, servedAll_servedMoves (by decide)⟩

theorem test_witness_AcctestServed :
    (ready 1 []).Ready ∧ (ready 1 []).board.length = (ready 1 []).n ∧
      ServedAll (.b 10) [(4, fourBytes), (bufLen 1, patternRead 1)]
        (([(4, fourBytes), (bufLen 1, patternRead 1)] : List (Nat × List Byte)).flatMap
          fun x => servedMoves (.b 10) x.2) :=
  ⟨by decide, by decide, servedAll_servedMoves (by decide)⟩

/-- The eighteen transfers of INIT on one chip, in order. -/
def initTransfers : List (Nat × List Byte) :=
  [(bufLen 1, patternRead 1), (4, fourBytes), (bufLen 1, patternRead 1), (bufLen 1, patternRead 1),
    (bufLen 1, patternRead 1), (bufLen 1, patternRead 1), (4, fourBytes), (bufLen 1, patternRead 1),
    (bufLen 1, patternRead 1), (4, fourBytes), (bufLen 1, patternRead 1), (bufLen 1, patternRead 1),
    (4, fourBytes), (4, fourBytes), (bufLen 1, patternRead 1), (bufLen 1, patternRead 1),
    (4, fourBytes), (bufLen 1, patternRead 1)]

theorem test_witness_InitServed :
    (ready 1 []).Ready ∧ (ready 1 []).board.length = (ready 1 []).n ∧
      ([[1, 2, 3, 4, 5, 6]] : List (List Byte)).length = (ready 1 []).n ∧
      (∀ p ∈ ([[1, 2, 3, 4, 5, 6]] : List (List Byte)), p.length = 6) ∧
      ServedAll .a initTransfers (initTransfers.flatMap fun x => servedMoves .a x.2) :=
  ⟨by decide, by decide, by decide, by decide, servedAll_servedMoves (by decide)⟩

end Sys2Proof.Tests
end

section
/-! SUPPORT. What an accepted request does, as one function of the instruction, and what a step can be: the statements
about every step are case splits on `step_next_iff` (10_state.md R10, R32). -/

namespace Sys2Proof.Machine

/-- The stages of a host sequence; `none` for an operation of the block (45_host_sequences.md R202 to R210). -/
def sequenceStages (s : State) (i : Instr) : Option (List Task) :=
  match i with
  | .init m payloads => some (initTasks m s.par.given (configFrame s payloads))
  | .cvtest m => some (cvTasks m s.par.given ++ [.answerCode])
  | .auxtest m => some (auxTasks m s.par.given ++ [.answerCode])
  | .stattest m => some (statTasks m s.par.given ++ [.answerCode])
  | .adstattest m => some (adstatTasks m s.par.given ++ [.answerCode])
  | .acctest m => some (accTasks m s.par.given ++ [.answerCode])
  | _ => none

/-- The stages of a request that makes transfers; `none` for one that makes none (10_state.md R21). -/
def requestStages (s : State) (i : Instr) : Option (List Task) :=
  match busFrame s i with
  | some mf => some [.bus mf.1 mf.2, resultTask mf.2]
  | none => sequenceStages s i

/-- The effect of a request that makes no transfer; the other requests have their stages. -/
def localEffect (i : Instr) (s : State) : State :=
  match i with
  | .pec15 bytes =>
    { computing (fun s => { s with pecOut := { val := pec15 bytes, known := true } }) s with
      answer := .pecOut (pec15 bytes) }
  | .pecchk p bytes => { computing id s with answer := .matched (pecCheck bytes p) }
  | .wake => { setPhase .idle (wakePulse .fine s.par.given.tWake s) with answer := .done }
  | .refresh => refreshOperation s
  | .parsecv g => parseOperation (.cv g.toNat) s
  | .parseaux g => parseOperation (.aux g.toNat) s
  | .parsestat g => parseOperation (.stat g.toNat) s
  | .parsecfg => parseOperation .cfg s
  | .setconv mode dcp ch chg => { computing (placeConversion mode dcp ch chg) s with answer := .done }
  | _ => s

/-- What an accepted request does. -/
def effect (i : Instr) (s : State) : State :=
  match requestStages s i with
  | some ts => operate ts s
  | none => localEffect i s

/-- Every instruction is one request, with `effect` behind it. -/
theorem exec_eq_request (i : Instr) (s : State) : exec i s = request (i.wellFormed s.n) s (effect i) := by
  cases i <;> rfl

theorem exec_next_iff {i : Instr} {s t : State} :
    exec i s = .next t ↔ s.Ready ∧ i.wellFormed s.n = true ∧ t = effect i { s with answer := .none } := by
  rw [exec_eq_request, request_next]

/-! ### The cases of a step -/

/-- The state in which a step takes what the host presented before `rest` (43_transport.md R153). -/
def taken (rest : List HostAction) (s : State) : State := idleMoment { s with pending := rest }

/-- The state in which a request is carried out (10_state.md R32). -/
def accepted (rest : List HostAction) (s : State) : State := { taken rest s with answer := .none }

/-- The four things a step that gives a next state can be. -/
inductive StepCase (s : State) : State → Prop where
  | environment (h : s.phase = .idle → s.pending = []) : StepCase s (environmentMove s)
  | request {bytes : List Byte} {rest : List HostAction} {i : Instr} (hp : s.phase = .idle)
      (hq : s.pending = .request bytes :: rest) (hd : decode bytes = .ok i) (hr : s.Ready)
      (hw : i.wellFormed s.n = true) : StepCase s (effect i (accepted rest s))
  | read {e : HostElem} {rest : List HostAction} {v : U16} (hp : s.phase = .idle) (hq : s.pending = .read e :: rest)
      (ht : s.tornDown = false) (he : hostElem s e = some { val := v, known := true }) :
      StepCase s { taken rest s with answer := .element v }
  | teardown {rest : List HostAction} (hp : s.phase = .idle) (hq : s.pending = .teardown :: rest) :
      StepCase s (teardown (taken rest s))

/-- The accessors read nothing that taking an action changes. -/
theorem hostElem_taken (rest : List HostAction) (s : State) (e : HostElem) :
    hostElem (taken rest s) e = hostElem s e := by
  cases e <;> rfl

/-- An accessor read is answered exactly where the element holds a value (10_state.md R34). -/
theorem answerReg_next_iff {e : HostElem} {r : Option (Reg U16)} {s t : State} :
    answerReg e r s = .next t ↔ ∃ v, r = some { val := v, known := true } ∧ t = { s with answer := .element v } := by
  rcases r with _ | ⟨v, known⟩
  · simp [answerReg]
  · cases known <;> simp [answerReg, eq_comm]

/-- The host's action gives a next state in three ways. -/
theorem hostStep_next_iff {a : HostAction} {s t : State} :
    hostStep a s = .next t ↔
      (∃ bytes i, a = .request bytes ∧ decode bytes = .ok i ∧ s.Ready ∧ i.wellFormed s.n = true ∧
        t = effect i { s with answer := .none }) ∨
      (∃ e v, a = .read e ∧ s.tornDown = false ∧ hostElem s e = some { val := v, known := true } ∧
        t = { s with answer := .element v }) ∨
      (a = .teardown ∧ t = teardown s) := by
  cases a with
  | request bytes => cases hd : decode bytes <;> simp [hostStep, hd, exec_next_iff]
  | read e => cases ht : s.tornDown <;> simp [hostStep, ht, hostRead, answerReg_next_iff]
  | teardown => simp [hostStep, @eq_comm _ t]

/-- What a step that gives a next state can be. -/
theorem step_next_iff {s t : State} : step s = .next t ↔ StepCase s t := by
  constructor
  · intro h
    by_cases he : s.phase = .idle → s.pending = []
    · rw [step_environment he] at h
      cases h
      exact .environment he
    · obtain ⟨hp, hne⟩ := Classical.not_imp.1 he
      obtain ⟨a, rest, hq⟩ := List.exists_cons_of_ne_nil hne
      rw [step_host hp hq] at h
      obtain ⟨bytes, i, rfl, hd, hr, hw, rfl⟩ | ⟨e, v, rfl, ht, hv, rfl⟩ | ⟨rfl, rfl⟩ := hostStep_next_iff.1 h
      · exact .request hp hq hd hr hw
      · exact .read hp hq ht ((hostElem_taken rest s e).symm.trans hv)
      · exact .teardown hp hq
  · rintro (he | ⟨hp, hq, hd, hr, hw⟩ | ⟨hp, hq, ht, he⟩ | ⟨hp, hq⟩)
    · exact step_environment he
    · rw [step_host hp hq]
      exact hostStep_next_iff.2 (.inl ⟨_, _, rfl, hd, hr, hw, rfl⟩)
    · rw [step_host hp hq]
      exact hostStep_next_iff.2 (.inr (.inl ⟨_, _, rfl, ht, (hostElem_taken _ _ _).trans he, rfl⟩))
    · rw [step_host hp hq]
      rfl

/-! ### What no operation writes -/

@[simp] theorem localEffect_n (i : Instr) (s : State) : (localEffect i s).n = s.n := by
  cases i <;> simp [localEffect, computing]
@[simp] theorem localEffect_par (i : Instr) (s : State) : (localEffect i s).par = s.par := by
  cases i <;> simp [localEffect, computing]
@[simp] theorem localEffect_tx (i : Instr) (s : State) : (localEffect i s).tx = s.tx := by
  cases i <;> simp [localEffect, computing]
@[simp] theorem localEffect_rx (i : Instr) (s : State) : (localEffect i s).rx = s.rx := by
  cases i <;> simp [localEffect, computing]
@[simp] theorem localEffect_rxUnspec (i : Instr) (s : State) : (localEffect i s).rxUnspec = s.rxUnspec := by
  cases i <;> simp [localEffect, computing]
@[simp] theorem localEffect_inflight (i : Instr) (s : State) : (localEffect i s).inflight = s.inflight := by
  cases i <;> simp [localEffect, computing]
@[simp] theorem localEffect_doneSig (i : Instr) (s : State) : (localEffect i s).doneSig = s.doneSig := by
  cases i <;> simp [localEffect, computing]
@[simp] theorem localEffect_pecFail (i : Instr) (s : State) : (localEffect i s).pecFail = s.pecFail := by
  cases i <;> simp [localEffect, computing]
@[simp] theorem localEffect_pending (i : Instr) (s : State) : (localEffect i s).pending = s.pending := by
  cases i <;> simp [localEffect, computing]
@[simp] theorem localEffect_tornDown (i : Instr) (s : State) : (localEffect i s).tornDown = s.tornDown := by
  cases i <;> simp [localEffect, computing]
@[simp] theorem localEffect_todo (i : Instr) (s : State) : (localEffect i s).todo = s.todo := by
  cases i <;> simp [localEffect, computing]

/-- An operation without a transfer ends in the phase IDLE it began in (10_state.md R21). -/
theorem localEffect_phase {s : State} (h : s.phase = .idle) (i : Instr) : (localEffect i s).phase = .idle := by
  cases i <;> simp [localEffect, computing, h]

end Sys2Proof.Machine
end

section
/-! SUPPORT. What no step but a teardown, SETCONV or PEC15 writes: the induction over stages and moves (`Kept`) for the
fields that no part of an operation touches. -/

namespace Sys2Proof.Machine

/-- The pass-through bytes of the mirror, entry by entry (10_state.md R19). -/
def commBytes (s : State) : List (Vector (Reg Byte) 3) := s.board.map Board.comm

@[simp] theorem parseBoard_comm (s : State) (grp : Group) (i : Nat) (b : Board) :
    (parseBoard s grp i b).comm = b.comm := by
  cases grp <;> rfl

/-- A parse leaves the pass-through bytes of every entry (10_state.md R19). -/
theorem map_comm_mapIdx_parseBoard (s : State) (grp : Group) (bs : List Board) :
    (bs.mapIdx (parseBoard s grp)).map Board.comm = bs.map Board.comm := by
  apply List.ext_getElem <;> simp

/-- What no stage and no move of an operation writes (45_host_sequences.md R200, 10_state.md R19). -/
def untouched (s : State) :
    Nat × Params × Template × Template × Reg U16 × List HostAction × Bool × List (Vector (Reg Byte) 3) :=
  (s.n, s.par, s.tmplCv, s.tmplAx, s.pecOut, s.pending, s.tornDown, commBytes s)

theorem untouched_stage (t : Task) (s : State) : untouched (stage t s) = untouched s := by
  cases t <;> simp [stage, untouched, commBytes, map_comm_mapIdx_parseBoard]

theorem kept_untouched (s₀ : State) : Kept (fun _ => True) (fun s => untouched s = untouched s₀) where
  todo _ _ h := h
  script _ _ h := h
  draws _ _ h := h
  stage t s _ _ h := (untouched_stage t s).trans h
  bus _ _ _ _ h := by simpa [untouched, commBytes] using h
  poll _ _ h := h
  delay _ _ _ h := h
  sleep _ h := h
  start _ _ _ _ h := by simpa [untouched, commBytes] using h
  timeout _ h := h
  move _ _ _ _ _ h := by simpa [untouched, commBytes] using h
  ret _ _ _ _ _ h := by simpa [untouched, commBytes] using h
  complete _ h := h
  error _ h := h
  take _ _ _ _ h := by simpa [untouched, commBytes] using h

theorem sequenceKept_of_untouched {s t : State} (h : untouched t = untouched s) : SequenceKept s t := by
  simp only [untouched, Prod.mk.injEq] at h
  obtain ⟨hn, hpar, hcv, hax, hout, hpend, htorn, -⟩ := h
  exact ⟨hn, hpar, hcv, hax, hout, hpend, htorn⟩

theorem commBytes_of_untouched {s t : State} (h : untouched t = untouched s) : commBytes t = commBytes s := by
  simp only [untouched, Prod.mk.injEq] at h
  obtain ⟨-, -, -, -, -, -, -, hcomm⟩ := h
  exact hcomm

theorem untouched_environmentMove (s : State) : untouched (environmentMove s) = untouched s :=
  (kept_untouched s).environmentMove (fun _ _ => trivial) rfl

theorem untouched_operate (ts : List Task) (s : State) : untouched (operate ts s) = untouched s :=
  (kept_untouched s).operate (fun _ _ => trivial) rfl

theorem sequenceKept_environmentMove (s : State) : SequenceKept s (environmentMove s) :=
  sequenceKept_of_untouched (untouched_environmentMove s)

theorem sequenceKept_operate (ts : List Task) (s : State) : SequenceKept s (operate ts s) :=
  sequenceKept_of_untouched (untouched_operate ts s)

/-! ### The effect of a request -/

/-- A request is carried out by its stages or, where it makes no transfer, at once. -/
theorem effect_cases (i : Instr) (s : State) :
    (∃ ts, requestStages s i = some ts ∧ effect i s = operate ts s) ∨
      requestStages s i = none ∧ effect i s = localEffect i s := by
  cases h : requestStages s i with
  | some ts => exact .inl ⟨ts, rfl, by simp [effect, h]⟩
  | none => exact .inr ⟨rfl, by simp [effect, h]⟩

theorem commBytes_localEffect (i : Instr) (s : State) : commBytes (localEffect i s) = commBytes s := by
  cases i <;> simp [localEffect, computing, commBytes, map_comm_mapIdx_parseBoard]

theorem commBytes_effect (i : Instr) (s : State) : commBytes (effect i s) = commBytes s := by
  obtain ⟨ts, -, h⟩ | ⟨-, h⟩ := effect_cases i s
  · rw [h, commBytes_of_untouched (untouched_operate ts s)]
  · rw [h, commBytes_localEffect]

@[simp] theorem effect_n (i : Instr) (s : State) : (effect i s).n = s.n := by
  obtain ⟨ts, -, h⟩ | ⟨-, h⟩ := effect_cases i s
  · rw [h, (sequenceKept_operate ts s).n]
  · rw [h, localEffect_n]

@[simp] theorem effect_par (i : Instr) (s : State) : (effect i s).par = s.par := by
  obtain ⟨ts, -, h⟩ | ⟨-, h⟩ := effect_cases i s
  · rw [h, (sequenceKept_operate ts s).par]
  · rw [h, localEffect_par]

/-- Of the requests only SETCONV writes a template (10_state.md R20). -/
theorem effect_templates {i : Instr} (hi : ∀ mode dcp ch chg, i ≠ .setconv mode dcp ch chg) (s : State) :
    (effect i s).tmplCv = s.tmplCv ∧ (effect i s).tmplAx = s.tmplAx := by
  obtain ⟨ts, -, h⟩ | ⟨-, h⟩ := effect_cases i s
  · rw [h]
    exact ⟨(sequenceKept_operate ts s).tmplCv, (sequenceKept_operate ts s).tmplAx⟩
  · rw [h]
    cases i with
    | setconv mode dcp ch chg => exact absurd rfl (hi mode dcp ch chg)
    | _ => simp [localEffect, computing]

/-- Of the requests only PEC15 writes `pec_out` (10_state.md R29). -/
theorem effect_pecOut {i : Instr} (hi : ∀ bytes, i ≠ .pec15 bytes) (s : State) :
    (effect i s).pecOut = s.pecOut := by
  obtain ⟨ts, -, h⟩ | ⟨-, h⟩ := effect_cases i s
  · rw [h, (sequenceKept_operate ts s).pecOut]
  · rw [h]
    cases i with
    | pec15 bytes => exact absurd rfl (hi bytes)
    | _ => simp [localEffect, computing]

/-- Equal pass-through bytes: as many entries, each with the bytes it had. -/
theorem board_of_commBytes {s t : State} (h : commBytes t = commBytes s) :
    t.board.length = s.board.length ∧
      ∀ i (hs : i < s.board.length) (ht : i < t.board.length), t.board[i].comm = s.board[i].comm := by
  refine ⟨by simpa [commBytes] using congrArg List.length h, fun i hs ht => ?_⟩
  have := congrArg (fun l => l[i]?) h
  simpa [commBytes, List.getElem?_eq_getElem, hs, ht] using this

end Sys2Proof.Machine
end

section
/-! SUPPORT. Family 10_state: the request port, the accessors and what no step writes. -/

namespace Sys2Proof.Machine

/-- Settles O11: every instruction is one request, and `request_next` says when that is accepted. -/
theorem requestAcceptedExactly : Obligations.RequestAcceptedExactly := by
  refine ⟨fun i s => ?_, fun i s r => ?_⟩
  · constructor
    · rintro ⟨t, ht⟩
      exact exec_next_ready ht
    · rintro ⟨hr, hw⟩
      exact ⟨_, exec_next_iff.2 ⟨hr, hw, rfl⟩⟩
  · rw [exec_eq_request]
    exact request_not_fault r

/-- Outside phase IDLE a live session refuses every request as busy (10_state.md R32). -/
theorem request_of_busy {ok : Bool} {s : State} {k : State → State} (hl : s.tornDown = false) (hn : 1 ≤ s.n)
    (hp : s.phase ≠ .idle) : request ok s k = .refused .requestWhileBusy := by
  have hn0 : s.n ≠ 0 := by omega
  simp [request, hl, hn0, hp]

/-- Settles O12: outside phase IDLE a step is a move of the environment, which keeps what is presented. -/
theorem busyBlockAcceptsNothing : Obligations.BusyBlockAcceptsNothing := by
  intro s hp
  refine ⟨⟨environmentMove s, step_environment fun h => absurd h hp, (sequenceKept_environmentMove s).pending⟩,
    fun i hl hn => ?_⟩
  rw [exec_eq_request]
  exact request_of_busy hl hn hp

/-- Settles O14: the step takes the host's action, which is the decoded request. -/
theorem stepRunsDecodedRequest : Obligations.StepRunsDecodedRequest := by
  intro s bytes rest i hp hq hd
  rw [step_host hp hq]
  simp only [hostStep, hd]
  rfl

/-- Settles O48: of the cases of a step only a SETCONV request and a teardown write a template, only a PEC15 request and
a teardown write `pec_out`. -/
theorem templatesAndPecOutWriters : Obligations.TemplatesAndPecOutWriters := by
  intro s t h
  cases step_next_iff.1 h with
  | environment =>
    have hk := sequenceKept_environmentMove s
    exact ⟨fun hne => hne.elim (absurd hk.tmplCv) (absurd hk.tmplAx), fun hne => absurd hk.pecOut hne⟩
  | @request bytes rest i hp hq hd =>
    constructor
    · intro hne
      by_cases hi : ∃ mode dcp ch chg, i = .setconv mode dcp ch chg
      · obtain ⟨mode, dcp, ch, chg, rfl⟩ := hi
        exact .inl ⟨bytes, rest, mode, dcp, ch, chg, hp, hq, hd⟩
      · obtain ⟨hcv, hax⟩ := effect_templates (fun mode dcp ch chg he => hi ⟨mode, dcp, ch, chg, he⟩)
          (accepted rest s)
        exact hne.elim (absurd hcv) (absurd hax)
    · intro hne
      by_cases hi : ∃ data, i = .pec15 data
      · obtain ⟨data, rfl⟩ := hi
        exact .inl ⟨bytes, rest, data, hp, hq, hd⟩
      · exact absurd (effect_pecOut (fun data he => hi ⟨data, he⟩) (accepted rest s)) hne
  | read => exact ⟨fun hne => hne.elim (absurd rfl) (absurd rfl), fun hne => absurd rfl hne⟩
  | teardown hp hq => exact ⟨fun _ => .inr ⟨_, hp, hq⟩, fun _ => .inr ⟨_, hp, hq⟩⟩

/-- Settles O49: no case of a step but the teardown touches the pass-through bytes, and none the constants. -/
theorem neverWritten : Obligations.NeverWritten := by
  intro s t h
  cases step_next_iff.1 h with
  | environment =>
    have hk := sequenceKept_environmentMove s
    obtain ⟨hlen, hcomm⟩ := board_of_commBytes (commBytes_of_untouched (untouched_environmentMove s))
    exact ⟨hk.n, hk.par, .inl hlen, fun i hi hi' => .inl (hcomm i hi hi')⟩
  | @request bytes rest i =>
    obtain ⟨hlen, hcomm⟩ := board_of_commBytes (commBytes_effect i (accepted rest s))
    exact ⟨effect_n _ _, effect_par _ _, .inl hlen, fun i hi hi' => .inl (hcomm i hi hi')⟩
  | read => exact ⟨rfl, rfl, .inl rfl, fun _ _ _ => .inl rfl⟩
  | teardown hp hq =>
    refine ⟨rfl, rfl, .inr ⟨⟨_, hp, hq⟩, by simp [taken]⟩, fun i _ _ => .inr ⟨⟨_, hp, hq⟩, fun k hk => ?_⟩⟩
    simp [emptyBoard]

end Sys2Proof.Machine
end

section
/-! SUPPORT. Family 10_state: the accessors (10_state.md R14, R29, R34) and construction (R36). -/

namespace Sys2Proof.Machine

/-! ### Which element an accessor names -/

theorem bufferReg_of_some {s : State} {m : Memory} {k : Nat} {b : Byte} (hk : k < bufLen s.n)
    (hm : memRead m k = some b) : bufferReg s m k = some { val := b.setWidth 16, known := true } := by
  simp [bufferReg, hk, hm]

theorem bufferReg_of_none {s : State} {m : Memory} {k : Nat} (hk : k < bufLen s.n) (hm : memRead m k = none) :
    bufferReg s m k = some { val := 0, known := false } := by
  simp [bufferReg, hk, hm]

theorem bufferReg_beyond {s : State} {m : Memory} {k : Nat} (hk : bufLen s.n ≤ k) : bufferReg s m k = none := by
  simp [bufferReg, hk]

/-- The value of a flag as a number (10_state.md R29; log 34). -/
theorem setWidth_ofBool (b : Bool) : (BitVec.ofBool b).setWidth 16 = if b then 1 else 0 := by
  cases b <;> rfl

/-- Settles O50: an accessor read is `answerReg` of the element it names, and each accessor names its element. -/
theorem hostReadWithoutSideEffect : Obligations.HostReadWithoutSideEffect := by
  refine ⟨fun s e rest hp ht hq => ?_, fun s k hk => ?_, fun s k hk => ?_, fun s i h => ?_, fun s i j h => ?_,
    fun s => ?_⟩
  · have hstep : step s = answerReg e (hostElem s e) (taken rest s) := by
      rw [step_host hp hq, ← hostElem_taken rest s e]
      exact if_neg (by simp [ht])
    rw [hstep]
    refine ⟨fun v hv => ?_, fun v hv => ?_, fun hv => ?_⟩ <;> rw [hv] <;> rfl
  · exact ⟨fun b => bufferReg_of_some hk, fun b => bufferReg_of_some hk, fun h => ⟨0, bufferReg_of_none hk h⟩,
      fun h => ⟨0, bufferReg_of_none hk h⟩⟩
  · exact ⟨bufferReg_beyond hk, bufferReg_beyond hk⟩
  · refine ⟨fun j hj => ?_, fun j hj => ?_, fun j hj => ?_, fun j hj => ?_, fun j hj => ?_, fun j hj => ?_⟩ <;>
      simp [hostElem, widen, h, hj]
  · simp [hostElem, h]
  · refine ⟨fun h => ?_, fun h => ?_, fun h => ?_, fun j hj => ?_, fun j hj => ?_, rfl⟩
    · simp [hostElem, h, statusNumber]
    · simp [hostElem, h, statusNumber]
    · simp [hostElem, h, statusNumber]
    · simp [hostElem, hj, setWidth_ofBool]
    · simp [hostElem, hj]

/-- An entry no parse has written holds no value (10_state.md R36). -/
theorem emptyBoard_unknown :
    (∀ k (h : k < 6), emptyBoard.config[k].known = false ∧ emptyBoard.auxVoltage[k].known = false ∧
      emptyBoard.status[k].known = false) ∧
    (∀ k (h : k < 12), emptyBoard.cellVoltage[k].known = false) ∧
    ∀ k (h : k < 3), emptyBoard.comm[k].known = false := by
  simp [emptyBoard]

/-- Settles O51: a session is `State.fresh`, its mirror made of entries no parse has written. -/
theorem constructionValues : Obligations.ConstructionValues := by
  intro n par s h
  obtain rfl : State.fresh n par = s := by
    unfold State.construct at h
    split at h
    · cases h
    · exact Except.ok.inj h
  refine ⟨rfl, rfl, List.length_replicate, rfl, rfl, rfl, rfl, rfl, rfl, rfl, rfl, rfl, rfl, rfl, rfl, rfl, rfl,
    fun _ => ⟨rfl, rfl⟩, fun b hb => ?_⟩
  rw [List.eq_of_mem_replicate hb]
  exact emptyBoard_unknown

end Sys2Proof.Machine
end

section
/-! SUPPORT. No part of the block reads the chain's power state or its own record of the ports (10_state.md R22,
log 15): each part takes states that agree but for the two to states that agree but for the two. -/

namespace Sys2Proof.Machine

/-- `t` is `s` in everything but `pwr` and the recorded ports. -/
def SameBut (s t : State) : Prop := { t with pwr := s.pwr, ports := s.ports } = s

theorem sameBut_iff {s t : State} : SameBut s t ↔ ∃ p ps, t = { s with pwr := p, ports := ps } := by
  constructor
  · intro h
    exact ⟨t.pwr, t.ports, by rw [← h]⟩
  · rintro ⟨p, ps, rfl⟩
    rfl

theorem sameBut_with (s : State) (p : Power) (ps : List PortEvent) : SameBut s { s with pwr := p, ports := ps } := rfl

/-- `op` reads neither `pwr` nor the recorded ports, unless to write them. -/
def Blind (op : State → State) : Prop := ∀ ⦃s t⦄, SameBut s t → SameBut (op s) (op t)

theorem Blind.comp {f g : State → State} (hf : Blind f) (hg : Blind g) : Blind fun s => f (g s) :=
  fun _ _ h => hf (hg h)

/-- It is enough to put another `pwr` and other ports into the state. -/
theorem blind_of_with {op : State → State}
    (h : ∀ s p ps, SameBut (op s) (op { s with pwr := p, ports := ps })) : Blind op := by
  intro s t hst
  obtain ⟨p, ps, rfl⟩ := sameBut_iff.1 hst
  exact h s p ps

theorem blind_id : Blind fun s => s := fun _ _ h => h

/-- A choice by what `op` may read. -/
theorem Blind.ite {c : State → Prop} [DecidablePred c] {f g : State → State}
    (hc : ∀ s p ps, c { s with pwr := p, ports := ps } ↔ c s) (hf : Blind f) (hg : Blind g) :
    Blind fun s => if c s then f s else g s := by
  intro s t h
  obtain ⟨p, ps, rfl⟩ := sameBut_iff.1 h
  by_cases hs : c s
  · simpa only [if_pos hs, if_pos ((hc s p ps).2 hs)] using hf h
  · simpa only [if_neg hs, if_neg (mt (hc s p ps).1 hs)] using hg h

/-- The length of a frame is that of the chain. -/
theorem Blind.at_n {op : Nat → State → State} (h : ∀ n, Blind (op n)) : Blind fun s => op s.n s := by
  intro s t hst
  have hn : t.n = s.n := by rw [← hst]
  simpa only [hn] using h s.n hst

theorem blind_chainSleep : Blind chainSleep := blind_of_with fun _ _ _ => rfl

theorem blind_beginBus (f : Frame) : Blind (beginBus f) := blind_of_with fun _ _ _ => rfl

/-! ### The stages -/

/-- The flags are those of `rx` or free ones, by the status; then the result (42_frame_read_parse.md R130, R132). -/
theorem blind_endRead : Blind endRead :=
  Blind.comp (f := fun s => { setPhase .idle s with answer := .readResult s.status s.pecFail.val })
    (blind_of_with fun _ _ _ => rfl)
    (Blind.ite (c := fun s => s.status = .ok) (fun _ _ _ => Iff.rfl) (blind_of_with fun _ _ _ => rfl)
      (blind_of_with fun _ _ _ => rfl))

theorem blind_stage (t : Task) : Blind (stage t) := by
  cases t with
  | endRead => exact blind_endRead
  | _ => exact blind_of_with fun _ _ _ => rfl

theorem blind_runTasks (ts : List Task) : Blind (runTasks ts) := by
  induction ts with
  | nil => exact blind_of_with fun _ _ _ => rfl
  | cons t rest ih =>
    cases ht : transferOf t with
    | none =>
      have : runTasks (t :: rest) = fun s => runTasks rest (stage t s) := funext (runTasks_stage ht rest)
      exact this ▸ ih.comp (blind_stage t)
    | some mf =>
      have : runTasks (t :: rest) = fun s => beginBus mf.2 { s with todo := t :: rest } :=
        funext fun s => by simp [runTasks, ht]
      exact this ▸ (blind_beginBus mf.2).comp (blind_of_with fun _ _ _ => rfl)

/-! ### The moves of the environment -/

theorem blind_startTransfer (m : Mode) (f : Frame) : Blind (startTransfer m f) := blind_of_with fun s p ps => by
  cases m <;> cases hd : frameDir f <;> simp only [startTransfer, issue, hd] <;> rfl

theorem blind_moveByte (b : Byte) (len : Nat) (dir : Dir) : Blind (moveByte b len dir) :=
  Blind.ite (c := fun s => s.moved < len) (fun _ _ _ => Iff.rfl) (blind_of_with fun _ _ _ => rfl) blind_id

theorem blind_unspecifyRx (len : Nat) : Blind (unspecifyRx len) := blind_of_with fun _ _ _ => rfl

/-- A failed transfer leaves `rx` unspecified, then chip-select is released (43_transport.md R158, R159). -/
theorem blind_finishBlocking (st : Status) (len : Nat) : Blind (finishBlocking st len) :=
  have hrx : Blind fun s => if st = .ok then s else unspecifyRx len s :=
    Blind.ite (c := fun _ => st = .ok) (fun _ _ _ => Iff.rfl) blind_id (blind_unspecifyRx len)
  Blind.comp (f := fun s => { setCs false s with status := st }) (blind_of_with fun _ _ _ => rfl)
    (hrx.comp (g := fun s => { s with busState := .idle, moved := 0 }) (blind_of_with fun _ _ _ => rfl))

/-- A read releases chip-select, an error leaves `rx` unspecified, then the status (43_transport.md R160 to R164). -/
theorem blind_takeCompletion (len : Nat) (dir : Dir) : Blind (takeCompletion len dir) :=
  have hcs : Blind fun s => if dir = .duplex then setCs false s else s :=
    Blind.ite (c := fun _ => dir = .duplex) (fun _ _ _ => Iff.rfl) (blind_of_with fun _ _ _ => rfl) blind_id
  have hrx : Blind fun s => if s.errFlag = true then unspecifyRx len s else s :=
    Blind.ite (c := fun s => s.errFlag = true) (fun _ _ _ => Iff.rfl) (blind_unspecifyRx len) blind_id
  Blind.comp (f := fun s => { s with status := if s.errFlag then .busError else .ok }) (blind_of_with fun _ _ _ => rfl)
    (hrx.comp (hcs.comp (g := fun s => { s with doneSig := false, moved := 0 }) (blind_of_with fun _ _ _ => rfl)))

theorem blind_inWaitIdle (e : EnvEvent) (m : Mode) (f : Frame) (rest : List Task) : Blind (inWaitIdle e m f rest) := by
  cases e with
  | poll bus expired =>
    have hb : Blind fun s => { s with busState := bus } := blind_of_with fun _ _ _ => rfl
    have hto : Blind idleTimeout := blind_of_with fun _ _ _ => rfl
    have hy : Blind fun s => delayFor .poll s.par.given.tPoll s := blind_of_with fun _ _ _ => rfl
    have hwait := Blind.ite (c := fun _ => timesOut m expired = true) (fun _ _ _ => Iff.rfl)
      ((blind_runTasks rest).comp hto) hy
    have hpoll := Blind.ite (c := fun _ => mayStart m bus = true) (fun _ _ _ => Iff.rfl) (blind_startTransfer m f) hwait
    exact hpoll.comp hb
  | sleep => exact blind_of_with fun _ _ _ => rfl
  | _ => exact blind_id

theorem blind_inXferB (e : EnvEvent) (f : Frame) (rest : List Task) : Blind (inXferB e f rest) := by
  cases e with
  | byte b => exact Blind.at_n fun n => blind_moveByte b (frameLen n f) (frameDir f)
  | ret st =>
    exact Blind.ite (c := fun s => mayReturn st s.moved (frameLen s.n f) = true) (fun _ _ _ => Iff.rfl)
      ((blind_runTasks rest).comp (Blind.at_n fun n => blind_finishBlocking st (frameLen n f))) blind_id
  | _ => exact blind_id

theorem blind_inWaitDone (e : EnvEvent) (f : Frame) (rest : List Task) : Blind (inWaitDone e f rest) := by
  cases e with
  | byte b =>
    exact Blind.ite (c := fun s => s.inflight = none) (fun _ _ _ => Iff.rfl) blind_id
      (Blind.at_n fun n => blind_moveByte b (frameLen n f) (frameDir f))
  | complete =>
    exact Blind.ite (c := fun s => s.inflight ≠ none ∧ s.moved = frameLen s.n f) (fun _ _ _ => Iff.rfl)
      (blind_of_with fun _ _ _ => rfl) blind_id
  | error =>
    exact Blind.ite (c := fun s => s.inflight ≠ none ∨ s.doneSig = true) (fun _ _ _ => Iff.rfl)
      (blind_of_with fun _ _ _ => rfl) blind_id
  | resume =>
    exact Blind.ite (c := fun s => s.doneSig = true) (fun _ _ _ => Iff.rfl)
      ((blind_runTasks rest).comp (Blind.at_n fun n => blind_takeCompletion (frameLen n f) (frameDir f))) blind_id
  | _ => exact blind_id

/-- Outside phase IDLE nothing moves where no transfer is in progress. -/
theorem react_of_no_transfer {s : State} (hp : s.phase ≠ .idle) (ht : ∀ m f rest, s.todo ≠ .bus m f :: rest)
    (e : EnvEvent) : react e s = s := by
  unfold react
  split
  · exact absurd ‹_› hp
  iterate 3
    · split
      · exact absurd ‹_› (ht _ _ _)
      · rfl
  all_goals rfl

theorem blind_react (e : EnvEvent) : Blind (react e) := by
  intro s t h
  have hp : t.phase = s.phase := by rw [← h]
  have hq : t.todo = s.todo := by rw [← h]
  by_cases hi : s.phase = .idle
  · rw [react_idle hi, react_idle (hp.trans hi)]
    exact Blind.ite (c := fun _ => e = .sleep) (fun _ _ _ => Iff.rfl) blind_chainSleep blind_id h
  · by_cases hb : ∃ m f rest, s.todo = .bus m f :: rest
    · obtain ⟨m, f, rest, ht⟩ := hb
      cases hs : s.phase with
      | idle => exact absurd hs hi
      | waitIdle =>
        rw [react_waitIdle hs ht, react_waitIdle (hp.trans hs) (hq.trans ht)]
        exact blind_inWaitIdle e m f rest h
      | xferB =>
        rw [react_xferB hs ht, react_xferB (hp.trans hs) (hq.trans ht)]
        exact blind_inXferB e f rest h
      | waitDone =>
        rw [react_waitDone hs ht, react_waitDone (hp.trans hs) (hq.trans ht)]
        exact blind_inWaitDone e f rest h
      | _ => simpa only [react, hp, hs] using h
    · have ht : ∀ m f rest, s.todo ≠ .bus m f :: rest := fun m f rest h => hb ⟨m, f, rest, h⟩
      rwa [react_of_no_transfer hi ht, react_of_no_transfer (hp ▸ hi) (hq ▸ ht)]

theorem blind_drive (es : List EnvEvent) : Blind (drive es) := by
  induction es with
  | nil => exact blind_of_with fun _ _ _ => rfl
  | cons e rest ih =>
    exact Blind.ite (c := fun s => s.phase = .idle) (fun _ _ _ => Iff.rfl) (blind_of_with fun _ _ _ => rfl)
      (ih.comp (blind_react e))

theorem blind_environmentMove : Blind environmentMove := blind_of_with fun s p ps => by
  unfold environmentMove
  cases s.script with
  | nil => exact blind_react _ (sameBut_with _ p ps)
  | cons e rest => exact blind_react _ (sameBut_with _ p ps)

theorem blind_operate (ts : List Task) : Blind (operate ts) := by
  intro s t h
  have hs : t.script = s.script := by rw [← h]
  unfold operate
  rw [hs]
  exact blind_drive _ (blind_runTasks ts h)

theorem blind_localEffect (i : Instr) : Blind (localEffect i) := by
  cases i <;> exact blind_of_with fun _ _ _ => rfl

/-- The stages of a request depend on the session's constants and templates. -/
theorem requestStages_of_sameBut {s t : State} (h : SameBut s t) (i : Instr) :
    requestStages t i = requestStages s i := by
  obtain ⟨p, ps, rfl⟩ := sameBut_iff.1 h
  cases i <;> rfl

theorem blind_effect (i : Instr) : Blind (effect i) := by
  intro s t h
  unfold effect
  rw [requestStages_of_sameBut h]
  cases requestStages s i with
  | some ts => exact blind_operate ts h
  | none => exact blind_localEffect i h

theorem blind_accepted (rest : List HostAction) : Blind (accepted rest) := blind_of_with fun _ _ _ => rfl

/-- Settles O21: each case of a step is blind to the power state. -/
theorem powerStateNotRead : Obligations.PowerStateNotRead := by
  intro s t p h
  have hs : SameBut s { s with pwr := p } := sameBut_with s p s.ports
  cases step_next_iff.1 h with
  | environment he =>
    exact ⟨_, step_next_iff.2 (.environment (s := { s with pwr := p }) he), blind_environmentMove hs⟩
  | @request bytes rest i hp hq hd hr hw =>
    exact ⟨_, step_next_iff.2 (.request (s := { s with pwr := p }) hp hq hd hr hw),
      blind_effect i (blind_accepted rest hs)⟩
  | @read e rest v hp hq ht he =>
    have he' : hostElem { s with pwr := p } e = some { val := v, known := true } := by
      rw [← he]; cases e <;> rfl
    exact ⟨_, step_next_iff.2 (.read (s := { s with pwr := p }) hp hq ht he'), rfl⟩
  | teardown hp hq => exact ⟨_, step_next_iff.2 (.teardown (s := { s with pwr := p }) hp hq), rfl⟩

end Sys2Proof.Machine
end

section
/-! SUPPORT. The invariant (10_state.md R11 to R13, R21, R26, R27; 41_frame_write.md R114): its two halves, what the
stores hold and where the control stands, each kept by every stage and every move. -/

namespace Sys2Proof.Machine

/-! ### The stores -/

/-- A buffer in canonical form that holds nothing outside `0 .. L-1` (10_state.md R12, R13). -/
structure BufferOk (n : Nat) (m : Memory) : Prop where
  wf : Memory.wf m
  within : ∀ c ∈ m, c.1 < bufLen n

theorem bufferOk_nil (n : Nat) : BufferOk n [] := ⟨List.Pairwise.nil, by simp⟩

theorem BufferOk.memWrite {n a : Nat} {m : Memory} (h : BufferOk n m) (ha : a < bufLen n) (v : Byte) :
    BufferOk n (memWrite m a v) := by
  refine ⟨memWrite_wf h.wf a v, fun c hc => ?_⟩
  obtain rfl | hc := mem_memWrite hc
  · exact ha
  · exact h.within c hc

theorem BufferOk.memWriteBytes {n : Nat} {m : Memory} (h : BufferOk n m) {bs : List Byte}
    (hb : bs.length ≤ bufLen n) : BufferOk n (memWriteBytes m 0 bs) := by
  refine ⟨memWriteBytes_wf h.wf 0 bs, fun c hc => ?_⟩
  obtain hc | hc := mem_memWriteBytes hc
  · omega
  · exact h.within c hc

theorem BufferOk.memUnspecify {n len : Nat} {m : Memory} (h : BufferOk n m) (hl : len ≤ bufLen n) (d : Nat) :
    BufferOk n (memUnspecify d m len) := by
  refine ⟨memUnspecify_wf h.wf d len, fun c hc => ?_⟩
  obtain hc | hc := mem_memUnspecify hc
  · omega
  · exact h.within c hc

/-- What the stores of a session of `n` chips hold. -/
structure StoresOk (n : Nat) (s : State) : Prop where
  chips : s.n = n
  pos : 1 ≤ n
  board : s.board.length = n
  flags : s.pecFail.val.length = n
  tx : BufferOk n s.tx
  rx : BufferOk n s.rx
  rxUnspec : s.rxUnspec ≤ bufLen n

theorem storesOk_iff {s : State} : StoresOk s.n s ↔ s.SizesOk ∧ s.BuffersOk := by
  constructor
  · rintro ⟨-, hpos, hboard, hflags, htx, hrx, hun⟩
    exact ⟨⟨hpos, hboard, hflags⟩, htx.wf, hrx.wf, htx.within, hrx.within, hun⟩
  · rintro ⟨⟨hpos, hboard, hflags⟩, htx, hrx, htx', hrx', hun⟩
    exact ⟨rfl, hpos, hboard, hflags, ⟨htx, htx'⟩, ⟨hrx, hrx'⟩, hun⟩

theorem StoresOk.stage {n : Nat} {s : State} (h : StoresOk n s) (t : Task) : StoresOk n (stage t s) := by
  obtain ⟨hn, hpos, hboard, hflags, htx, hrx, hun⟩ := h
  cases t <;> exact ⟨by simpa [Machine.stage], hpos, by simpa [Machine.stage], by simpa [Machine.stage],
    by simpa [Machine.stage], by simpa [Machine.stage], by simpa [Machine.stage]⟩

/-- The frame is assembled in `tx`, where it fits (41_frame_write.md R114). -/
theorem StoresOk.beginBus {n : Nat} {s : State} {f : Frame} (h : StoresOk n s) (hf : frameFits n f = true) :
    StoresOk n (beginBus f s) := by
  have hlen : (frameBytes s.n f).length ≤ bufLen n := by
    rw [h.chips, length_frameBytes hf]
    exact frameLen_le n f
  exact ⟨by simp [h.chips], h.pos, by simp [h.board], by simp [h.flags], by simpa using h.tx.memWriteBytes hlen,
    by simpa using h.rx, by simpa using h.rxUnspec⟩

/-- The start of a write leaves the bytes of `rx` within the frame unspecified, the start of a read marks none
(41_frame_write.md R115). -/
theorem StoresOk.startTransfer {n : Nat} {s : State} (h : StoresOk n s) (m : Mode) (f : Frame) :
    StoresOk n (startTransfer m f s) := by
  have hlen : frameLen s.n f ≤ bufLen n := h.chips ▸ frameLen_le s.n f
  refine ⟨by simp [h.chips], h.pos, by simp [h.board], by simp [h.flags], by simpa using h.tx, ?_, ?_⟩
  · rw [startTransfer_rx]
    split
    · exact h.rx
    · exact h.rx.memUnspecify hlen _
  · rw [startTransfer_rxUnspec]
    split
    · exact Nat.zero_le _
    · exact max_le h.rxUnspec hlen

theorem StoresOk.moveByte {n : Nat} {s : State} (h : StoresOk n s) (b : Byte) (f : Frame) :
    StoresOk n (moveByte b (frameLen s.n f) (frameDir f) s) := by
  have hlen : frameLen s.n f ≤ bufLen n := h.chips ▸ frameLen_le s.n f
  refine ⟨by simp [h.chips], h.pos, by simp [h.board], by simp [h.flags], by simpa using h.tx, ?_,
    by simpa using h.rxUnspec⟩
  rw [moveByte_rx]
  split
  · exact h.rx.memWrite (by omega) b
  · exact h.rx

theorem StoresOk.finishBlocking {n : Nat} {s : State} (h : StoresOk n s) (st : Status) (f : Frame) :
    StoresOk n (finishBlocking st (frameLen s.n f) s) := by
  have hlen : frameLen s.n f ≤ bufLen n := h.chips ▸ frameLen_le s.n f
  refine ⟨by simp [h.chips], h.pos, by simp [h.board], by simp [h.flags], by simpa using h.tx, ?_, ?_⟩
  · rw [finishBlocking_rx]
    split
    · exact h.rx
    · exact h.rx.memUnspecify hlen _
  · rw [finishBlocking_rxUnspec]
    split
    · exact h.rxUnspec
    · exact max_le h.rxUnspec hlen

theorem StoresOk.takeCompletion {n : Nat} {s : State} (h : StoresOk n s) (f : Frame) :
    StoresOk n (takeCompletion (frameLen s.n f) (frameDir f) s) := by
  have hlen : frameLen s.n f ≤ bufLen n := h.chips ▸ frameLen_le s.n f
  refine ⟨by simp [h.chips], h.pos, by simp [h.board], by simp [h.flags], by simpa using h.tx, ?_, ?_⟩
  · rw [takeCompletion_rx]
    split
    · exact h.rx.memUnspecify hlen _
    · exact h.rx
  · rw [takeCompletion_rxUnspec]
    split
    · exact max_le h.rxUnspec hlen
    · exact h.rxUnspec

/-- Fields the stores do not depend on. -/
theorem StoresOk.congr {n : Nat} {s t : State} (h : StoresOk n s) (hn : t.n = s.n) (hboard : t.board = s.board)
    (hflags : t.pecFail = s.pecFail) (htx : t.tx = s.tx) (hrx : t.rx = s.rx) (hun : t.rxUnspec = s.rxUnspec) :
    StoresOk n t :=
  ⟨hn.trans h.chips, h.pos, hboard ▸ h.board, hflags ▸ h.flags, htx ▸ h.tx, hrx ▸ h.rx, hun ▸ h.rxUnspec⟩

/-- Operations whose frames fit the chain keep the stores. -/
theorem kept_storesOk (n : Nat) : Kept (fun t => taskFits n t = true) (StoresOk n) where
  todo _ _ h := h.congr rfl rfl rfl rfl rfl rfl
  script _ _ h := h.congr rfl rfl rfl rfl rfl rfl
  draws _ _ h := h.congr rfl rfl rfl rfl rfl rfl
  stage t _ _ _ h := h.stage t
  bus _ _ _ hf h := h.beginBus hf
  poll _ _ h := h.congr rfl rfl rfl rfl rfl rfl
  delay _ _ _ h := h.congr rfl rfl rfl rfl rfl rfl
  sleep _ h := h.congr rfl rfl rfl rfl rfl rfl
  start m f _ _ h := h.startTransfer m f
  timeout _ h := h.congr rfl rfl rfl rfl rfl rfl
  move b _ f _ _ h := h.moveByte b f
  ret st _ f _ _ h := h.finishBlocking st f
  complete _ h := h.congr rfl rfl rfl rfl rfl rfl
  error _ h := h.congr rfl rfl rfl rfl rfl rfl
  take _ f _ _ h := h.takeCompletion f

/-! ### Where the control stands -/

/-- The sequencer has the transfer of `f` in hand, its frame in `tx`, `rest` to do after it. -/
structure Sending (m : Mode) (f : Frame) (rest : List Task) (s : State) : Prop where
  todo : s.todo = .bus m f :: rest
  fits : ∀ t ∈ s.todo, taskFits s.n t = true
  staged : staged s.todo = true
  frame : memReadBytes s.tx 0 (frameLen s.n f) = some (frameBytes s.n f)

theorem Sending.congr {m : Mode} {f : Frame} {rest : List Task} {s t : State} (h : Sending m f rest s)
    (hn : t.n = s.n) (htodo : t.todo = s.todo) (htx : t.tx = s.tx) : Sending m f rest t := by
  obtain ⟨h1, h2, h3, h4⟩ := h
  constructor <;> simpa only [hn, htodo, htx]

/-- The four phases in which one step can leave the block, each with what goes with it (10_state.md R21, R26, R27). -/
inductive Settled (s : State) : Prop where
  | idle (hp : s.phase = .idle) (ht : s.todo = []) (hi : s.inflight = none) (hd : s.doneSig = false)
  | waitIdle {m : Mode} {f : Frame} {rest : List Task} (hp : s.phase = .waitIdle) (hs : Sending m f rest s)
      (hc : s.cs = false) (hi : s.inflight = none) (hd : s.doneSig = false)
  | xferB {tmo : BitVec 32} {f : Frame} {rest : List Task} (hp : s.phase = .xferB) (hs : Sending (.b tmo) f rest s)
      (hc : s.cs = true) (hi : s.inflight = none) (hd : s.doneSig = false) (hm : s.moved ≤ frameLen s.n f)
  | waitDone {f : Frame} {rest : List Task} (hp : s.phase = .waitDone) (hs : Sending .a f rest s) (hc : s.cs = true)
      (hm : s.moved ≤ frameLen s.n f)
      (hx : (s.inflight = some { len := frameLen s.n f, dir := frameDir f } ∧ s.doneSig = false) ∨
        (s.inflight = none ∧ s.doneSig = true ∧ s.moved = frameLen s.n f))

theorem currentTransfer_eq_some {s : State} {m : Mode} {f : Frame} :
    currentTransfer s = some (m, f) ↔ ∃ rest, s.todo = .bus m f :: rest := by
  unfold currentTransfer
  split
  · rename_i m' f' rest h
    simp [h]
  · rename_i h
    simp only [reduceCtorEq, false_iff, not_exists]
    exact h m f

theorem Sending.currentTransfer {m : Mode} {f : Frame} {rest : List Task} {s : State} (h : Sending m f rest s) :
    currentTransfer s = some (m, f) :=
  currentTransfer_eq_some.2 ⟨rest, h.todo⟩

theorem Sending.frameReady {m : Mode} {f : Frame} {rest : List Task} {s : State} (h : Sending m f rest s) :
    s.FrameReady := by
  intro _ m' f' hc
  rw [h.currentTransfer] at hc
  cases hc
  exact h.frame

/-- With the frame ready, the transfer in progress is one the sequencer has in hand. -/
theorem sending_of_currentTransfer {m : Mode} {f : Frame} {s : State} (hp : s.phase ≠ .idle)
    (hfit : ∀ t ∈ s.todo, taskFits s.n t = true) (hst : staged s.todo = true) (hf : s.FrameReady)
    (hc : currentTransfer s = some (m, f)) : ∃ rest, Sending m f rest s := by
  obtain ⟨rest, ht⟩ := currentTransfer_eq_some.1 hc
  exact ⟨rest, ht, hfit, hst, hf hp m f hc⟩

theorem settled_iff {s : State} : Settled s ↔ s.ControlOk ∧ s.FrameReady := by
  constructor
  · rintro (⟨hp, ht, hi, hd⟩ | ⟨hp, hs, hc, hi, hd⟩ | ⟨hp, hs, hc, hi, hd, hm⟩ | ⟨hp, hs, hc, hm, hx⟩)
    · refine ⟨?_, fun hne => absurd hp hne⟩
      simp only [State.ControlOk, hp]
      exact ⟨by simp [ht], by simp [ht, staged], ht, hi, hd⟩
    · refine ⟨?_, hs.frameReady⟩
      simp only [State.ControlOk, hp]
      exact ⟨hs.fits, hs.staged, by simp [hs.currentTransfer], hc, hi, hd⟩
    · refine ⟨?_, hs.frameReady⟩
      simp only [State.ControlOk, hp]
      exact ⟨hs.fits, hs.staged, _, _, hs.currentTransfer, hc, hi, hd, hm⟩
    · refine ⟨?_, hs.frameReady⟩
      simp only [State.ControlOk, hp]
      exact ⟨hs.fits, hs.staged, _, hs.currentTransfer, hc, hm, hx⟩
  · rintro ⟨⟨hfit, hst, hctl⟩, hf⟩
    cases hp : s.phase <;> simp only [hp] at hctl
    case idle =>
      obtain ⟨ht, hi, hd⟩ := hctl
      exact .idle hp ht hi hd
    case waitIdle =>
      obtain ⟨hsome, hc, hi, hd⟩ := hctl
      obtain ⟨⟨m, f⟩, hcur⟩ := Option.isSome_iff_exists.1 hsome
      obtain ⟨rest, hs⟩ := sending_of_currentTransfer (by simp [hp]) hfit hst hf hcur
      exact .waitIdle hp hs hc hi hd
    case xferB =>
      obtain ⟨tmo, f, hcur, hc, hi, hd, hm⟩ := hctl
      obtain ⟨rest, hs⟩ := sending_of_currentTransfer (by simp [hp]) hfit hst hf hcur
      exact .xferB hp hs hc hi hd hm
    case waitDone =>
      obtain ⟨f, hcur, hc, hm, hx⟩ := hctl
      obtain ⟨rest, hs⟩ := sending_of_currentTransfer (by simp [hp]) hfit hst hf hcur
      exact .waitDone hp hs hc hm hx

/-- The invariant, by halves. -/
theorem inv_iff {s : State} : s.Inv ↔ StoresOk s.n s ∧ Settled s := by
  rw [storesOk_iff, settled_iff]
  exact ⟨fun ⟨hn, hb, hc, hf⟩ => ⟨⟨hn, hb⟩, hc, hf⟩, fun ⟨⟨hn, hb⟩, hc, hf⟩ => ⟨hn, hb, hc, hf⟩⟩

theorem inv_of_storesOk {n : Nat} {s : State} (hst : StoresOk n s) (hc : Settled s) : s.Inv := by
  obtain rfl := hst.chips
  exact inv_iff.2 ⟨hst, hc⟩

theorem Settled.fits {s : State} (h : Settled s) : ∀ t ∈ s.todo, taskFits s.n t = true := by
  obtain ⟨⟨hfit, -⟩, -⟩ := settled_iff.1 h
  exact hfit

/-- In phase IDLE nothing is left to do and no transfer is outstanding. -/
theorem Settled.of_idle {s : State} (h : Settled s) (hp : s.phase = .idle) :
    s.todo = [] ∧ s.inflight = none ∧ s.doneSig = false := by
  cases h with
  | idle _ ht hi hd => exact ⟨ht, hi, hd⟩
  | waitIdle hq | xferB hq | waitDone hq => simp [hp] at hq

/-! ### Stages -/

@[simp] theorem stage_n (t : Task) (s : State) : (stage t s).n = s.n := by cases t <;> simp [stage]

@[simp] theorem stage_inflight (t : Task) (s : State) : (stage t s).inflight = s.inflight := by
  cases t <;> simp [stage]

@[simp] theorem stage_doneSig (t : Task) (s : State) : (stage t s).doneSig = s.doneSig := by cases t <;> simp [stage]

theorem stage_phase {s : State} (h : s.phase = .idle) (t : Task) : (stage t s).phase = .idle := by
  cases t <;> simp [stage, h]

theorem transferOf_eq_some {t : Task} {mf : Mode × Frame} (h : transferOf t = some mf) : t = .bus mf.1 mf.2 := by
  cases t <;> simp only [transferOf, reduceCtorEq, Option.some.injEq] at h
  rw [← h]

theorem staged_tail {t : Task} {rest : List Task} (h : staged (t :: rest) = true) : staged rest = true := by
  simp only [staged, Bool.and_eq_true] at h
  exact h.2

/-- After a transfer comes stage 4 of its operation (41_frame_write.md R110). -/
theorem eq_resultTask_of_staged {m : Mode} {f : Frame} {rest : List Task} (h : staged (.bus m f :: rest) = true) :
    ∃ more, rest = resultTask f :: more := by
  simp only [staged, transferOf, Bool.and_eq_true, beq_iff_eq] at h
  exact List.head?_eq_some_iff.1 h.1

/-- A begun transfer has its frame in `tx` (41_frame_write.md R114). -/
theorem sending_beginBus {m : Mode} {f : Frame} {rest : List Task} {s : State}
    (hfit : ∀ t ∈ Task.bus m f :: rest, taskFits s.n t = true) (hst : staged (.bus m f :: rest) = true) :
    Sending m f rest (beginBus f { s with todo := .bus m f :: rest }) := by
  have hlen : (frameBytes s.n f).length = frameLen s.n f := length_frameBytes (hfit (.bus m f) (by simp))
  refine ⟨by simp, by simpa using hfit, by simpa using hst, ?_⟩
  simpa [hlen] using memReadBytes_memWriteBytes s.tx 0 (frameBytes s.n f)

/-- Stages run from phase IDLE settle in it or in an idle wait. -/
theorem settled_runTasks {ts : List Task} {s : State} (hp : s.phase = .idle) (hi : s.inflight = none)
    (hd : s.doneSig = false) (hfit : ∀ t ∈ ts, taskFits s.n t = true) (hst : staged ts = true) :
    Settled (runTasks ts s) := by
  induction ts generalizing s with
  | nil => exact .idle hp rfl hi hd
  | cons t rest ih =>
    cases ht : transferOf t with
    | none =>
      rw [runTasks_stage ht]
      exact ih (stage_phase hp t) (by simpa) (by simpa) (fun u hu => by simpa using hfit u (by simp [hu]))
        (staged_tail hst)
    | some mf =>
      obtain rfl := transferOf_eq_some ht
      exact .waitIdle (by simp) (sending_beginBus hfit hst) (by simp) (by simpa) (by simpa)

/-- A transfer is over, however it ended: stage 4 leaves the block idle and the stages after it settle. -/
theorem Sending.settled_rest {m : Mode} {f : Frame} {rest : List Task} {s t : State} (h : Sending m f rest s)
    (hn : t.n = s.n) (hi : t.inflight = none) (hd : t.doneSig = false) : Settled (runTasks rest t) := by
  obtain ⟨htodo, hfit, hst, -⟩ := h
  rw [htodo] at hst hfit
  obtain ⟨more, rfl⟩ := eq_resultTask_of_staged hst
  rw [runTasks_stage (transferOf_resultTask f)]
  exact settled_runTasks (phase_resultTask f t) (by simpa) (by simpa)
    (fun u hu => by simpa [hn] using hfit u (by simp [hu])) (staged_tail (staged_tail hst))

/-! ### Moves -/

/-- A transfer starts (43_transport.md R156, R160). -/
theorem Sending.settled_startTransfer {m : Mode} {f : Frame} {rest : List Task} {s : State} (h : Sending m f rest s)
    (hi : s.inflight = none) (hd : s.doneSig = false) : Settled (startTransfer m f s) := by
  have hs : Sending m f rest (startTransfer m f s) := h.congr (by simp) (by simp) (by simp)
  cases m with
  | b tmo => exact .xferB (by simp) hs (by simp) (by simpa) (by simpa) (by simp)
  | a => exact .waitDone (by simp) hs (by simp) (by simp) (.inl ⟨by simp, by simpa⟩)

theorem moveByte_moved_le {len : Nat} {s : State} (h : s.moved ≤ len) (b : Byte) (dir : Dir) :
    (moveByte b len dir s).moved ≤ len := by
  rw [moveByte_moved]
  split <;> omega

theorem settled_inWaitIdle {m : Mode} {f : Frame} {rest : List Task} {s : State} (hp : s.phase = .waitIdle)
    (hs : Sending m f rest s) (hc : s.cs = false) (hi : s.inflight = none) (hd : s.doneSig = false) (e : EnvEvent) :
    Settled (inWaitIdle e m f rest s) := by
  cases e with
  | poll bus expired =>
    have hb : Sending m f rest { s with busState := bus } := hs.congr rfl rfl rfl
    simp only [inWaitIdle]
    split
    · exact hb.settled_startTransfer hi hd
    · split
      · exact hb.settled_rest rfl hi hd
      · exact .waitIdle hp (hb.congr rfl rfl rfl) hc hi hd
  | sleep => exact .waitIdle hp (hs.congr rfl rfl rfl) hc hi hd
  | _ => exact .waitIdle hp hs hc hi hd

theorem settled_inXferB {tmo : BitVec 32} {f : Frame} {rest : List Task} {s : State} (hp : s.phase = .xferB)
    (hs : Sending (.b tmo) f rest s) (hc : s.cs = true) (hi : s.inflight = none) (hd : s.doneSig = false)
    (hm : s.moved ≤ frameLen s.n f) (e : EnvEvent) : Settled (inXferB e f rest s) := by
  cases e with
  | byte b =>
    exact .xferB (by simpa [inXferB]) (hs.congr (by simp [inXferB]) (by simp [inXferB]) (by simp [inXferB]))
      (by simpa [inXferB]) (by simpa [inXferB]) (by simpa [inXferB])
      (by simpa only [inXferB, moveByte_n] using moveByte_moved_le hm b (frameDir f))
  | ret st =>
    simp only [inXferB]
    split
    · exact hs.settled_rest (by simp) (by simpa) (by simpa)
    · exact .xferB hp hs hc hi hd hm
  | _ => exact .xferB hp hs hc hi hd hm

theorem settled_inWaitDone {f : Frame} {rest : List Task} {s : State} (hp : s.phase = .waitDone)
    (hs : Sending .a f rest s) (hc : s.cs = true) (hm : s.moved ≤ frameLen s.n f)
    (hx : (s.inflight = some { len := frameLen s.n f, dir := frameDir f } ∧ s.doneSig = false) ∨
      (s.inflight = none ∧ s.doneSig = true ∧ s.moved = frameLen s.n f)) (e : EnvEvent) :
    Settled (inWaitDone e f rest s) := by
  have same : Settled s := .waitDone hp hs hc hm hx
  cases e with
  | byte b =>
    simp only [inWaitDone]
    split
    · exact same
    · rename_i hne
      obtain ⟨hi, hd⟩ := hx.resolve_right fun h => hne h.1
      exact .waitDone (by simpa) (hs.congr (by simp) (by simp) (by simp)) (by simpa)
        (by simpa only [moveByte_n] using moveByte_moved_le hm b (frameDir f)) (.inl ⟨by simpa, by simpa⟩)
  | complete =>
    simp only [inWaitDone]
    split
    · rename_i h
      exact .waitDone hp (hs.congr rfl rfl rfl) hc hm (.inr ⟨rfl, rfl, h.2⟩)
    · exact same
  | error =>
    simp only [inWaitDone]
    split
    · exact .waitDone hp (hs.congr rfl rfl rfl) hc hm hx
    · exact same
  | resume =>
    simp only [inWaitDone]
    split
    · rename_i hd
      obtain ⟨hi, -, -⟩ := hx.resolve_left fun h => by simp [h.2] at hd
      exact hs.settled_rest (by simp) (by simpa) (by simp)
    · exact same
  | _ => exact same

theorem Settled.react {s : State} (h : Settled s) (e : EnvEvent) : Settled (react e s) := by
  cases h with
  | idle hp ht hi hd =>
    rw [react_idle hp]
    split
    · exact .idle hp ht hi hd
    · exact .idle hp ht hi hd
  | waitIdle hp hs hc hi hd =>
    rw [react_waitIdle hp hs.todo]
    exact settled_inWaitIdle hp hs hc hi hd e
  | xferB hp hs hc hi hd hm =>
    rw [react_xferB hp hs.todo]
    exact settled_inXferB hp hs hc hi hd hm e
  | waitDone hp hs hc hm hx =>
    rw [react_waitDone hp hs.todo]
    exact settled_inWaitDone hp hs hc hm hx e

/-- The control does not depend on the environment's moves to come, nor on how many values were drawn. -/
theorem Settled.with {s : State} (h : Settled s) (es : List EnvEvent) (d : Nat) :
    Settled { s with script := es, draws := d } := by
  have hc := settled_iff.1 h
  exact settled_iff.2 hc

theorem Settled.drive {es : List EnvEvent} {s : State} (h : Settled s) : Settled (drive es s) := by
  induction es generalizing s with
  | nil => exact h.with [] s.draws
  | cons e rest ih =>
    simp only [Machine.drive]
    split
    · exact h.with (e :: rest) s.draws
    · exact ih (h.react e)

theorem Settled.environmentMove {s : State} (h : Settled s) : Settled (environmentMove s) := by
  unfold Machine.environmentMove
  split
  · exact (h.with s.script (s.draws + 1)).react _
  · exact (h.with _ s.draws).react _

/-! ### Every case of a step -/

theorem inv_environmentMove {s : State} (h : s.Inv) : (environmentMove s).Inv := by
  obtain ⟨hst, hc⟩ := inv_iff.1 h
  have hst' := (kept_storesOk s.n).environmentMove hc.fits hst
  exact inv_of_storesOk hst' hc.environmentMove

/-- Stages that fit the chain, each transfer followed by its stage 4. -/
def StagesOk (n : Nat) (ts : List Task) : Prop := (∀ t ∈ ts, taskFits n t = true) ∧ staged ts = true

theorem stagesOk_of_all {n : Nat} {ts : List Task} (hf : ts.all (taskFits n) = true) (hs : staged ts = true) :
    StagesOk n ts :=
  ⟨List.all_eq_true.1 hf, hs⟩

theorem stagesOk_bus {n : Nat} {m : Mode} {f : Frame} (hf : frameFits n f = true) :
    StagesOk n [.bus m f, resultTask f] := by
  cases hd : frameDir f <;> exact stagesOk_of_all (by simp [taskFits, hf, resultTask, hd])
    (by simp [staged, transferOf, resultTask, hd])

/-- INIT writes the configuration, in a frame that fits the chain as WRCFG's does (41_frame_write.md R113). -/
theorem stagesOk_initTasks {s : State} {payloads : List (List Byte)} (m : Mode)
    (hf : frameFits s.n (configFrame s payloads) = true) :
    StagesOk s.n (initTasks m s.par.given (configFrame s payloads)) := by
  have hall : (initTasks m s.par.given (configFrame s payloads)).all (taskFits s.n) =
      (frameFits s.n (configFrame s payloads) && true) := rfl
  exact stagesOk_of_all (by rw [hall, hf]; rfl) rfl

theorem stagesOk_sequenceStages {s : State} {i : Instr} {ts : List Task} (h : sequenceStages s i = some ts)
    (hw : i.wellFormed s.n = true) : StagesOk s.n ts := by
  cases i with
  | init m payloads =>
    cases h
    exact stagesOk_initTasks m (busFrame_fits (i := .wrcfg m payloads) rfl hw)
  | cvtest m => cases h; exact stagesOk_of_all rfl rfl
  | auxtest m => cases h; exact stagesOk_of_all rfl rfl
  | stattest m => cases h; exact stagesOk_of_all rfl rfl
  | adstattest m => cases h; exact stagesOk_of_all rfl rfl
  | acctest m => cases h; exact stagesOk_of_all rfl rfl
  | _ => cases h

/-- The stages of a request with operands in range (41_frame_write.md R110, 45_host_sequences.md R202 to R210). -/
theorem stagesOk_requestStages {s : State} {i : Instr} {ts : List Task} (h : requestStages s i = some ts)
    (hw : i.wellFormed s.n = true) : StagesOk s.n ts := by
  cases hb : busFrame s i with
  | some mf =>
    obtain rfl : [.bus mf.1 mf.2, resultTask mf.2] = ts := by simpa [requestStages, hb] using h
    exact stagesOk_bus (busFrame_fits hb hw)
  | none => exact stagesOk_sequenceStages (by simpa [requestStages, hb] using h) hw

theorem inv_operate {s : State} {ts : List Task} (h : s.Inv) (hp : s.phase = .idle) (hts : StagesOk s.n ts) :
    (operate ts s).Inv := by
  obtain ⟨hst, hc⟩ := inv_iff.1 h
  obtain ⟨-, hi, hd⟩ := hc.of_idle hp
  have hst' := (kept_storesOk s.n).operate hts.1 hst
  exact inv_of_storesOk hst' (settled_runTasks hp hi hd hts.1 hts.2).drive

theorem board_length_localEffect (i : Instr) (s : State) : (localEffect i s).board.length = s.board.length :=
  (board_of_commBytes (commBytes_localEffect i s)).1

theorem inv_localEffect {s : State} (h : s.Inv) (hp : s.phase = .idle) (i : Instr) : (localEffect i s).Inv := by
  obtain ⟨hst, hc⟩ := inv_iff.1 h
  obtain ⟨ht, hi, hd⟩ := hc.of_idle hp
  obtain ⟨-, hpos, hboard, hflags, htx, hrx, hun⟩ := hst
  have hst' : StoresOk s.n (localEffect i s) :=
    ⟨by simp, hpos, by simpa [board_length_localEffect], by simpa, by simpa, by simpa, by simpa⟩
  exact inv_of_storesOk hst' (.idle (localEffect_phase hp i) (by simpa) (by simpa) (by simpa))

theorem inv_effect {s : State} {i : Instr} (h : s.Inv) (hp : s.phase = .idle) (hw : i.wellFormed s.n = true) :
    (effect i s).Inv := by
  cases hr : requestStages s i with
  | some ts => simpa only [effect, hr] using inv_operate h hp (stagesOk_requestStages hr hw)
  | none => simpa only [effect, hr] using inv_localEffect h hp i

/-- Taking an action touches nothing the invariant speaks of. -/
theorem inv_taken {s : State} (h : s.Inv) (rest : List HostAction) : (taken rest s).Inv := h

theorem inv_answer {s : State} (h : s.Inv) (a : Answer) : State.Inv { s with answer := a } := h

theorem inv_teardown {s : State} (h : s.Inv) : (teardown s).Inv := by
  obtain ⟨⟨hpos, -⟩, -⟩ := h
  have hst : StoresOk s.n (teardown s) :=
    ⟨rfl, hpos, by simp, by simp, bufferOk_nil _, bufferOk_nil _, Nat.zero_le _⟩
  exact inv_of_storesOk hst (.idle rfl rfl rfl rfl)

/-- Settles O53: each case of a step keeps both halves of the invariant. -/
theorem stepKeepsInvariant : Obligations.StepKeepsInvariant := by
  intro s t h hstep
  cases step_next_iff.1 hstep with
  | environment => exact inv_environmentMove h
  | @request _ rest _ hp _ _ _ hw => exact inv_effect (inv_answer (inv_taken h rest) .none) hp hw
  | read => exact inv_answer (inv_taken h _) _
  | teardown => exact inv_teardown (inv_taken h _)

end Sys2Proof.Machine
end

section
/-! SUPPORT. Family 20_memory: where the chip blocks of a frame stand (20_memory.md R41), and what a read and a parse
bring from them into the mirror (20_memory.md R48). -/

namespace Sys2Proof.Machine

/-! ### The chip blocks of a frame -/

/-- From the offset of block `j` on, the chip blocks are those from `j` on. -/
theorem drop_flatten_chipBlocks {blocks : List (List Byte)} (h6 : ∀ d ∈ blocks, d.length = 6) (j : Nat) :
    (blocks.map chipBlock).flatten.drop (8 * j) = ((blocks.drop j).map chipBlock).flatten := by
  induction blocks generalizing j with
  | nil => simp
  | cons d rest ih =>
    cases j with
    | zero => rfl
    | succ j =>
      have hd : 8 * (j + 1) = (chipBlock d).length + 8 * j := by rw [length_chipBlock, h6 d (by simp)]; omega
      rw [List.map_cons, List.flatten_cons, hd, List.drop_length_add_append, List.drop_succ_cons]
      exact ih (fun d' hd' => h6 d' (by simp [hd'])) j

section blocks
variable {head : List Byte} {blocks : List (List Byte)} (hh : head.length = 4) (h6 : ∀ d ∈ blocks, d.length = 6)
  {j : Nat} (hj : j < blocks.length)
include hh h6 hj

/-- Block `j` stands at `B(j)` behind an envelope of four bytes (20_memory.md R41). -/
theorem drop_blockAt :
    (head ++ (blocks.map chipBlock).flatten).drop (blockAt j) =
      chipBlock blocks[j] ++ ((blocks.drop (j + 1)).map chipBlock).flatten := by
  rw [blockAt, ← hh, List.drop_length_add_append, drop_flatten_chipBlocks h6, List.drop_eq_getElem_cons hj,
    List.map_cons, List.flatten_cons]

/-- The data bytes at `B(j)` are the payload of block `j`. -/
theorem take_drop_blockAt :
    ((head ++ (blocks.map chipBlock).flatten).drop (blockAt j)).take 6 = blocks[j] := by
  rw [drop_blockAt hh h6 hj, chipBlock, List.append_assoc]
  exact List.take_left' (h6 _ (List.getElem_mem hj))

/-- Byte `k` of the block at `B(j)`: data, then checksum (30_encoding.md R62). -/
theorem getD_blockAt {k : Nat} (hk : k < 8) :
    (head ++ (blocks.map chipBlock).flatten).getD (blockAt j + k) 0 = (chipBlock blocks[j]).getD k 0 := by
  have hd : k < (chipBlock blocks[j]).length := by rw [length_chipBlock, h6 _ (List.getElem_mem hj)]; exact hk
  rw [List.getD_eq_getElem?_getD, ← List.getElem?_drop, drop_blockAt hh h6 hj, List.getElem?_append_left hd,
    List.getD_eq_getElem?_getD]

/-- A block that carries its own checksum passes the check (43_transport.md R174). -/
theorem blockAccepted_of_chipBlock : blockAccepted (head ++ (blocks.map chipBlock).flatten) j = true := by
  have hd := h6 _ (List.getElem_mem hj)
  unfold blockAccepted
  rw [take_drop_blockAt hh h6 hj, getD_blockAt hh h6 hj (by omega), getD_blockAt hh h6 hj (by omega)]
  simp [chipBlock, hd, pecCheck]

/-- Value `k` of block `j` is the one its payload holds (20_memory.md R43). -/
theorem blockCode_of_chipBlock (order : ByteOrder) {k : Nat} (hk : k < 3) :
    blockCode order (head ++ (blocks.map chipBlock).flatten) j k =
      regWord order (blocks[j].getD (2 * k) 0) (blocks[j].getD (2 * k + 1) 0) := by
  have hd := h6 _ (List.getElem_mem hj)
  have hdata (i : Nat) (hi : i < 6) : (chipBlock blocks[j]).getD i 0 = blocks[j].getD i 0 :=
    List.getD_append _ _ _ _ (by omega)
  rw [blockCode, Nat.add_assoc (blockAt j), getD_blockAt hh h6 hj (by omega), getD_blockAt hh h6 hj (by omega),
    hdata _ (by omega), hdata _ (by omega)]

end blocks

/-- Settles O17: block `n - 1 - i`, which the chip at position `i` takes, carries payload `i` (20_memory.md R49). -/
theorem configPayloadReachesItsChip : Obligations.ConfigPayloadReachesItsChip := by
  intro n code payloads i h hok
  obtain ⟨rfl, h6⟩ := okPayloads_iff.1 hok
  have hj : payloads.length - 1 - i < payloads.reverse.length := by rw [List.length_reverse]; omega
  rw [configBlocks_eq_reverse rfl, takenBy, frameBytes,
    take_drop_blockAt (by rfl) (fun d hd => h6 d (List.mem_reverse.1 hd)) hj, List.getElem_reverse]
  congr 1
  omega

/-! ### A read and then a parse -/

/-- When every block carries its own checksum, no flag is set (42_frame_read_parse.md R131). -/
theorem readFlags_chainAnswer {noise : List Byte} (hn : noise.length = 4) {groups : List (List Byte)}
    (h6 : ∀ d ∈ groups, d.length = 6) :
    readFlags groups.length (chainAnswer noise groups) = List.replicate groups.length false := by
  refine List.eq_replicate_iff.2 ⟨by simp [readFlags], fun b hb => ?_⟩
  obtain ⟨j, hj, rfl⟩ := List.mem_map.1 hb
  rw [chainAnswer, blockAccepted_of_chipBlock hn h6 (List.mem_range.1 hj)]
  rfl

/-- What a parse after a read depends on: a ready block whose `rx` holds the received bytes, all of them specified. -/
structure ReadDone (bytes : List Byte) (s t : State) : Prop where
  ready : t.Ready
  n : t.n = s.n
  par : t.par = s.par
  board : t.board = s.board
  rx : memReadBytes t.rx 0 bytes.length = some bytes
  rxUnspec : t.rxUnspec = 0
  flags : t.pecFail.val = readFlags s.n bytes

/-- RDREG served with `bytes` (42_frame_read_parse.md R130, R131). -/
theorem exec_rdreg_served {s : State} {m : Mode} {addr : U16} (hr : s.Ready) {bytes : List Byte}
    {moves left : List EnvEvent} (hs : Served m (bufLen s.n) bytes moves) (hm : s.script = moves ++ left) :
    ∃ t, exec (.rdreg m addr) s = .next t ∧ ReadDone bytes s t := by
  obtain ⟨p, b, ds, -, hexec⟩ := exec_served (i := .rdreg m addr) (f := .rd addr) rfl hr rfl hs hm
  have hlen : bytes.length = bufLen s.n := by
    obtain ⟨-, -, -, -, -, hl, -⟩ := hs
    exact hl
  generalize hu : served m (.rd addr) bytes _ = u at hexec
  have hn : u.n = s.n := by simp [← hu, begun]
  have hrx : memReadBytes u.rx 0 bytes.length = some bytes := by
    rw [← hu, served_rx _ _ _ _ (by simp [begun, frameLen, hlen])]
    exact memReadBytes_memWriteBytes _ 0 bytes
  obtain ⟨-, ht, hpos⟩ := hr
  refine ⟨{ endRead u with todo := [], script := left }, hexec, ?_⟩
  exact {
    ready := ⟨by simp, by simp [← hu, begun, ht], by simpa [hn] using hpos⟩
    n := by simp [hn]
    par := by simp [← hu, begun]
    board := by simp [← hu, begun]
    rx := by simpa using hrx
    rxUnspec := by simp [← hu, frameDir]
    flags := by
      have hok : u.status = .ok := by simp [← hu]
      simpa [hok, hn] using readFlags_of_bytes hrx hlen }

/-- Elements `3g .. 3g+2` after they are set. -/
theorem setTriple_getElem? {size : Nat} (v : Vector (Reg U16) size) {g k : Nat} (w : Nat → Reg U16) (hk : k < 3)
    (hs : 3 * g + k < size) : (setTriple v g w)[3 * g + k]? = some (w k) := by
  obtain rfl | rfl | rfl : k = 0 ∨ k = 1 ∨ k = 2 := by omega
  all_goals simpa [setTriple, Vector.getElem?_setIfInBounds] using hs

/-- PARSECV after a read of `bytes`: code `k` of every position's block in its place (42_frame_read_parse.md R133). -/
theorem exec_parsecv_of_read {bytes : List Byte} {s t : State} (h : ReadDone bytes s t)
    (hlen : bytes.length = bufLen s.n) {g : Byte} (hg : g.toNat < 4) :
    ∃ u, exec (.parsecv g) t = .next u ∧ ∀ i, i < s.board.length → i < s.n → ∀ k, k < 3 →
      ∃ b, u.board[i]? = some b ∧ b.cellVoltage[3 * g.toNat + k]? =
        some { val := blockCode s.par.regDataOrder bytes i k, known := true } := by
  have hw : Instr.wellFormed t.n (.parsecv g) = true := by
    simpa [Instr.wellFormed, Instr.inRange, Instr.perChip, okCvGroup] using hg
  refine ⟨_, (exec_parsecv g t).trans (request_of_ready h.ready hw _), fun i hb hi k hk => ?_⟩
  refine ⟨parseBoard { t with answer := .none } (.cv g.toNat) i s.board[i], by simp [h.board, hb], ?_⟩
  rw [← h.par]
  have hword : rxWord { t with answer := .none } i k = _ :=
    rxWord_of_bytes (s := { t with answer := .none }) h.rx h.rxUnspec
      (by simp only [blockAt, hlen, bufLen]; omega)
  rw [← hword]
  exact setTriple_getElem? _ _ hk (by omega)

/-- Settles O30: the read leaves every block in `rx` with its checksum in order, the parse takes its codes from there. -/
theorem readThenParse : Obligations.ReadThenParse := by
  intro s m addr g noise groups moves left hr hboard hg hnoise hgroups h6 hs hm
  obtain ⟨t, hread, hdone⟩ := exec_rdreg_served (addr := addr) hr hs hm
  have hlen : (chainAnswer noise groups).length = bufLen s.n := by
    rw [chainAnswer, List.length_append, length_flatten_chipBlocks h6, hnoise, hgroups, bufLen]
  obtain ⟨u, hparse, hcodes⟩ := exec_parsecv_of_read hdone hlen hg
  refine ⟨t, u, hread, ?_, hparse, fun i hi k hk => ?_⟩
  · rw [hdone.flags, ← hgroups, readFlags_chainAnswer hnoise h6]
  · rw [← blockCode_of_chipBlock hnoise h6 hi s.par.regDataOrder hk]
    exact hcodes i (by omega) (by omega) k hk

end Sys2Proof.Machine
end

section
/-! SUPPORT. Family 20_memory: the byte moves, and the induction over the moves of one bus operation that follows its
bytes on the wire (20_memory.md R45, R54; 41_frame_write.md R114). -/

namespace Sys2Proof.Machine

/-! ### The byte move -/

/-- While a transfer runs, a byte move is the bus engine's, in either phase (20_memory.md R45). -/
theorem react_byte {s : State} {m : Mode} {f : Frame} {rest : List Task} (ht : s.todo = .bus m f :: rest)
    (hp : s.phase = .xferB ∨ s.phase = .waitDone ∧ s.inflight ≠ none) (b : Byte) :
    react (.byte b) s = moveByte b (frameLen s.n f) (frameDir f) s := by
  obtain hp | ⟨hp, hi⟩ := hp
  · rw [react_xferB hp ht]
    rfl
  · rw [react_waitDone hp ht]
    exact if_neg hi

/-- While the sequencer is suspended with no transfer in flight, no byte moves (43_transport.md R163; log 13). -/
theorem react_byte_of_not_inflight {s : State} (hp : s.phase = .waitDone) (hi : s.inflight = none) (b : Byte) :
    react (.byte b) s = s := by
  by_cases ht : ∃ m f rest, s.todo = .bus m f :: rest
  · obtain ⟨m, f, rest, ht⟩ := ht
    rw [react_waitDone hp ht]
    exact if_pos hi
  · exact react_of_no_transfer (by simp [hp]) (fun m f rest h => ht ⟨m, f, rest, h⟩) _

/-- Each byte of `tx` within the frame in hand is the frame's. -/
theorem Sending.memRead_tx {m : Mode} {f : Frame} {rest : List Task} {s : State} (h : Sending m f rest s) {k : Nat}
    (hk : k < frameLen s.n f) : memRead s.tx k = (frameBytes s.n f)[k]? := by
  obtain ⟨-, hread⟩ := (memReadBytes_eq_some _ _ _ _).1 h.frame
  simpa using hread k hk

/-- In a state that meets the invariant, the transfer at the head of `todo` has its frame in `tx`. -/
theorem sending_of_inv {s : State} {m : Mode} {f : Frame} {rest : List Task} (h : s.Inv) (hp : s.phase ≠ .idle)
    (ht : s.todo = .bus m f :: rest) : Sending m f rest s := by
  obtain ⟨-, -, ⟨hfit, hst, -⟩, hf⟩ := h
  exact ⟨ht, hfit, hst, hf hp m f (currentTransfer_eq_some.2 ⟨rest, ht⟩)⟩

/-! ### The bytes of one operation -/

/-- How far the bytes on the wire have come since a bus operation sending `f` began, `w` being on the wire before: none
while it waits, as many as have moved while its transfer runs, and once it is over those that had moved, which are all
where its status is ST_OK (43_transport.md R159, R163). -/
inductive OnWire (m : Mode) (f : Frame) (w : List Byte) (s : State) : Prop where
  | waiting (hp : s.phase = .waitIdle) (hs : Sending m f [resultTask f] s) (hd : s.doneSig = false)
      (hw : wireBytes s.ports = w)
  | moving (hp : s.phase = .xferB ∨ s.phase = .waitDone) (hs : Sending m f [resultTask f] s)
      (hm : s.moved ≤ frameLen s.n f) (hd : s.doneSig = true → s.moved = frameLen s.n f)
      (hw : wireBytes s.ports = w ++ (frameBytes s.n f).take s.moved)
  | finished {k : Nat} (hp : s.phase = .idle) (hk : k ≤ frameLen s.n f)
      (hw : wireBytes s.ports = w ++ (frameBytes s.n f).take k) (hok : s.status = .ok → k = frameLen s.n f)

theorem wireBytes_singleton_wire (out : Option Byte) (heard : Bool) : wireBytes [.wire out heard] = out.toList := by
  cases out <;> rfl

/-- Stage 4 puts nothing on the wire. -/
@[simp] theorem wireBytes_resultTask (f : Frame) (s : State) :
    wireBytes (stage (resultTask f) s).ports = wireBytes s.ports := by
  cases hd : frameDir f
  · simp only [resultTask, hd, stage, endRead_ports]
    split <;> simp
  · simp [resultTask, hd, stage]

/-- Stage 4 keeps the status (41_frame_write.md R110). -/
@[simp] theorem status_resultTask (f : Frame) (s : State) : (stage (resultTask f) s).status = s.status := by
  cases hd : frameDir f <;> simp [resultTask, hd, stage]

variable {m : Mode} {f : Frame} {w : List Byte} {s : State}

/-- A transfer that is over, `k` bytes moved, leaves stage 4 to run. -/
theorem onWire_runTasks_resultTask {k : Nat} (hk : k ≤ frameLen s.n f)
    (hw : wireBytes s.ports = w ++ (frameBytes s.n f).take k) (hok : s.status = .ok → k = frameLen s.n f) :
    OnWire m f w (runTasks [resultTask f] s) := by
  rw [runTasks_stage (transferOf_resultTask f), runTasks_nil]
  exact .finished (k := k) (phase_resultTask f s) (by simpa using hk) (by simpa using hw) (by simpa using hok)

theorem onWire_startTransfer (hs : Sending m f [resultTask f] s) (hd : s.doneSig = false)
    (hw : wireBytes s.ports = w) : OnWire m f w (startTransfer m f s) := by
  refine .moving ?_ (hs.congr (by simp) (by simp) (by simp)) (by simp) (by simp [hd]) ?_
  · cases m <;> simp
  · cases m <;> simp [hw]

/-- A byte move sends the frame's next byte (20_memory.md R45). -/
theorem onWire_moveByte (hp : s.phase = .xferB ∨ s.phase = .waitDone) (hs : Sending m f [resultTask f] s)
    (hm : s.moved ≤ frameLen s.n f) (hd : s.doneSig = true → s.moved = frameLen s.n f)
    (hw : wireBytes s.ports = w ++ (frameBytes s.n f).take s.moved) (b : Byte) :
    OnWire m f w (moveByte b (frameLen s.n f) (frameDir f) s) := by
  by_cases hlt : s.moved < frameLen s.n f
  · refine .moving (by simpa using hp) (hs.congr (by simp) (by simp) (by simp)) (by simp [hlt]) ?_ ?_
    · intro h
      have := hd (by simpa using h)
      omega
    · simp [hlt, hw, wireBytes_singleton_wire, hs.memRead_tx hlt, List.take_add_one]
  · rw [moveByte, if_neg hlt]
    exact .moving hp hs hm hd hw

theorem onWire_inWaitIdle (hp : s.phase = .waitIdle) (hs : Sending m f [resultTask f] s) (hd : s.doneSig = false)
    (hw : wireBytes s.ports = w) (e : EnvEvent) : OnWire m f w (inWaitIdle e m f [resultTask f] s) := by
  cases e with
  | poll bus expired =>
    have hb : Sending m f [resultTask f] { s with busState := bus } := hs.congr rfl rfl rfl
    simp only [inWaitIdle]
    split
    · exact onWire_startTransfer hb hd hw
    · split
      · exact onWire_runTasks_resultTask (k := 0) (Nat.zero_le _) (by simp [hw]) (by simp)
      · exact .waiting hp (hb.congr rfl rfl rfl) hd (by simp [hw])
  | sleep => exact .waiting hp (hs.congr rfl rfl rfl) hd hw
  | _ => exact .waiting hp hs hd hw

/-- The platform returns success only after the exact length (43_transport.md R159). -/
theorem onWire_inXferB (hp : s.phase = .xferB) (hs : Sending m f [resultTask f] s)
    (hm : s.moved ≤ frameLen s.n f) (hd : s.doneSig = true → s.moved = frameLen s.n f)
    (hw : wireBytes s.ports = w ++ (frameBytes s.n f).take s.moved) (e : EnvEvent) :
    OnWire m f w (inXferB e f [resultTask f] s) := by
  have same : OnWire m f w s := .moving (.inl hp) hs hm hd hw
  cases e with
  | byte b => exact onWire_moveByte (.inl hp) hs hm hd hw b
  | ret st =>
    simp only [inXferB]
    split
    · rename_i hret
      have hall : st = .ok → s.moved = frameLen s.n f := by simpa [mayReturn, imp_iff_not_or] using hret
      exact onWire_runTasks_resultTask (k := s.moved) (by simpa using hm) (by simpa using hw) (by simpa using hall)
    · exact same
  | _ => exact same

/-- The completion signal is given only after the exact length (43_transport.md R163). -/
theorem onWire_inWaitDone (hp : s.phase = .waitDone) (hs : Sending m f [resultTask f] s)
    (hm : s.moved ≤ frameLen s.n f) (hd : s.doneSig = true → s.moved = frameLen s.n f)
    (hw : wireBytes s.ports = w ++ (frameBytes s.n f).take s.moved) (e : EnvEvent) :
    OnWire m f w (inWaitDone e f [resultTask f] s) := by
  have same : OnWire m f w s := .moving (.inr hp) hs hm hd hw
  cases e with
  | byte b =>
    simp only [inWaitDone]
    split
    · exact same
    · exact onWire_moveByte (.inr hp) hs hm hd hw b
  | complete =>
    simp only [inWaitDone]
    split
    · rename_i h
      exact .moving (.inr hp) (hs.congr rfl rfl rfl) hm (fun _ => h.2) (by simpa using hw)
    · exact same
  | error =>
    simp only [inWaitDone]
    split
    · exact .moving (.inr hp) (hs.congr rfl rfl rfl) hm hd (by simpa using hw)
    · exact same
  | resume =>
    simp only [inWaitDone]
    split
    · rename_i hsig
      refine onWire_runTasks_resultTask (k := s.moved) (by simpa using hm) ?_ fun _ => by simpa using hd hsig
      rw [takeCompletion_ports]
      split <;> simpa using hw
    · exact same
  | _ => exact same

theorem OnWire.react (h : OnWire m f w s) (e : EnvEvent) : OnWire m f w (react e s) := by
  cases h with
  | waiting hp hs hd hw =>
    rw [react_waitIdle hp hs.todo]
    exact onWire_inWaitIdle hp hs hd hw e
  | moving hp hs hm hd hw =>
    obtain hp | hp := hp
    · rw [react_xferB hp hs.todo]
      exact onWire_inXferB hp hs hm hd hw e
    · rw [react_waitDone hp hs.todo]
      exact onWire_inWaitDone hp hs hm hd hw e
  | finished hp hk hw hok =>
    rw [react_idle hp]
    split
    · exact .finished hp hk hw hok
    · exact .finished hp hk hw hok

theorem OnWire.with_script (h : OnWire m f w s) (es : List EnvEvent) : OnWire m f w { s with script := es } := by
  cases h with
  | waiting hp hs hd hw => exact .waiting hp (hs.congr rfl rfl rfl) hd hw
  | moving hp hs hm hd hw => exact .moving hp (hs.congr rfl rfl rfl) hm hd hw
  | finished hp hk hw hok => exact .finished hp hk hw hok

theorem OnWire.drive (h : OnWire m f w s) (es : List EnvEvent) : OnWire m f w (drive es s) := by
  induction es generalizing s with
  | nil => exact h.with_script []
  | cons e rest ih =>
    simp only [Machine.drive]
    split
    · exact h.with_script (e :: rest)
    · exact ih (h.react e)

/-- A bus operation begins with its frame in `tx` and nothing of it on the wire (41_frame_write.md R110, R114). -/
theorem onWire_begun (hf : frameFits s.n f = true) (hd : s.doneSig = false) :
    OnWire m f (wireBytes s.ports) (begun m f s) := by
  obtain ⟨hfit, hst⟩ := stagesOk_bus (m := m) hf
  have hs : Sending m f [resultTask f] (begun m f s) := sending_beginBus (s := { s with answer := .none }) hfit hst
  exact .waiting (by simp [begun]) hs (by simp [begun, hd]) (by simp [begun])

/-- The bytes of the frame a bus operation has sent when it gets its next state. -/
theorem OnWire.exists_take (h : OnWire m f w s) :
    ∃ k, k ≤ frameLen s.n f ∧ wireBytes s.ports = w ++ (frameBytes s.n f).take k ∧
      (s.phase = .idle → s.status = .ok → k = frameLen s.n f) := by
  cases h with
  | waiting hp _ _ hw => exact ⟨0, Nat.zero_le _, by simp [hw], by simp [hp]⟩
  | moving hp _ hm _ hw => exact ⟨s.moved, hm, hw, fun hi => by simp [hi] at hp⟩
  | finished _ hk hw hok => exact ⟨_, hk, hw, fun _ => hok⟩

/-- Settles O40: the byte move by cases, and `OnWire` along the moves of an operation. -/
theorem wireCarriesOnlyTheFrame : Obligations.WireCarriesOnlyTheFrame := by
  refine ⟨fun s m f rest b ht hp => ?_, fun s b hp hi => react_byte_of_not_inflight hp hi b,
    fun s m f rest hinv hp ht k hk => (sending_of_inv hinv hp ht).memRead_tx hk, fun s t i m f hd hb hexec => ?_⟩
  · rw [react_byte ht hp]
    rfl
  · obtain ⟨-, hw, ht⟩ := exec_bus_next hb hexec
    obtain ⟨-, -, heffect⟩ := exec_next_iff.1 hexec
    have hn : t.n = s.n := by rw [heffect, effect_n]
    have hwire : OnWire m f (wireBytes s.ports) t := ht ▸ (onWire_begun (busFrame_fits hb hw) hd).drive _
    simpa only [hn] using hwire.exists_take

end Sys2Proof.Machine
end

section
/-! SUPPORT. Family 30_encoding: the requests the block refuses, the pseudo-operations and the end of a session
(30_encoding.md R71, R74, R77; 10_state.md R37). -/

namespace Sys2Proof.Machine

/-! ### Messages with no meaning (30_encoding.md R69 to R71) -/

/-- With bits 7:6 of the request byte zero, a message is decoded by its operation number and mode bit. -/
theorem decode_cons {r : Byte} (h : r.extractLsb' 6 2 = 0) (ops : List Byte) :
    decode (r :: ops) = decodeOperation (r.extractLsb' 0 5).toNat (r.getLsbD 5) ops :=
  if_pos h

theorem decode_reservedBits {r : Byte} (h : r.extractLsb' 6 2 ≠ 0) (ops : List Byte) :
    decode (r :: ops) = .error .reservedBits :=
  if_neg h

/-- The operation numbers outside the table of R70. -/
theorem decodeOperation_noSuchOperation {o : BitVec 5}
    (h : o ∈ ([0x00, 0x14, 0x15, 0x16, 0x17, 0x1E, 0x1F] : List (BitVec 5))) (m : Bool) (ops : List Byte) :
    decodeOperation o.toNat m ops = .error .noSuchOperation := by
  simp only [List.mem_cons, List.not_mem_nil, or_false] at h
  obtain rfl | rfl | rfl | rfl | rfl | rfl | rfl := h <;> rfl

/-- The operations whose mode column says "none" (30_encoding.md R69). -/
theorem decodeOperation_modeNotAllowed {o : BitVec 5}
    (h : o ∈ ([0x01, 0x02, 0x03, 0x04, 0x09, 0x0A, 0x0B, 0x0C, 0x0D] : List (BitVec 5))) (ops : List Byte) :
    decodeOperation o.toNat true ops = .error .modeNotAllowed := by
  simp only [List.mem_cons, List.not_mem_nil, or_false] at h
  obtain rfl | rfl | rfl | rfl | rfl | rfl | rfl | rfl | rfl := h <;> rfl

/-- A request byte `001ooooo` has its reserved bits zero and its mode bit set. -/
theorem reserved_and_mode_of_top_eq_one {r : Byte} (h : r.extractLsb' 5 3 = 1) :
    r.extractLsb' 6 2 = 0 ∧ r.getLsbD 5 = true := by
  revert r; decide

/-! ### Requests that are refused -/

theorem request_of_tornDown {ok : Bool} {s : State} {k : State → State} (h : s.tornDown = true) :
    request ok s k = .refused .sessionTornDown := by
  simp [request, h]

/-- Without a chip nothing else of a request counts: not its operands, not its effect (30_encoding.md R74). -/
theorem request_of_zeroChips {ok : Bool} {s : State} {k : State → State} (h : s.n = 0) :
    request ok s k = .refused (if s.tornDown then .sessionTornDown else .zeroChips) := by
  cases ht : s.tornDown <;> simp [request, h, ht]

theorem exec_of_illFormed {i : Instr} {s : State} (hr : s.Ready) (hw : i.wellFormed s.n = false) :
    exec i s = .refused .operandOutOfRange := by
  obtain ⟨hp, ht, hn⟩ := hr
  have hn0 : s.n ≠ 0 := by omega
  simp [exec_eq_request, request, hp, ht, hn0, hw]

theorem exec_of_not_inRange {i : Instr} {s : State} (hr : s.Ready) (hi : i.inRange = false) :
    exec i s = .refused .operandOutOfRange :=
  exec_of_illFormed hr (by rw [Instr.wellFormed, hi, Bool.false_and])

theorem okPayloads_eq_false_iff {n : Nat} {payloads : List (List Byte)} :
    okPayloads n payloads = false ↔ payloads.length ≠ n ∨ ∃ p ∈ payloads, p.length ≠ 6 := by
  rw [← Bool.not_eq_true, okPayloads_iff, not_and_or]
  push Not
  rfl

/-- The operand `P` is in range when it is `N` payloads of six bytes (30_encoding.md R71). -/
theorem wellFormed_perChip (m : Mode) (payloads : List (List Byte)) (n : Nat) :
    Instr.wellFormed n (.wrcfg m payloads) = okPayloads n payloads ∧
      Instr.wellFormed n (.init m payloads) = okPayloads n payloads := by
  simp [Instr.wellFormed, Instr.inRange, Instr.perChip, okPayloads, Bool.and_comm]

/-- Settles O10: the decoder's branches, the step that takes a message, and the operand ranges of `Instr.wellFormed`. -/
theorem meaninglessRequestsRefused : Obligations.MeaninglessRequestsRefused := by
  refine ⟨fun r ops hr => decode_reservedBits hr ops, fun r ops hr ho => ?_, fun r ops hr ho => ?_,
    fun s bytes rest e hp hq hd => ?_, fun s t bytes rest hp hq hstep => ?_, fun s hr => ?_⟩
  · rw [decode_cons hr, decodeOperation_noSuchOperation ho]
  · obtain ⟨hres, hmode⟩ := reserved_and_mode_of_top_eq_one hr
    rw [decode_cons hres, hmode, decodeOperation_modeNotAllowed ho]
  · rw [step_host hp hq]
    simp only [hostStep, hd]
  · cases step_next_iff.1 hstep with
    | environment h => simp [h hp] at hq
    | request _ hq' hd _ hw =>
      cases hq'.symm.trans hq
      exact ⟨_, hd, hw⟩
    | read _ hq' => simp [hq'] at hq
    | teardown _ hq' => simp [hq'] at hq
  · refine ⟨fun g hg => exec_of_not_inRange hr (decide_eq_false (Nat.not_lt.2 hg)),
      fun g hg => ⟨exec_of_not_inRange hr (decide_eq_false (Nat.not_lt.2 hg)),
        exec_of_not_inRange hr (decide_eq_false (Nat.not_lt.2 hg))⟩,
      fun mode dcp ch chg h => exec_of_not_inRange hr ?_, fun m addr p6 h => exec_of_not_inRange hr ?_,
      fun m payloads h => ?_⟩
    · simp only [Instr.inRange, okConv, Bool.and_eq_false_iff, decide_eq_false_iff_not]
      omega
    · simpa [Instr.inRange, okPayload] using h
    · obtain ⟨hcfg, hinit⟩ := wellFormed_perChip m payloads s.n
      have hbad := okPayloads_eq_false_iff.2 h
      exact ⟨exec_of_illFormed hr (hcfg.trans hbad), exec_of_illFormed hr (hinit.trans hbad)⟩

/-! ### The pseudo-operations (30_encoding.md R77) -/

/-- Operations that send the same frame in the same mode, with operands in range alike, are one operation. -/
theorem exec_congr_busFrame {s : State} {i i' : Instr} {m : Mode} {f : Frame} (h : busFrame s i = some (m, f))
    (h' : busFrame s i' = some (m, f)) (hw : i.wellFormed s.n = i'.wellFormed s.n) : exec i s = exec i' s := by
  rw [exec_bus h, exec_bus h', hw]

/-- In whatever order, equal payloads make the blocks of a broadcast (41_frame_write.md R112, R113). -/
theorem configBlocks_replicate (n : Nat) (p6 : List Byte) :
    configBlocks n (List.replicate n p6) = broadcastBlocks n p6 := by
  rw [configBlocks_eq_reverse List.length_replicate, List.reverse_replicate, broadcastBlocks]

theorem okPayloads_replicate {n : Nat} (hn : n ≠ 0) (p6 : List Byte) :
    okPayloads n (List.replicate n p6) = okPayload p6 := by
  simp [okPayloads, okPayloadSizes, hn]

/-- Without a chip both are refused alike; with one, a single payload is in range when each of its copies is. -/
theorem exec_wrcfg_replicate (m : Mode) (s : State) (p6 : List Byte) :
    exec (.wrcfg m (List.replicate s.n p6)) s = exec (.wrbcast m s.par.given.cmdWrcfg p6) s := by
  by_cases hn : s.n = 0
  · rw [exec_eq_request, exec_eq_request, request_of_zeroChips hn, request_of_zeroChips hn]
  · have hframe : configFrame s (List.replicate s.n p6) = .wr s.par.given.cmdWrcfg (broadcastBlocks s.n p6) := by
      rw [configFrame, configBlocks_replicate]
    refine exec_congr_busFrame (congrArg (fun f => some (m, f)) hframe) rfl ?_
    rw [(wellFormed_perChip m _ s.n).1, okPayloads_replicate hn]
    exact (Bool.and_true (okPayload p6)).symm

/-- Settles O15: each row sends the frame of the operation it stands for. -/
theorem pseudoOperationsExpand : Obligations.PseudoOperationsExpand := fun m s =>
  ⟨exec_congr_busFrame rfl rfl rfl, exec_congr_busFrame rfl rfl rfl, exec_congr_busFrame rfl rfl rfl,
    exec_congr_busFrame rfl rfl rfl, exec_congr_busFrame rfl rfl rfl, exec_congr_busFrame rfl rfl rfl,
    exec_wrcfg_replicate m s⟩

/-! ### No session (30_encoding.md R74, 10_state.md R37) -/

/-- No byte of a buffer and no register of the mirror holds a value after a teardown. -/
theorem valuesGone_teardown (s : State) : ValuesGone (teardown s) := by
  obtain ⟨hsix, hcells, hcomm⟩ := emptyBoard_unknown
  have hempty : ∀ b ∈ (teardown s).board, b = emptyBoard := fun b hb => List.eq_of_mem_replicate hb
  exact {
    tx := memRead_nil
    rx := memRead_nil
    config := fun b hb k hk => hempty b hb ▸ (hsix k hk).1
    cellVoltage := fun b hb k hk => hempty b hb ▸ hcells k hk
    auxVoltage := fun b hb k hk => hempty b hb ▸ (hsix k hk).2.1
    status := fun b hb k hk => hempty b hb ▸ (hsix k hk).2.2
    comm := fun b hb k hk => hempty b hb ▸ hcomm k hk
    pecFail := rfl
    pecOut := rfl }

/-- What a teardown leaves depends on nothing the session held. -/
theorem teardown_congr {s s' : State} (h : SameSurroundings s s') : teardown s = teardown s' := by
  obtain ⟨hn, hpar, hpwr, hbus, hpend, hscript, hdraws, hports⟩ := h
  simp only [teardown, hn, hpar, hpwr, hbus, hpend, hscript, hdraws, hports]

theorem SameSurroundings.taken {s s' : State} (h : SameSurroundings s s') (rest : List HostAction) :
    SameSurroundings (taken rest s) (taken rest s') := by
  obtain ⟨hn, hpar, hpwr, hbus, -, hscript, hdraws, hports⟩ := h
  constructor <;> simp [Machine.taken, *]

/-- Settles O13: the refusals of `request`, and `teardown` as the step that takes one. -/
theorem noSessionNoOperation : Obligations.NoSessionNoOperation := by
  refine ⟨fun par => rfl, fun n par hn => if_neg (by omega), fun i s hn ht => ?_, fun i s ht => ?_,
    fun s rest hp hq => ?_, fun s s' rest hp hp' hq h => ?_⟩
  · rw [exec_eq_request, request_of_zeroChips hn, ht]
    rfl
  · rw [exec_eq_request, request_of_tornDown ht]
  · exact ⟨teardown (taken rest s), step_next_iff.2 (.teardown hp hq), rfl, rfl, rfl, rfl, rfl, rfl, rfl, rfl, rfl,
      valuesGone_teardown _⟩
  · rw [step_next_iff.2 (.teardown hp hq), step_next_iff.2 (.teardown hp' (h.pending.trans hq)),
      teardown_congr (h.taken rest)]

end Sys2Proof.Machine
end

section
/-! SUPPORT. Family 30_encoding: the checksum of a frame and its bytes (30_encoding.md R61 to R65, R75). -/

namespace Sys2Proof.Machine

/-! ### Bit 0 of a checksum (30_encoding.md R75) -/

theorem lo_getLsbD_zero (v : U16) : (lo v).getLsbD 0 = v.getLsbD 0 := by
  simp [lo]

/-- The remainder is doubled at the end (40_pec_engine.md R91). -/
theorem pec15_getLsbD_zero (s : List Byte) : (pec15 s).getLsbD 0 = false := by
  simp [pec15, BitVec.getLsbD, Nat.testBit_zero]

theorem pecCheck_of_getLsbD_zero (s : List Byte) {p : U16} (h : p.getLsbD 0 = true) : pecCheck s p = false := by
  refine beq_eq_false_iff_ne.2 fun he => ?_
  rw [← he, pec15_getLsbD_zero] at h
  cases h

/-- Settles O4: a generated checksum is twice the remainder. -/
theorem checksumBitZero : Obligations.ChecksumBitZero :=
  ⟨pec15_getLsbD_zero, fun s _ => pecCheck_of_getLsbD_zero s⟩

/-! ### The bytes of a frame -/

/-- Byte `k` of the block at `B(j)`, behind an envelope of four bytes (20_memory.md R41). -/
theorem getElem?_blockAt {head : List Byte} {blocks : List (List Byte)} (hh : head.length = 4)
    (h6 : ∀ d ∈ blocks, d.length = 6) {j k : Nat} (hj : j < blocks.length) (hk : k < 8) :
    (head ++ (blocks.map chipBlock).flatten)[blockAt j + k]? = (chipBlock blocks[j])[k]? := by
  have hd : k < (chipBlock blocks[j]).length := by rw [length_chipBlock, h6 _ (List.getElem_mem hj)]; exact hk
  rw [← List.getElem?_drop, drop_blockAt hh h6 hj, List.getElem?_append_left hd]

/-- A chip block is its data and then their checksum, high byte first (30_encoding.md R62). -/
theorem getElem?_chipBlock {d : List Byte} (hd : d.length = 6) :
    (∀ k, k < 6 → (chipBlock d)[k]? = d[k]?) ∧ (chipBlock d)[6]? = some (hi (pec15 d)) ∧
      (chipBlock d)[7]? = some (lo (pec15 d)) := by
  refine ⟨fun k hk => List.getElem?_append_left (by omega), ?_, ?_⟩ <;>
    simp [chipBlock, hd]

/-- Block `j` of a configuration write carries the payload of position `N-1-j` (41_frame_write.md R113). -/
theorem configBlocks_getElem? {n j : Nat} {payloads : List (List Byte)} (h : payloads.length = n) (hj : j < n) :
    (configBlocks n payloads)[j]? = payloads[n - 1 - j]? := by
  subst h
  rw [configBlocks_eq_reverse rfl, List.getElem?_reverse hj]

/-- Settles O16: an envelope, then for each block its data and checksum, or zeros. -/
theorem frameLayout : Obligations.FrameLayout := by
  refine ⟨fun n f => length_frameBytes, fun n code => rfl, fun d => ?_,
    fun n code blocks hfit => ⟨rfl, fun j hj => ?_⟩, fun s m addr p6 => rfl,
    fun s m payloads hl => ⟨_, rfl, ?_, fun j => configBlocks_getElem? hl⟩, fun n code => ⟨rfl, fun k hk hn => ?_⟩⟩
  · rw [lo_getLsbD_zero, pec15_getLsbD_zero]
  · obtain ⟨-, h6⟩ := okPayloads_iff.1 hfit
    obtain ⟨hdata, hhi, hlo⟩ := getElem?_chipBlock (h6 _ (List.getElem_mem hj))
    have hblock (k : Nat) (hk : k < 8) :
        (frameBytes n (.wr code blocks))[4 + 8 * j + k]? = (chipBlock blocks[j])[k]? := getElem?_blockAt rfl h6 hj hk
    exact ⟨fun k hk => (hblock k (by omega)).trans (hdata k hk), (hblock 6 (by omega)).trans hhi,
      (hblock 7 (by omega)).trans hlo⟩
  · rw [configBlocks_eq_reverse hl, List.length_reverse, hl]
  · have hlen : (envelope code).length = 4 := rfl
    rw [frameBytes, List.getElem?_append_right (by omega), List.getElem?_replicate_of_lt (by omega)]

end Sys2Proof.Machine
end

section
/-! SUPPORT. Family 40_pec_engine: the checksum operations (40_pec_engine.md R99, R101). -/

namespace Sys2Proof.Machine

/-- In the phase IDLE an operation without a transfer leaves its own effect and the record of the two phases
(10_state.md R21), where the effect neither reads nor writes the phase or the ports. -/
theorem computing_of_idle {k : State → State} {s : State} (hs : s.phase = .idle)
    (hk : ∀ (t : State) (q : Phase) (ps : List PortEvent),
      k { t with phase := q, ports := ps } = { k t with phase := q, ports := ps }) :
    computing k s = { k s with ports := s.ports ++ [.phase .compute, .phase .idle] } := by
  have hphase : (k s).phase = .idle := (congrArg State.phase (hk s s.phase s.ports)).trans hs
  have hcompute : k (setPhase .compute s) = { k s with phase := .compute, ports := s.ports ++ [.phase .compute] } :=
    hk s .compute _
  rw [computing, hcompute]
  simp [setPhase, emit, hphase]

/-- PEC15 writes `pec_out` and answers it (40_pec_engine.md R101). -/
theorem exec_pec15_ready {s : State} (h : s.Ready) (bytes : List Byte) :
    exec (.pec15 bytes) s = .next { s with
      pecOut := { val := pec15 bytes, known := true }
      answer := .pecOut (pec15 bytes)
      ports := s.ports ++ [.phase .compute, .phase .idle] } := by
  rw [exec_pec15, request_of_ready h (by rfl),
    computing_of_idle (s := { s with answer := .none }) h.1 fun _ _ _ => rfl]

/-- PECCHK answers whether the checksum is the value given, all 16 bits, and writes no flag (40_pec_engine.md R99). -/
theorem exec_pecchk_ready {s : State} (h : s.Ready) (p : U16) (bytes : List Byte) :
    exec (.pecchk p bytes) s = .next { s with
      answer := .matched (decide (pec15 bytes = p))
      ports := s.ports ++ [.phase .compute, .phase .idle] } := by
  have hmatch : pecCheck bytes p = decide (pec15 bytes = p) := beq_eq_decide _ _
  rw [exec_pecchk, request_of_ready h (by rfl),
    computing_of_idle (s := { s with answer := .none }) h.1 fun _ _ _ => rfl, hmatch]
  rfl

/-- Settles O6: the request bytes, and the one next state of each operation in a ready block. -/
theorem checksumOperations : Obligations.ChecksumOperations :=
  ⟨fun p bytes =>
      ⟨(Laws.RequestByte.pec15 bytes).trans (congrArg some (by decide : requestByte false 0x01 = 0x01)),
        (Laws.RequestByte.pecchk p bytes).trans (congrArg some (by decide : requestByte false 0x02 = 0x02))⟩,
    fun _ bytes h => ⟨exec_pec15_ready h bytes, fun p => exec_pecchk_ready h p bytes⟩⟩

end Sys2Proof.Machine
end

section
/-! SUPPORT. Family 41_frame_write: what a bus operation leaves whatever the environment does, one induction (`Kept`)
over its stages and moves (41_frame_write.md R114 to R116, 60_exceptions.md R223). -/

namespace Sys2Proof.Machine

/-! ### The buffers -/

/-- The bytes of `new` within the frame are the frame's, those beyond it are those of `old` (41_frame_write.md R114). -/
def FrameIn (n : Nat) (f : Frame) (old new : Memory) : Prop :=
  ∀ a, memRead new a = if a < frameLen n f then (frameBytes n f)[a]? else memRead old a

/-- Assembling a frame again, over a buffer that may hold it already, leaves the frame and the same bytes beyond it. -/
theorem frameIn_memWriteBytes {n : Nat} {f : Frame} (hf : frameFits n f = true) {old mid : Memory}
    (h : ∀ a, frameLen n f ≤ a → memRead mid a = memRead old a) :
    FrameIn n f old (memWriteBytes mid 0 (frameBytes n f)) := by
  intro a
  rw [memRead_memWriteBytes, length_frameBytes hf]
  by_cases ha : a < frameLen n f
  · simp [ha]
  · simp [ha, h a (Nat.le_of_not_lt ha)]

theorem FrameIn.beyond {n : Nat} {f : Frame} {old new : Memory} (h : FrameIn n f old new) {a : Nat}
    (ha : frameLen n f ≤ a) : memRead new a = memRead old a := by
  rw [h a, if_neg (Nat.not_lt.2 ha)]

theorem assembled_of_frameIn {f : Frame} {s t : State} (hf : frameFits s.n f = true)
    (h : FrameIn s.n f s.tx t.tx) : Assembled f s t where
  frame := by
    rw [memReadBytes_eq_some]
    exact ⟨length_frameBytes hf, fun j hj => by rw [Nat.zero_add, h j, if_pos hj]⟩
  rest _ ha := h.beyond ha

/-- Up to offset `len` bytes were stored or left unspecified, so that none that held a value has lost it; beyond it
nothing changed (41_frame_write.md R115). -/
structure WrittenBelow (len : Nat) (old new : Memory) : Prop where
  within : ∀ a, a < len → memRead new a = memRead old a ∨ ∃ b, memRead new a = some b
  beyond : ∀ a, len ≤ a → memRead new a = memRead old a

theorem writtenBelow_refl (len : Nat) (m : Memory) : WrittenBelow len m m := ⟨fun _ _ => .inl rfl, fun _ _ => rfl⟩

theorem WrittenBelow.memWrite {len a : Nat} {old new : Memory} (h : WrittenBelow len old new) (ha : a < len)
    (v : Byte) : WrittenBelow len old (memWrite new a v) := by
  refine ⟨fun b hb => ?_, fun b hb => ?_⟩
  · by_cases hab : b = a
    · exact .inr ⟨v, by rw [hab, memRead_memWrite_self]⟩
    · rw [memRead_memWrite_ne _ _ hab]
      exact h.within b hb
  · rw [memRead_memWrite_ne _ _ (by omega)]
    exact h.beyond b hb

theorem WrittenBelow.memUnspecify {len : Nat} {old new : Memory} (h : WrittenBelow len old new) (d : Nat) :
    WrittenBelow len old (memUnspecify d new len) := by
  refine ⟨fun a ha => ?_, fun a ha => ?_⟩
  · rw [memRead_memUnspecify, if_pos ha]
    obtain he | hv := unspecifiedByte_cases d a (memRead new a)
    · rw [he]
      exact h.within a ha
    · exact .inr hv
  · rw [memRead_memUnspecify, if_neg (Nat.not_lt.2 ha)]
    exact h.beyond a ha

/-! ### The session -/

/-- What no stage and no move of a bus operation writes (41_frame_write.md R116, 60_exceptions.md R223). -/
def besideTransfer (s : State) :
    (Nat × Params × Template × Template × Reg U16 × List HostAction × Bool × List (Vector (Reg Byte) 3)) ×
      List Board × U16 × U16 × Int :=
  (untouched s, s.board, s.code, s.agg, s.errCount)

theorem sessionKept_of_besideTransfer {s t : State} (h : besideTransfer t = besideTransfer s) : SessionKept s t := by
  simp only [besideTransfer, Prod.mk.injEq] at h
  obtain ⟨hu, hboard, hcode, hagg, herr⟩ := h
  obtain ⟨hn, hpar, hcv, hax, hout, hpend, htorn⟩ := sequenceKept_of_untouched hu
  exact ⟨hn, hpar, hboard, hcv, hax, hout, hpend, htorn, hcode, hagg, herr⟩

theorem n_of_besideTransfer {s t : State} (h : besideTransfer t = besideTransfer s) : t.n = s.n :=
  (sessionKept_of_besideTransfer h).n

@[simp] theorem besideTransfer_resultTask (f : Frame) (s : State) :
    besideTransfer (stage (resultTask f) s) = besideTransfer s := by
  cases hd : frameDir f <;> simp [resultTask, hd, stage, besideTransfer, untouched, commBytes]

@[simp] theorem besideTransfer_beginBus (f : Frame) (s : State) : besideTransfer (beginBus f s) = besideTransfer s := by
  simp [besideTransfer, untouched, commBytes]

@[simp] theorem besideTransfer_startTransfer (m : Mode) (f : Frame) (s : State) :
    besideTransfer (startTransfer m f s) = besideTransfer s := by
  simp [besideTransfer, untouched, commBytes]

@[simp] theorem besideTransfer_moveByte (b : Byte) (len : Nat) (dir : Dir) (s : State) :
    besideTransfer (moveByte b len dir s) = besideTransfer s := by
  simp [besideTransfer, untouched, commBytes]

@[simp] theorem besideTransfer_finishBlocking (st : Status) (len : Nat) (s : State) :
    besideTransfer (finishBlocking st len s) = besideTransfer s := by
  simp [besideTransfer, untouched, commBytes]

@[simp] theorem besideTransfer_takeCompletion (len : Nat) (dir : Dir) (s : State) :
    besideTransfer (takeCompletion len dir s) = besideTransfer s := by
  simp [besideTransfer, untouched, commBytes]

/-! ### Every part of a bus operation -/

/-- What holds of the state from the start of the idle wait of a bus operation that sends `f` until it is over, `s₀`
being the state before it. -/
abbrev Underway (f : Frame) (s₀ s : State) : Prop :=
  besideTransfer s = besideTransfer s₀ ∧ FrameIn s₀.n f s₀.tx s.tx ∧
    WrittenBelow (frameLen s₀.n f) s₀.rx s.rx ∧ (frameDir f = .writeOnly → s.pecFail = s₀.pecFail)

/-- Stage 4 of a write leaves the flags (41_frame_write.md R116). -/
theorem pecFail_resultTask {f : Frame} (h : frameDir f = .writeOnly) (s : State) :
    (stage (resultTask f) s).pecFail = s.pecFail := by
  simp [resultTask, h, stage]

@[simp] theorem tx_resultTask (f : Frame) (s : State) : (stage (resultTask f) s).tx = s.tx := by
  cases hd : frameDir f <;> simp [resultTask, hd, stage]

@[simp] theorem rx_resultTask (f : Frame) (s : State) : (stage (resultTask f) s).rx = s.rx := by
  cases hd : frameDir f <;> simp [resultTask, hd, stage]

/-- A bus operation makes one transfer. -/
theorem frame_eq_of_mem {m m' : Mode} {f f' : Frame} (h : .bus m' f' ∈ [Task.bus m f, resultTask f]) : f' = f := by
  have hs : Task.bus m' f' ≠ resultTask f := by cases hd : frameDir f <;> simp [resultTask, hd]
  simp only [List.mem_cons, List.not_mem_nil, or_false, hs, Task.bus.injEq] at h
  exact h.2

/-- A stage of a bus operation that makes no transfer is its stage 4 (41_frame_write.md R110). -/
theorem eq_resultTask_of_mem {m : Mode} {f : Frame} {t : Task} (h : t ∈ [Task.bus m f, resultTask f])
    (ht : transferOf t = none) : t = resultTask f := by
  simp only [List.mem_cons, List.not_mem_nil, or_false] at h
  exact h.resolve_left fun he => by simp [he, transferOf] at ht

theorem kept_underway {s₀ : State} (m : Mode) {f : Frame} (hf : frameFits s₀.n f = true) :
    Kept (· ∈ [Task.bus m f, resultTask f]) (Underway f s₀) where
  todo _ _ h := h
  script _ _ h := h
  draws _ _ h := h
  stage t s hA ht := by
    rintro ⟨hk, htx, hrx, hpf⟩
    obtain rfl := eq_resultTask_of_mem hA ht
    exact ⟨by simpa using hk, by simpa using htx, by simpa using hrx,
      fun hd => (pecFail_resultTask hd s).trans (hpf hd)⟩
  bus _ f' s hA := by
    rintro ⟨hk, htx, hrx, hpf⟩
    obtain rfl := frame_eq_of_mem hA
    refine ⟨by simpa using hk, ?_, by simpa using hrx, by simpa using hpf⟩
    rw [beginBus_tx, n_of_besideTransfer hk]
    exact frameIn_memWriteBytes hf fun a => htx.beyond
  poll _ _ h := h
  delay _ _ _ h := h
  sleep _ h := h
  start m' f' s hA := by
    rintro ⟨hk, htx, hrx, hpf⟩
    obtain rfl := frame_eq_of_mem hA
    refine ⟨by simpa using hk, by simpa using htx, ?_, by simpa using hpf⟩
    rw [startTransfer_rx, n_of_besideTransfer hk]
    split
    · exact hrx
    · exact hrx.memUnspecify _
  timeout _ h := h
  move b _ f' s hA := by
    rintro ⟨hk, htx, hrx, hpf⟩
    obtain rfl := frame_eq_of_mem hA
    refine ⟨by simpa using hk, by simpa using htx, ?_, by simpa using hpf⟩
    rw [moveByte_rx, n_of_besideTransfer hk]
    split
    · rename_i hmoves
      exact hrx.memWrite hmoves.1 b
    · exact hrx
  ret st _ f' s hA := by
    rintro ⟨hk, htx, hrx, hpf⟩
    obtain rfl := frame_eq_of_mem hA
    refine ⟨by simpa using hk, by simpa using htx, ?_, by simpa using hpf⟩
    rw [finishBlocking_rx, n_of_besideTransfer hk]
    split
    · exact hrx
    · exact hrx.memUnspecify _
  complete _ h := h
  error _ h := h
  take _ f' s hA := by
    rintro ⟨hk, htx, hrx, hpf⟩
    obtain rfl := frame_eq_of_mem hA
    refine ⟨by simpa using hk, by simpa using htx, ?_, by simpa using hpf⟩
    rw [takeCompletion_rx, n_of_besideTransfer hk]
    split
    · exact hrx.memUnspecify _
    · exact hrx

theorem underway_begun {s : State} (m : Mode) {f : Frame} (hf : frameFits s.n f = true) :
    Underway f s (begun m f s) := by
  refine ⟨besideTransfer_beginBus f _, ?_, by simpa [begun] using writtenBelow_refl _ _, by simp [begun]⟩
  simpa [begun] using frameIn_memWriteBytes hf fun a _ => rfl

/-- Whatever the environment does, the next state of a bus operation is one of those it can leave. -/
theorem underway_exec {s t : State} {i : Instr} {m : Mode} {f : Frame} (hb : busFrame s i = some (m, f))
    (h : exec i s = .next t) : frameFits s.n f = true ∧ Underway f s t := by
  obtain ⟨-, hw, rfl⟩ := exec_bus_next hb h
  have hf := busFrame_fits hb hw
  exact ⟨hf, (kept_underway m hf).drive (fun _ ht => by simpa [begun] using ht) (underway_begun m hf)⟩

/-- Settles O38: from the assembly on `tx` holds the frame. -/
theorem frameAssembledAfresh : Obligations.FrameAssembledAfresh := by
  intro s t i m f hb h
  obtain ⟨hf, -, htx, -, -⟩ := underway_exec hb h
  exact assembled_of_frameIn hf htx

/-! ### The mirror -/

/-- Of the stages only a parse writes the mirror (10_state.md R14). -/
theorem board_stage {t : Task} (h : ∀ grp, t ≠ .parse grp) (s : State) : (stage t s).board = s.board := by
  cases t with
  | parse grp => exact absurd rfl (h grp)
  | _ => simp [stage]

theorem kept_board (bs : List Board) : Kept (fun t => ∀ grp, t ≠ .parse grp) (fun s => s.board = bs) where
  todo _ _ h := h
  script _ _ h := h
  draws _ _ h := h
  stage _ s hA _ h := (board_stage hA s).trans h
  bus _ _ _ _ h := by simpa using h
  poll _ _ h := h
  delay _ _ _ h := h
  sleep _ h := h
  start _ _ _ _ h := by simpa using h
  timeout _ h := h
  move _ _ _ _ _ h := by simpa using h
  ret _ _ _ _ _ h := by simpa using h
  complete _ h := h
  error _ h := h
  take _ _ _ _ h := by simpa using h

/-- Settles O39: a move writes the mirror by a parse stage alone, and `Underway` says what an operation leaves. -/
theorem busOperationFrame : Obligations.BusOperationFrame := by
  refine ⟨fun s e hparse => ?_, fun s t i m f hb h => ?_⟩
  · exact (kept_board s.board).react (fun t ht grp he => hparse grp (he ▸ ht)) rfl e
  · obtain ⟨-, hk, -, hrx, hpf⟩ := underway_exec hb h
    exact ⟨sessionKept_of_besideTransfer hk, hpf, hrx.beyond, fun a ha _ => hrx.within a ha⟩

end Sys2Proof.Machine
end

section
/-! SUPPORT. Family 41_frame_write: a write whose transfer is served (41_frame_write.md R110 to R116), and the stages of
a served bus operation on the ports (41_frame_write.md R110, 42_frame_read_parse.md R130). -/

namespace Sys2Proof.Machine

/-! ### Served writes -/

/-- With every offset within the frame marked, a parse takes none of its bytes, and beyond it what it took before
(42_frame_read_parse.md R137 (e)). -/
theorem rxUnspecified_of_marks {f : Frame} {s t : State} (hu : t.rxUnspec = max s.rxUnspec (frameLen s.n f))
    (hrx : WrittenBelow (frameLen s.n f) s.rx t.rx) : RxUnspecified f s t where
  within := hrx.within
  parsed a ha := by
    have hmarked : a < t.rxUnspec := by omega
    simp [rxValue, hmarked]
  beyond := hrx.beyond
  marks _ a ha := by
    have hmarked : a < t.rxUnspec ↔ a < s.rxUnspec := by omega
    simp [rxValue, hmarked, hrx.beyond a ha]

/-- The bytes a served transfer puts on the wire are those of the frame in `tx` (20_memory.md R54). -/
theorem wireBytes_served {s : State} {m : Mode} {f : Frame} (hf : frameFits s.n f = true) {bytes : List Byte}
    (hlen : bytes.length = frameLen s.n f) {tx : Memory} (htx : s.tx = memWriteBytes tx 0 (frameBytes s.n f)) :
    wireBytes (served m f bytes s).ports = wireBytes s.ports ++ frameBytes s.n f := by
  rw [served_ports _ _ _ _ hlen.le, htx, hlen, ← length_frameBytes hf, wires_memWriteBytes]
  cases m <;> cases hd : frameDir f <;> simp

theorem Served.length_eq {m : Mode} {len : Nat} {bytes : List Byte} {moves : List EnvEvent}
    (h : Served m len bytes moves) : bytes.length = len := by
  obtain ⟨-, -, -, -, -, hlen, -⟩ := h
  exact hlen

/-- Any write of a ready block, its transfer served: what the transfer and stage 4 leave, and what no bus operation
touches. -/
theorem exec_write_served {s : State} {i : Instr} {m : Mode} {f : Frame} (hb : busFrame s i = some (m, f))
    (hd : frameDir f = .writeOnly) (hr : s.Ready) (hw : i.wellFormed s.n = true) {bytes : List Byte}
    {moves left : List EnvEvent} (hs : Served m (frameLen s.n f) bytes moves) (hm : s.script = moves ++ left) :
    ∃ t, exec i s = .next t ∧ t.script = left ∧ WriteServed m f s t := by
  obtain ⟨p, b, ds, hy, hexec⟩ := exec_served hb hr hw hs hm
  have hresult : resultTask f = .endWrite := by simp [resultTask, hd]
  rw [hresult] at hexec
  obtain ⟨hf, hk, htx, hrx, hpf⟩ := underway_exec hb hexec
  refine ⟨_, hexec, rfl, ?_⟩
  exact {
    phase := by simp [stage]
    status := by simp [stage]
    answer := by simp [stage]
    cs := by simp [stage]
    tx := assembled_of_frameIn hf htx
    rx := rxUnspecified_of_marks (by simp [stage, hd, begun]) hrx
    wire := by
      simp only [stage, endWrite_ports]
      rw [wireBytes_append, wireBytes_served (by simpa [begun] using hf) (by simpa [begun] using hs.length_eq)
        (tx := s.tx) (by simp [begun])]
      simp [begun, wireBytes_yields hy]
    pecFail := hpf hd
    kept := sessionKept_of_besideTransfer hk }

/-- Settles O22: WRCMD sends a command frame. -/
theorem wrcmdServed : Obligations.WrcmdServed := fun _ _ _ _ _ _ hr hs hm =>
  exec_write_served rfl rfl hr rfl hs hm

/-- Settles O23: WRBCAST sends a write frame whose blocks are `N` copies of the payload. -/
theorem wrbcastServed : Obligations.WrbcastServed := by
  intro s m addr p6 bytes moves left hr h6
  have hw : Instr.wellFormed s.n (.wrbcast m addr p6) = true := by
    simp [Instr.wellFormed, Instr.inRange, Instr.perChip, okPayload, h6]
  exact exec_write_served rfl rfl hr hw

/-- Settles O24: WRCFG sends a write frame whose blocks are the payloads reversed. -/
theorem wrcfgServed : Obligations.WrcfgServed := by
  intro s m payloads bytes moves left hr hlen h6
  have hw : Instr.wellFormed s.n (.wrcfg m payloads) = true := by
    rw [(wellFormed_perChip m payloads s.n).1]
    exact okPayloads_iff.2 ⟨hlen, h6⟩
  have hb : busFrame s (.wrcfg m payloads) = some (m, .wr s.par.given.cmdWrcfg payloads.reverse) := by
    rw [busFrame, configFrame, configBlocks_eq_reverse hlen]
  exact exec_write_served hb rfl hr hw

/-! ### The stages on the ports -/

/-- A bus operation whose first poll lets the transfer start, served: stage 4 on the state the transfer left. -/
theorem exec_served_at_first_poll {s : State} {i : Instr} {m : Mode} {f : Frame} (h : busFrame s i = some (m, f))
    (hr : s.Ready) (hw : i.wellFormed s.n = true) {bus : BusState} (hgo : mayStart m bus = true) {expired : Bool}
    {bytes : List Byte} (hlen : bytes.length = frameLen s.n f) {left : List EnvEvent}
    (hm : s.script = .poll bus expired :: (transferMoves m bytes ++ left)) :
    exec i s = .next { stage (resultTask f) (served m f bytes { begun m f s with busState := bus }) with
      todo := [], script := left } := by
  have htodo : (begun m f s).todo = .bus m f :: [resultTask f] := by simp [begun]
  rw [exec_bus_ready h hr hw, hm,
    drive_transfer (by simp [begun]) htodo hgo expired (by simpa [begun]) left,
    runTasks_stage (transferOf_resultTask f), runTasks_nil, drive_idle (by simpa using phase_resultTask f _)]

/-- Stage 4 on the ports where the transfer succeeded: a read validates (42_frame_read_parse.md R130). -/
theorem ports_resultTask (f : Frame) {s : State} (h : s.status = .ok) :
    (stage (resultTask f) s).ports = s.ports ++
      match frameDir f with
      | .writeOnly => [.phase .idle]
      | .duplex => [.phase .validate, .phase .idle] := by
  cases hd : frameDir f <;> simp [resultTask, hd, stage, h]

/-- Settles O27: the ports of the beginning, of the served transfer and of stage 4, one after the other. -/
theorem servedBusTrace : Obligations.ServedBusTrace := by
  intro s i m f bus expired bytes left hr hw hb hgo hlen hm
  have hl := length_frameBytes (busFrame_fits hb hw)
  refine ⟨_, exec_served_at_first_poll hb hr hw hgo hlen hm, rfl, ?_⟩
  simp only [ports_resultTask f (served_status _ _ _ _)]
  rw [served_ports _ _ _ _ (by simp [begun, hlen])]
  simp only [begun, beginBus_tx, beginBus_n, beginBus_par, beginBus_pwr, beginBus_ports, hlen, ← hl,
    wires_memWriteBytes]
  cases m <;> cases hd : frameDir f <;> simp

end Sys2Proof.Machine
end

section
/-! SUPPORT. Family 42_frame_read_parse: a register read whose transfer is served (42_frame_read_parse.md R130, R131). -/

namespace Sys2Proof.Machine

/-! ### A served read -/

/-- RDREG served is stage 4 on a state whose transfer succeeded, with chip-select released and the frame on the wire
(43_transport.md R158, R162). -/
theorem exec_rdreg_eq_endRead {s : State} {m : Mode} {addr : U16} (hr : s.Ready) {bytes : List Byte}
    {moves left : List EnvEvent} (hs : Served m (bufLen s.n) bytes moves) (hm : s.script = moves ++ left) :
    ∃ u, exec (.rdreg m addr) s = .next { endRead u with todo := [], script := left } ∧ u.status = .ok ∧
      u.cs = false ∧ wireBytes u.ports = wireBytes s.ports ++ frameBytes s.n (.rd addr) := by
  obtain ⟨p, b, ds, hy, hexec⟩ := exec_served (i := .rdreg m addr) (f := .rd addr) rfl hr rfl hs hm
  refine ⟨_, hexec, served_status _ _ _ _, ?_, ?_⟩
  · cases m <;> simp [csAfter, frameDir]
  · rw [wireBytes_served rfl (by simpa [begun, frameLen] using hs.length_eq) (tx := s.tx) (by simp [begun])]
    simp [begun, wireBytes_yields hy]

/-- After a served read a parse finds every received byte (42_frame_read_parse.md R131, R137 (e)). -/
theorem ReadDone.rxValue_eq {bytes : List Byte} {s t : State} (h : ReadDone bytes s t) {a : Nat}
    (ha : a < bytes.length) : rxValue t a = bytes[a]? := by
  obtain ⟨-, hread⟩ := (memReadBytes_eq_some _ _ _ _).1 h.rx
  have hbyte : memRead t.rx (0 + a) = bytes[a]? := hread a ha
  rw [Nat.zero_add] at hbyte
  rw [rxValue, h.rxUnspec, if_neg (Nat.not_lt_zero a), hbyte]

/-- Settles O28: `exec_rdreg_served` says what is in `rx` and in the flags, `underway_exec` what is in `tx` and what no
bus operation writes, and `exec_rdreg_eq_endRead` the rest. -/
theorem rdregServed : Obligations.RdregServed := by
  intro s m addr bytes moves left hr hs hm
  have hlen : bytes.length = bufLen s.n := hs.length_eq
  obtain ⟨u, hexec, hok, hcs, hwire⟩ := exec_rdreg_eq_endRead (addr := addr) hr hs hm
  obtain ⟨t, ht, hdone⟩ := exec_rdreg_served (addr := addr) hr hs hm
  obtain rfl := Host.Outcome.next.inj (hexec.symm.trans ht)
  obtain ⟨hf, hkept, htx, hrx, -⟩ := underway_exec (f := .rd addr) rfl hexec
  have hflags : (List.range u.n).map (blockFails u) = readFlags s.n bytes := by simpa [hok] using hdone.flags
  refine ⟨_, hexec, rfl, hdone.ready.1, ?status, ?answer, ?pecFail, ?cs, assembled_of_frameIn hf htx,
    hlen ▸ hdone.rx, fun a ha => hdone.rxValue_eq (hlen ▸ ha), hrx.beyond, ?wire, sessionKept_of_besideTransfer hkept⟩
  case status => simp [hok]
  case answer => simp [hok, hflags]
  case pecFail => simp [hok, hflags]
  case cs => simp [hcs]
  case wire => simp [hok, hwire]

/-! ### One wrong checksum -/

section received
variable {head : List Byte} {blocks : List (List Byte)} (hh : head.length = 4) (h8 : ∀ b ∈ blocks, b.length = 8)
  {j : Nat} (hj : j < blocks.length)
include hh h8 hj

/-- Received block `j` stands at `B(j)`, whatever its checksum (20_memory.md R41). -/
theorem drop_blockAt_flatten :
    (head ++ blocks.flatten).drop (blockAt j) = blocks[j] ++ (blocks.drop (j + 1)).flatten := by
  have hsum : ((blocks.map List.length).take j).sum = 8 * j := by
    have hall : blocks.map List.length = List.replicate blocks.length 8 :=
      List.eq_replicate_iff.2 ⟨by simp, by simpa using h8⟩
    rw [hall, List.take_replicate, List.sum_replicate, Nat.min_eq_left (Nat.le_of_lt hj), smul_eq_mul, Nat.mul_comm]
  rw [blockAt, ← hh, List.drop_length_add_append, ← hsum, List.drop_sum_flatten, List.drop_eq_getElem_cons hj,
    List.flatten_cons]

/-- A received block passes the check exactly when the checksum it carries is that of its data
(42_frame_read_parse.md R131). -/
theorem blockAccepted_of_received {d : List Byte} (hd : d.length = 6) {q : U16} (hb : blocks[j] = d ++ [hi q, lo q]) :
    blockAccepted (head ++ blocks.flatten) j = pecCheck d q := by
  have hdrop := drop_blockAt_flatten hh h8 hj
  have hbyte (k : Nat) : (head ++ blocks.flatten).getD (blockAt j + k) 0 =
      (d ++ [hi q, lo q] ++ (blocks.drop (j + 1)).flatten).getD k 0 := by
    rw [List.getD_eq_getElem?_getD, ← List.getElem?_drop, hdrop, hb, List.getD_eq_getElem?_getD]
  rw [blockAccepted, hbyte, hbyte, hdrop, hb]
  simp [hd, List.getElem?_append_right]

end received

/-- With a wrong checksum in block `k` alone, the flags are set at position `k` alone (42_frame_read_parse.md R131). -/
theorem readFlags_of_wrong_checksum {noise : List Byte} (hn : noise.length = 4) {groups : List (List Byte)}
    (h6 : ∀ d ∈ groups, d.length = 6) {k : Nat} (hk : k < groups.length) {p : U16} (hp : p ≠ pec15 groups[k]) :
    readFlags groups.length (noise ++ ((groups.map chipBlock).set k (groups[k] ++ [hi p, lo p])).flatten) =
      (List.range groups.length).map fun j => decide (j = k) := by
  have h8 : ∀ b ∈ (groups.map chipBlock).set k (groups[k] ++ [hi p, lo p]), b.length = 8 := by
    intro b hb
    obtain hb | rfl := List.mem_or_eq_of_mem_set hb
    · obtain ⟨d, hd, rfl⟩ := List.mem_map.1 hb
      rw [length_chipBlock, h6 d hd]
    · simp [h6]
  refine List.map_congr_left fun j hj => ?_
  have hj : j < groups.length := List.mem_range.1 hj
  have hjs : j < ((groups.map chipBlock).set k (groups[k] ++ [hi p, lo p])).length := by simpa using hj
  have hd : groups[j].length = 6 := h6 _ (List.getElem_mem hj)
  by_cases hjk : j = k
  · subst hjk
    rw [blockAccepted_of_received hn h8 hjs hd (List.getElem_set_self hjs)]
    simpa [pecCheck] using hp.symm
  · have hown : ((groups.map chipBlock).set k (groups[k] ++ [hi p, lo p]))[j] =
        groups[j] ++ [hi (pec15 groups[j]), lo (pec15 groups[j])] := by
      rw [List.getElem_set_ne (Ne.symm hjk), List.getElem_map, chipBlock]
    rw [blockAccepted_of_received hn h8 hjs hd hown]
    simp [pecCheck, hjk]

/-- Settles O29: the read of O28, and its flags by position. -/
theorem oneWrongChecksumOneFailure : Obligations.OneWrongChecksumOneFailure := by
  intro s m addr noise groups k p moves left hk hr hnoise hgroups h6 hp hs hm
  obtain ⟨t, hexec, -, -, hstatus, -, hpec, -⟩ := rdregServed s m addr _ moves left hr hs hm
  refine ⟨t, hexec, hstatus, ?_⟩
  rw [hpec, ← hgroups]
  exact readFlags_of_wrong_checksum hnoise h6 hk hp

end Sys2Proof.Machine
end

section
/-! SUPPORT. Family 42_frame_read_parse: the parse operations (42_frame_read_parse.md R133 to R137). -/

namespace Sys2Proof.Machine

/-! ### What a parse makes of an entry -/

/-- What a parse takes from two bytes of `rx` is the value of the statements (42_frame_read_parse.md R137 (e)). -/
theorem wordParsed_rxWord (s : State) (i k : Nat) : wordParsed s i k (rxWord s i k) := by
  cases h0 : rxValue s (blockAt i + 2 * k) <;> cases h1 : rxValue s (blockAt i + 2 * k + 1) <;>
    simp [wordParsed, rxWord, h0, h1]

theorem byteParsed_rxByte (s : State) (i k : Nat) : byteParsed s i k (rxByte s i k) := by
  cases h : rxValue s (blockAt i + k) <;> simp [byteParsed, rxByte, h]

/-- Every element of a register array of which elements `3g .. 3g+2` are set. -/
theorem setTriple_getElem {size : Nat} (v : Vector (Reg U16) size) (g : Nat) (w : Nat → Reg U16) {e : Nat}
    (h : e < size) : (setTriple v g w)[e] = if e / 3 = g then w (e % 3) else v[e] := by
  by_cases hg : e / 3 = g
  · have hw : (setTriple v g w)[3 * g + e % 3]? = some (w (e % 3)) := setTriple_getElem? v w (by omega) (by omega)
    have he : 3 * g + e % 3 = e := by omega
    simpa [hg, he, h] using hw
  · have h0 : 3 * g ≠ e := by omega
    have h1 : 3 * g + 1 ≠ e := by omega
    have h2 : 3 * g + 2 ≠ e := by omega
    simp [setTriple, hg, h0, h1, h2]

/-- A group that is parsed into its slice leaves the rest of the array (42_frame_read_parse.md R137 (d)). -/
theorem sliceParsed_setTriple (s : State) (i g : Nat) {size : Nat} (v : Vector (Reg U16) size) :
    sliceParsed s i g size v (setTriple v g (rxWord s i)) := by
  intro e he
  rw [setTriple_getElem v g _ he]
  by_cases hg : e / 3 = g
  · simpa [hg] using wordParsed_rxWord s i (e % 3)
  · simp [hg]

/-- Setting the same three elements again leaves the second values. -/
theorem setTriple_setTriple {size : Nat} (v : Vector (Reg U16) size) (g : Nat) {w w' : Nat → Reg U16}
    (h : ∀ k, k < 3 → w' k = w k) : setTriple (setTriple v g w) g w' = setTriple v g w := by
  ext e he : 1
  have hk := h (e % 3) (by omega)
  rw [setTriple_getElem _ _ _ he, setTriple_getElem _ _ _ he, hk]
  split <;> rfl

/-! ### The parse operations -/

/-- The group that a parse operation names (42_frame_read_parse.md R133 to R136). -/
def parsedGroup (i : Instr) : Option Group :=
  match i with
  | .parsecv g => some (.cv g.toNat)
  | .parseaux g => some (.aux g.toNat)
  | .parsestat g => some (.stat g.toNat)
  | .parsecfg => some .cfg
  | _ => none

/-- The operands of a parse operation have no part that depends on the chain length (30_encoding.md R71). -/
theorem wellFormed_parse {i : Instr} {grp : Group} (h : parsedGroup i = some grp) (n : Nat) :
    i.wellFormed n = i.inRange := by
  cases i <;> simp only [parsedGroup, reduceCtorEq] at h
  all_goals simp [Instr.wellFormed, Instr.perChip]

/-- The four parse operations are one request. -/
theorem exec_parse {i : Instr} {grp : Group} (h : parsedGroup i = some grp) (s : State) :
    exec i s = request i.inRange s (parseOperation grp) := by
  rw [exec_eq_request, wellFormed_parse h]
  cases i <;> simp only [parsedGroup, Option.some.injEq, reduceCtorEq] at h
  all_goals
    subst h
    rfl

/-- In phase IDLE a parse operation writes the board alone, beside the draw counter, the answer and the recorded phases
(42_frame_read_parse.md R137 (d)). -/
theorem exec_parse_ready {i : Instr} {grp : Group} (h : parsedGroup i = some grp) {s : State} (hr : s.Ready)
    (hin : i.inRange = true) :
    exec i s = .next { s with
      board := s.board.mapIdx (parseBoard s grp), draws := s.draws + 1, answer := .done
      ports := s.ports ++ [.phase .compute, .phase .idle] } := by
  have hphases (t : State) (q : Phase) (ps : List PortEvent) :
      parseGroup grp { t with phase := q, ports := ps } = { parseGroup grp t with phase := q, ports := ps } := by
    cases grp <;> rfl
  rw [exec_parse h, request_of_ready hr hin, parseOperation,
    computing_of_idle (s := { s with answer := .none }) hr.1 hphases]
  cases grp <;> rfl

/-- Settles O42: the next state of `exec_parse_ready`, entry by entry. -/
theorem parsecvStoresGroup : Obligations.ParsecvStoresGroup := by
  refine ⟨fun g => (Laws.RequestByte.parsecv g).trans (congrArg some (by decide : requestByte false 0x09 = 0x09)),
    fun s g hr hg => ?_, fun s g hr hg => ?_⟩
  · exact exec_of_not_inRange hr (by simp only [Instr.inRange, okCvGroup, decide_eq_false_iff_not]; omega)
  · have hin : okCvGroup g = true := decide_eq_true hg
    refine ⟨_, exec_parse_ready rfl hr hin, List.length_mapIdx, fun i h h' => ?_⟩
    rw [List.getElem_mapIdx]
    exact ⟨rfl, sliceParsed_setTriple s i g.toNat _⟩

/-- Settles O43: the next states of `exec_parse_ready`, entry by entry. -/
theorem parseauxAndParsestatStoreGroup : Obligations.ParseauxAndParsestatStoreGroup := by
  refine ⟨fun g =>
      ⟨(Laws.RequestByte.parseaux g).trans (congrArg some (by decide : requestByte false 0x0A = 0x0A)),
        (Laws.RequestByte.parsestat g).trans (congrArg some (by decide : requestByte false 0x0B = 0x0B))⟩,
    fun s g hr hg => ?_, fun s g hr hg => ?_⟩
  · have hout : okPairGroup g = false := by simp only [okPairGroup, decide_eq_false_iff_not]; omega
    exact ⟨exec_of_not_inRange hr hout, exec_of_not_inRange hr hout⟩
  · have hin : okPairGroup g = true := decide_eq_true hg
    refine ⟨⟨_, exec_parse_ready (i := .parseaux g) rfl hr hin, List.length_mapIdx, fun i h h' => ?_⟩,
      ⟨_, exec_parse_ready (i := .parsestat g) rfl hr hin, List.length_mapIdx, fun i h h' => ?_⟩⟩
    all_goals rw [List.getElem_mapIdx]
    all_goals exact ⟨rfl, sliceParsed_setTriple s i g.toNat _⟩

/-- Settles O44: the next state of `exec_parse_ready`, entry by entry. -/
theorem parsecfgStoresBytes : Obligations.ParsecfgStoresBytes := by
  refine ⟨Laws.RequestByte.parsecfg, fun s hr => ⟨_, exec_parse_ready rfl hr rfl, List.length_mapIdx, fun i h h' => ?_⟩⟩
  rw [List.getElem_mapIdx]
  refine ⟨rfl, fun k hk => ?_⟩
  simpa [parseBoard] using byteParsed_rxByte s i k

/-! ### Parsing twice -/

section twice
variable {s t : State} (hpar : t.par = s.par) (hrx : ∀ a, rxValue t a = rxValue s a)
include hpar hrx

/-- A value whose two bytes are there does not depend on the draw (42_frame_read_parse.md R137 (a)). -/
theorem rxWord_congr {i k : Nat} (h0 : (rxValue s (blockAt i + 2 * k)).isSome = true)
    (h1 : (rxValue s (blockAt i + 2 * k + 1)).isSome = true) : rxWord t i k = rxWord s i k := by
  obtain ⟨a, ha⟩ := Option.isSome_iff_exists.1 h0
  obtain ⟨b, hb⟩ := Option.isSome_iff_exists.1 h1
  simp [rxWord, hpar, hrx, ha, hb]

omit hpar in
theorem rxByte_congr {i k : Nat} (h : (rxValue s (blockAt i + k)).isSome = true) : rxByte t i k = rxByte s i k := by
  obtain ⟨a, ha⟩ := Option.isSome_iff_exists.1 h
  simp [rxByte, hrx, ha]

/-- Where every byte of the buffer holds a value, a second parse of an entry changes nothing
(42_frame_read_parse.md R137 (a)). -/
theorem parseBoard_parseBoard (hall : ∀ a, a < bufLen s.n → (rxValue s a).isSome = true) (grp : Group) {i : Nat}
    (hi : i < s.n) (b : Board) : parseBoard t grp i (parseBoard s grp i b) = parseBoard s grp i b := by
  have hin {k : Nat} (hk : k < 6) : (rxValue s (blockAt i + k)).isSome = true :=
    hall _ (by simp only [blockAt, bufLen]; omega)
  have hword (k : Nat) (hk : k < 3) : rxWord t i k = rxWord s i k :=
    rxWord_congr hpar hrx (hin (by omega)) (hin (k := 2 * k + 1) (by omega))
  have hbyte (k : Fin 6) : rxByte t i k = rxByte s i k := rxByte_congr hrx (hin k.isLt)
  cases grp with
  | cv g => simp only [parseBoard, setTriple_setTriple _ g hword]
  | aux g => simp only [parseBoard, setTriple_setTriple _ g hword]
  | stat g => simp only [parseBoard, setTriple_setTriple _ g hword]
  | cfg => simp only [parseBoard, hbyte]

end twice

/-- Settles O45: the first run leaves `rx` as it was, so the second takes the same values from it. -/
theorem parseTwiceSameMirror : Obligations.ParseTwiceSameMirror := by
  intro s t u i hi hlen hall ht hu
  obtain ⟨grp, hgrp⟩ : ∃ grp, parsedGroup i = some grp := by
    obtain ⟨g, rfl⟩ | ⟨g, rfl⟩ | ⟨g, rfl⟩ | rfl := hi
    all_goals exact ⟨_, rfl⟩
  rw [exec_parse hgrp] at ht hu
  obtain ⟨-, -, rfl⟩ := request_next.1 ht
  obtain ⟨-, -, rfl⟩ := request_next.1 hu
  simp only [parseOperation_board]
  refine List.ext_getElem (by simp) fun j h _ => ?_
  have hj : j < s.n := by simpa [hlen] using h
  simp only [List.getElem_mapIdx]
  exact parseBoard_parseBoard (by simp) (fun a => by simp [rxValue]) hall grp hj _

end Sys2Proof.Machine
end

section
/-! SUPPORT. Family 43_transport: the power operations and the chain's Sleep step (43_transport.md R151 to R153). -/

namespace Sys2Proof.Machine

/-! ### The wake pulse -/

/-- The pulse and then phase IDLE change chip-select, the power state and the record of the ports
(43_transport.md R151, R152). -/
theorem wakePulse_then_idle {s : State} (h : s.phase = .idle) (u : DelayUnit) (d : Nat) :
    setPhase .idle (wakePulse u d s) = { s with
      cs := false
      pwr := .idleReady
      ports := s.ports ++ [.phase .wakeCs, .cs true, .delay u d, .cs false, .phase .idle] } := by
  simp [wakePulse, setPhase, setCs, delayFor, emit, h]

/-- `T_REFRESH` is the longer delay, counted in thousandths of a coarse unit (00_scope.md R6; log 35). -/
theorem tWake_lt_refreshDelay (p : Given) : p.tWake < 1000 * refreshDelay p := by
  simp only [refreshDelay, fineUnitsPerCoarse]
  omega

/-- Settles O19: each operation is one pulse, WAKE's with `T_WAKE` and REFRESH's with `T_REFRESH`. -/
theorem wakeAndRefreshPulse : Obligations.WakeAndRefreshPulse := by
  refine ⟨⟨Laws.RequestByte.wake, Laws.RequestByte.refresh⟩, fun s hr =>
    ⟨?wake, refreshDelay s.par.given, tWake_lt_refreshDelay _, ?refresh⟩⟩
  case wake => rw [exec_wake, request_of_ready hr (by rfl), wakePulse_then_idle (s := { s with answer := .none }) hr.1]
  case refresh =>
    rw [exec_refresh, request_of_ready hr (by rfl), refreshOperation, refreshPulse,
      wakePulse_then_idle (s := { s with answer := .none }) hr.1]

/-! ### The Sleep step -/

/-- In the idle wait of a transfer the chain may fall asleep (43_transport.md R153). -/
theorem react_sleep_waitIdle {s : State} (hp : s.phase = .waitIdle) (ht : (currentTransfer s).isSome = true) :
    react .sleep s = chainSleep s := by
  obtain ⟨⟨m, f⟩, hc⟩ := Option.isSome_iff_exists.1 ht
  obtain ⟨rest, htodo⟩ := currentTransfer_eq_some.1 hc
  rw [react_waitIdle hp htodo]
  rfl

/-- Outside the phases IDLE and WAIT_IDLE the Sleep step is no step (43_transport.md R153; log 14). -/
theorem react_sleep_of_busy {s : State} (hi : s.phase ≠ .idle) (hw : s.phase ≠ .waitIdle) : react .sleep s = s := by
  by_cases ht : ∃ m f rest, s.todo = .bus m f :: rest
  · obtain ⟨m, f, rest, ht⟩ := ht
    cases hp : s.phase with
    | idle => exact absurd hp hi
    | waitIdle => exact absurd hp hw
    | xferB => rw [react_xferB hp ht]; rfl
    | waitDone => rw [react_waitDone hp ht]; rfl
    | wakeCs | assemble | validate | compute => simp [react, hp]
  · exact react_of_no_transfer hi (fun m f rest h => ht ⟨m, f, rest, h⟩) _

/-- Settles O20: the Sleep step phase by phase, and the two moments in phase IDLE at which a free flag stands for it. -/
theorem sleepOnlyInIdleOrWait : Obligations.SleepOnlyInIdleOrWait := fun _ =>
  ⟨fun hp => react_idle hp .sleep, react_sleep_waitIdle, react_sleep_of_busy, rfl, fun _ _ hp hq => step_host hp hq⟩

end Sys2Proof.Machine
end

section
/-! SUPPORT. Family 43_transport: how the transfer of a bus operation ends when it is not served, and what the moves that
end it leave (43_transport.md R155 to R159, R163, R164, R167). -/

namespace Sys2Proof.Machine

/-! ### Stage 4 -/

@[simp] theorem cs_resultTask (f : Frame) (s : State) : (stage (resultTask f) s).cs = s.cs := by
  cases hd : frameDir f <;> simp [resultTask, hd, stage]

@[simp] theorem pwr_resultTask (f : Frame) (s : State) : (stage (resultTask f) s).pwr = s.pwr := by
  cases hd : frameDir f <;> simp [resultTask, hd, stage]

@[simp] theorem busState_resultTask (f : Frame) (s : State) : (stage (resultTask f) s).busState = s.busState := by
  cases hd : frameDir f <;> simp [resultTask, hd, stage]

@[simp] theorem errFlag_resultTask (f : Frame) (s : State) : (stage (resultTask f) s).errFlag = s.errFlag := by
  cases hd : frameDir f <;> simp [resultTask, hd, stage]

@[simp] theorem rxUnspec_resultTask (f : Frame) (s : State) : (stage (resultTask f) s).rxUnspec = s.rxUnspec := by
  cases hd : frameDir f <;> simp [resultTask, hd, stage]

/-- The status of the transfer is the answer, with the flags that stage 4 leaves (41_frame_write.md R110,
42_frame_read_parse.md R130). -/
theorem answer_resultTask (f : Frame) (s : State) :
    (stage (resultTask f) s).answer = resultAnswer f s.status (stage (resultTask f) s) := by
  cases hd : frameDir f <;> simp [resultTask, resultAnswer, hd, stage]

/-- Stage 4 does nothing to chip-select. -/
theorem count_cs_resultTask (f : Frame) (b : Bool) (s : State) :
    (stage (resultTask f) s).ports.count (.cs b) = s.ports.count (.cs b) := by
  cases hd : frameDir f
  · simp only [resultTask, hd, stage, endRead_ports]
    split <;> simp
  · simp [resultTask, hd, stage]

/-- Stage 4 is the last of a bus operation. -/
theorem runTasks_resultTask (f : Frame) (s : State) :
    runTasks [resultTask f] s = { stage (resultTask f) s with todo := [] } := by
  rw [runTasks_stage (transferOf_resultTask f), runTasks_nil]

/-- After stage 4 the block is idle, and the moves that are left stay in the script. -/
theorem drive_runTasks_resultTask (f : Frame) (s : State) (es : List EnvEvent) :
    drive es (runTasks [resultTask f] s) = { stage (resultTask f) s with todo := [], script := es } := by
  rw [runTasks_resultTask, drive_idle (by simpa using phase_resultTask f s)]

/-! ### The end of a transfer that was not served -/

/-- With every offset within the frame marked and only bytes within it stored, what was received does not count
(41_frame_write.md R115, 42_frame_read_parse.md R132). -/
theorem rxUnspecified_of_le {f : Frame} {s t : State} (hle : frameLen s.n f ≤ t.rxUnspec)
    (hw : frameDir f = .writeOnly → t.rxUnspec = max s.rxUnspec (frameLen s.n f))
    (hrx : WrittenBelow (frameLen s.n f) s.rx t.rx) : RxUnspecified f s t where
  within := hrx.within
  parsed a ha := by
    have hmarked : a < t.rxUnspec := by omega
    simp [rxValue, hmarked]
  beyond := hrx.beyond
  marks hd := (rxUnspecified_of_marks (hw hd) hrx).marks hd

section ended
variable {s : State} {i : Instr} {m : Mode} {f : Frame} (hb : busFrame s i = some (m, f)) {u : State}
  {left : List EnvEvent}
  (hexec : exec i s = .next { stage (resultTask f) u with todo := [], script := left })
include hb hexec

/-- An operation that is over, its transfer ended with `u.status`: stage 4 answers it, and no bus operation touches the
rest of the session (60_exceptions.md R223). -/
theorem busFailed_of_exec :
    BusFailed f u.status s { stage (resultTask f) u with todo := [], script := left } := by
  obtain ⟨hf, hk, htx, -, hpf⟩ := underway_exec hb hexec
  exact {
    phase := phase_resultTask f u
    status := status_resultTask f u
    answer := answer_resultTask f u
    tx := assembled_of_frameIn hf htx
    pecFail := hpf
    kept := sessionKept_of_besideTransfer hk }

/-- The same for `rx`, where the end of the transfer has marked the frame in it. -/
theorem rxUnspecified_of_exec (hle : frameLen s.n f ≤ u.rxUnspec)
    (hw : frameDir f = .writeOnly → u.rxUnspec = max s.rxUnspec (frameLen s.n f)) :
    RxUnspecified f s { stage (resultTask f) u with todo := [], script := left } := by
  obtain ⟨-, -, -, hrx, -⟩ := underway_exec hb hexec
  exact rxUnspecified_of_le (by simpa using hle) (by simpa using hw) hrx

end ended

/-! ### The moves of a transfer -/

/-- Stages neither give nor take the completion signal (43_transport.md R163). -/
@[simp] theorem runTasks_doneSig (ts : List Task) (s : State) : (runTasks ts s).doneSig = s.doneSig := by
  induction ts generalizing s with
  | nil => rfl
  | cons t rest ih =>
    cases ht : transferOf t with
    | none => rw [runTasks_stage ht, ih, stage_doneSig]
    | some mf => simp [runTasks, ht]

/-- A blocking return that is not possible is no step (log 13). -/
theorem react_ret_ok_early {s : State} {m : Mode} {f : Frame} {rest : List Task} (hp : s.phase = .xferB)
    (ht : s.todo = .bus m f :: rest) (hm : s.moved ≠ frameLen s.n f) : react (.ret .ok) s = s := by
  rw [react_xferB hp ht]
  simp [inXferB, mayReturn, hm]

/-- A blocking return that is possible ends the transfer, and the stages after it run (43_transport.md R158, R159). -/
theorem react_ret {s : State} {m : Mode} {f : Frame} {rest : List Task} {st : Status} (hp : s.phase = .xferB)
    (ht : s.todo = .bus m f :: rest) (hm : st ≠ .ok ∨ s.moved = frameLen s.n f) :
    react (.ret st) s = runTasks rest (finishBlocking st (frameLen s.n f) s) := by
  have hret : mayReturn st s.moved (frameLen s.n f) = true := by simpa [mayReturn] using hm
  rw [react_xferB hp ht, inXferB, if_pos hret]

section suspended
variable {s : State} {m : Mode} {f : Frame} {rest : List Task} (hp : s.phase = .waitDone)
  (ht : s.todo = .bus m f :: rest)
include hp ht

theorem react_complete : react .complete s =
    if s.inflight ≠ none ∧ s.moved = frameLen s.n f then completionHandler s else s := by
  rw [react_waitDone hp ht, inWaitDone]

theorem react_error : react .error s = if s.inflight ≠ none ∨ s.doneSig then errorHandler s else s := by
  rw [react_waitDone hp ht, inWaitDone]

theorem react_resume : react .resume s =
    if s.doneSig then runTasks rest (takeCompletion (frameLen s.n f) (frameDir f) s) else s := by
  rw [react_waitDone hp ht, inWaitDone]

end suspended

/-- Only a Complete step with a transfer in flight gives the signal (43_transport.md R163). -/
theorem doneSig_react {s : State} {e : EnvEvent} (h : (react e s).doneSig = true) :
    s.doneSig = true ∨ e = .complete ∧ s.inflight ≠ none := by
  by_cases hi : s.phase = .idle
  · rw [react_idle hi] at h
    split at h <;> exact .inl h
  by_cases hb : ∃ m f rest, s.todo = .bus m f :: rest
  swap
  · rw [react_of_no_transfer hi fun m f rest ht => hb ⟨m, f, rest, ht⟩] at h
    exact .inl h
  obtain ⟨m, f, rest, ht⟩ := hb
  cases hp : s.phase with
  | waitIdle =>
    rw [react_waitIdle hp ht] at h
    cases e with
    | poll bus expired =>
      simp only [inWaitIdle] at h
      split at h
      · exact .inl (by simpa using h)
      · split at h <;> exact .inl (by simpa using h)
    | _ => exact .inl h
  | xferB =>
    rw [react_xferB hp ht] at h
    cases e with
    | byte b => exact .inl (by simpa [inXferB] using h)
    | ret st =>
      simp only [inXferB] at h
      split at h <;> exact .inl (by simpa using h)
    | _ => exact .inl h
  | waitDone =>
    cases e with
    | byte b =>
      rw [react_waitDone hp ht, inWaitDone] at h
      split at h <;> exact .inl (by simpa using h)
    | complete =>
      rw [react_complete hp ht] at h
      split at h
      · rename_i hc
        obtain ⟨hi, -⟩ := hc
        exact .inr ⟨rfl, hi⟩
      · exact .inl h
    | error =>
      rw [react_error hp ht] at h
      split at h <;> exact .inl h
    | resume =>
      rw [react_resume hp ht] at h
      split at h
      · simp at h
      · exact .inl h
    | poll _ _ | ret _ | sleep =>
      rw [react_waitDone hp ht] at h
      exact .inl h
  | idle => exact absurd hp hi
  | wakeCs | assemble | validate | compute =>
    have hs : react e s = s := by simp [react, hp]
    exact .inl (hs ▸ h)

/-- Settles O41: the returns by `react_ret`, the two events by their equations, the signal by `doneSig_react`. -/
theorem completionAndErrorSteps : Obligations.CompletionAndErrorSteps := by
  refine ⟨fun s m f rest hp ht hm => react_ret_ok_early hp ht hm, fun s m f st hp ht hm => ?_,
    fun s m f rest hp ht => ⟨fun hi hm => ?_, fun hi => ?_, fun hm => ?_, fun hi => ?_⟩, fun s e => doneSig_react⟩
  · refine ⟨_, (react_ret hp ht hm).trans (runTasks_resultTask f _), phase_resultTask f _, rfl, by simp, ?answer,
      by simp, by simp, by simp, sessionKept_of_besideTransfer ?kept, by simp, fun hok => by simp [hok],
      fun hne => rxUnspecified_of_marks (by simp [hne]) ?rx, fun hd => ?pecFail, fun hok hd bytes hrx => ?flags⟩
    case answer =>
      have h := answer_resultTask f (finishBlocking st (frameLen s.n f) s)
      rw [finishBlocking_status] at h
      exact h
    case kept => exact (besideTransfer_resultTask f _).trans (besideTransfer_finishBlocking st _ s)
    case rx => simpa [hne] using (writtenBelow_refl (frameLen s.n f) s.rx).memUnspecify s.draws
    case pecFail => simpa using pecFail_resultTask hd (finishBlocking st (frameLen s.n f) s)
    case flags =>
      obtain ⟨addr, rfl⟩ : ∃ addr, f = .rd addr := by cases f <;> simp [frameDir] at hd ⊢
      obtain ⟨hlen, -⟩ := (memReadBytes_eq_some _ _ _ _).1 hrx
      have hflags := readFlags_of_bytes (s := finishBlocking st (frameLen s.n (.rd addr)) s) (bytes := bytes)
        (by simpa [hok, hlen] using hrx) hlen
      simpa [resultTask, frameDir, stage, hok] using hflags
  · rw [react_complete hp ht, if_pos ⟨hi, hm⟩]
    rfl
  · rw [react_complete hp ht, if_neg (by simp [hi])]
  · rw [react_complete hp ht, if_neg (by simp [hm])]
  · rw [react_error hp ht, if_pos (.inl hi)]
    rfl

end Sys2Proof.Machine
end

section
/-! SUPPORT. Family 43_transport: bus operations by the moves their script names, where the transfer times out, fails,
errs or never completes (43_transport.md R155 to R167). -/

namespace Sys2Proof.Machine

/-! ### The idle wait -/

theorem yields_count_cs {s : State} {ds : List PortEvent} (h : Yields s ds) (b : Bool) : ds.count (.cs b) = 0 := by
  refine List.count_eq_zero.2 fun hmem => ?_
  have := h _ hmem
  simp at this

/-- While a wait goes on only the Sleep step touches the chain's power state (43_transport.md R153). -/
theorem pwr_react_keepsWaiting {s : State} {m : Mode} {f : Frame} {rest : List Task} (h : s.phase = .waitIdle)
    (ht : s.todo = .bus m f :: rest) {e : EnvEvent} (he : keepsWaiting m e = true) :
    (react e s).pwr = if e = .sleep then .asleep else s.pwr := by
  rw [react_waitIdle h ht]
  cases e with
  | sleep => rfl
  | poll bus x =>
    simp only [keepsWaiting, Bool.and_eq_true, Bool.not_eq_true'] at he
    simp [inWaitIdle, he]
  | _ => simp [keepsWaiting] at he

theorem waited_pwr {s : State} {m : Mode} {f : Frame} {rest : List Task} (h : s.phase = .waitIdle)
    (ht : s.todo = .bus m f :: rest) {ws : List EnvEvent} (hw : ∀ e ∈ ws, keepsWaiting m e = true) :
    (waited ws s).pwr = if .sleep ∈ ws then .asleep else s.pwr := by
  induction ws generalizing s with
  | nil => rfl
  | cons e ws ih =>
    obtain ⟨p, b, ds, hr, -⟩ := react_keepsWaiting h ht (hw e (by simp))
    have hrest : (waited ws (react e s)).pwr = if .sleep ∈ ws then .asleep else (react e s).pwr :=
      ih (by rw [hr]; exact h) (by rw [hr]; exact ht) fun e' he' => hw e' (by simp [he'])
    show (waited ws (react e s)).pwr = _
    rw [hrest, pwr_react_keepsWaiting h ht (hw e (by simp))]
    by_cases hs : e = .sleep
    · simp [hs]
    · simp [hs, Ne.symm hs]

/-- A poll that lets the transfer start starts it (43_transport.md R155). -/
theorem react_poll_start {s : State} {m : Mode} {f : Frame} {rest : List Task} (hp : s.phase = .waitIdle)
    (ht : s.todo = .bus m f :: rest) {bus : BusState} (hgo : mayStart m bus = true) (x : Bool) :
    react (.poll bus x) s = startTransfer m f { s with busState := bus } := by
  rw [react_waitIdle hp ht]
  simp [inWaitIdle, hgo]

/-- A poll with which the wait goes on yields (43_transport.md R156, R160). -/
theorem react_poll_yield {s : State} {m : Mode} {f : Frame} {rest : List Task} (hp : s.phase = .waitIdle)
    (ht : s.todo = .bus m f :: rest) {bus : BusState} {x : Bool} (hgo : mayStart m bus = false)
    (hx : timesOut m x = false) :
    react (.poll bus x) s = { s with
      busState := bus
      ports := s.ports ++ [.delay .poll s.par.given.tPoll] } := by
  rw [react_waitIdle hp ht]
  simp [inWaitIdle, hgo, hx, delayFor, emit]

theorem begun_phase (m : Mode) (f : Frame) (s : State) : (begun m f s).phase = .waitIdle := by simp [begun]

theorem begun_todo (m : Mode) (f : Frame) (s : State) : (begun m f s).todo = [.bus m f, resultTask f] := by
  simp [begun]

section waiting
variable {s : State} {i : Instr} {m : Mode} {f : Frame} (hb : busFrame s i = some (m, f)) (hr : s.Ready)
  (hw : i.wellFormed s.n = true) {ws : List EnvEvent} (hws : ∀ e ∈ ws, keepsWaiting m e = true)
include hb hr hw hws

/-- A bus operation whose script begins with moves that keep it waiting runs on after them. -/
theorem exec_waited {es : List EnvEvent} (hm : s.script = ws ++ es) :
    ∃ b ds, Yields s ds ∧ exec i s = .next (drive es { begun m f s with
      pwr := if .sleep ∈ ws then .asleep else .idleReady
      busState := b
      ports := (begun m f s).ports ++ ds }) := by
  have hp := begun_phase m f s
  have ht := begun_todo m f s
  have hpar : (begun m f s).par = s.par := by simp [begun]
  obtain ⟨p, b, ds, hwt, hy⟩ := waited_eq hp ht hws
  have hpwr : p = if .sleep ∈ ws then .asleep else .idleReady := by
    have h := waited_pwr hp ht hws
    rw [hwt] at h
    simpa [begun] using h
  refine ⟨b, ds, by simpa [Yields, hpar] using hy, ?_⟩
  rw [exec_bus_ready hb hr hw, hm, drive_waited hp ht hws, hwt, hpwr]

/-- The same where the wait ends with the start of the transfer. -/
theorem exec_started {bus : BusState} (hgo : mayStart m bus = true) {x : Bool} {es : List EnvEvent}
    (hm : s.script = ws ++ .poll bus x :: es) :
    ∃ p ds, Yields s ds ∧ exec i s = .next (drive es (startTransfer m f { begun m f s with
      pwr := p, busState := bus, ports := (begun m f s).ports ++ ds })) := by
  obtain ⟨b, ds, hy, hexec⟩ := exec_waited hb hr hw hws hm
  exact ⟨_, ds, hy, hexec.trans
    (congrArg _ (drive_go (by exact begun_phase m f s) (by exact begun_todo m f s) hgo x es))⟩

end waiting

/-- Settles O32: an operation that times out, by `exec_waited`; the polls by `react_poll_start` and `react_poll_yield`. -/
theorem idleWaitTimeout : Obligations.IdleWaitTimeout := by
  refine ⟨fun s i tmo f ws left bus hr hw hb hws hbus hm => ?_, fun s tmo f rest expired bus hp ht => ⟨?_, ?_, ?_⟩,
    fun s f rest expired bus hp ht => ⟨fun hbus => ?_, react_poll_yield hp ht rfl rfl⟩⟩
  · obtain ⟨b, ds, hy, hexec⟩ := exec_waited hb hr hw hws hm
    have hend := hexec.trans (congrArg _ (drive_timeout (by exact begun_phase (.b tmo) f s)
      (by exact begun_todo (.b tmo) f s) hbus left))
    rw [drive_runTasks_resultTask] at hend
    refine ⟨_, hend, rfl, ?failed, by simp, by simp [begun], by simp [begun], by simp, ?wire, ?count⟩
    case failed => simpa using busFailed_of_exec hb hend
    case wire => simp [begun, wireBytes_yields hy]
    case count => simp [count_cs_resultTask, begun, yields_count_cs hy]
  · rw [react_poll_start hp ht rfl, startTransfer_phase]
  · rw [react_poll_start hp ht rfl, startTransfer_cs]
  · exact fun hbus => react_poll_yield hp ht (by simpa [mayStart] using hbus) rfl
  · have hgo : mayStart .a bus = true := by obtain rfl | rfl := hbus <;> rfl
    rw [react_poll_start hp ht hgo]
    simp

/-! ### A transfer that fails -/

/-- The wire carries the bytes of the frame that have moved (20_memory.md R45, R54). -/
theorem wireBytes_memWriteBytes (bs : List Byte) (m : Memory) (heard : Bool) {k : Nat} (hk : k ≤ bs.length) :
    wireBytes ((List.range' 0 k).map fun j => PortEvent.wire (memRead (memWriteBytes m 0 bs) j) heard) = bs.take k := by
  have hwires : (List.range' 0 k).map (fun j => PortEvent.wire (memRead (memWriteBytes m 0 bs) j) heard) =
      (bs.take k).map fun b => .wire (some b) heard := by
    apply List.ext_getElem (by simp [hk])
    intro j h1 _
    have hj : j < bs.length := by simp at h1; omega
    simp [memRead_memWriteBytes, hj]
  rw [hwires, wireBytes_wires]

/-- Some bytes of a blocking transfer move, then the platform returns a failure (43_transport.md R159). -/
theorem drive_failed_return {s : State} {m : Mode} {f : Frame} {rest : List Task} (hp : s.phase = .xferB)
    (ht : s.todo = .bus m f :: rest) (bytes : List Byte) {st : Status} (hst : st ≠ .ok) (es : List EnvEvent) :
    drive (bytes.map .byte ++ .ret st :: es) s = drive es (runTasks rest
      (finishBlocking st (frameLen s.n f) (moveBytes (frameLen s.n f) (frameDir f) bytes s))) := by
  rw [drive_bytes_xferB hp ht, drive_cons (by simp [hp]), react_ret (by simpa using hp) (by simpa using ht) (.inl hst),
    moveBytes_n]

/-- Settles O33: the transfer starts, some bytes move, and the platform's failure ends it. -/
theorem blockingTransferFailure : Obligations.BlockingTransferFailure := by
  intro s i tmo f ws left expired bytes st hr hw hb hws hst hlen hm
  obtain ⟨p, ds, hy, hexec⟩ := exec_started hb hr hw hws (bus := .idle) rfl hm
  generalize hv : startTransfer (.b tmo) f _ = v at hexec
  have hp : v.phase = .xferB := by simp [← hv]
  have ht : v.todo = [.bus (.b tmo) f, resultTask f] := by simp [← hv, begun]
  have hn : v.n = s.n := by simp [← hv, begun]
  have hmoved : v.moved = 0 := by simp [← hv]
  rw [drive_failed_return hp ht bytes hst, drive_runTasks_resultTask, hn] at hexec
  refine ⟨_, hexec, rfl, ?failed, by simp, rxUnspecified_of_exec hb hexec ?marked ?mark, ?wire⟩
  case failed => simpa using busFailed_of_exec hb hexec
  case marked => simp [hst]
  case mark =>
    intro hd
    simp [hst, ← hv, begun, hd]
  case wire =>
    have hl := length_frameBytes (busFrame_fits hb hw)
    have hfit : v.moved + bytes.length ≤ frameLen s.n f := by omega
    simp only [wireBytes_resultTask, finishBlocking_ports, moveBytes_ports hfit, hmoved]
    simp [← hv, begun, wireBytes_yields hy, wireBytes_memWriteBytes _ _ _ (hlen.trans_eq hl.symm)]

/-! ### A transfer that errs -/

/-- Once all bytes have moved, Error and Complete happen in either order and the sequencer takes the signal
(43_transport.md R164, R167; log 12). -/
theorem drive_error_and_complete {s : State} {f : Frame} {rest : List Task} (hp : s.phase = .waitDone)
    (ht : s.todo = .bus .a f :: rest) (hi : s.inflight ≠ none) (hm : s.moved = frameLen s.n f)
    {events : List EnvEvent} (he : events = [.error, .complete, .resume] ∨ events = [.complete, .error, .resume])
    (es : List EnvEvent) :
    ∃ u, (u = completionHandler (errorHandler s) ∨ u = errorHandler (completionHandler s)) ∧
      drive (events ++ es) s = drive es (runTasks rest (takeCompletion (frameLen s.n f) (frameDir f) u)) := by
  have hresume {u : State} (hup : u.phase = .waitDone) (hut : u.todo = .bus .a f :: rest) (hd : u.doneSig = true)
      (hn : u.n = s.n) : drive (.resume :: es) u =
        drive es (runTasks rest (takeCompletion (frameLen s.n f) (frameDir f) u)) := by
    rw [drive_cons (by simp [hup]), react_resume hup hut, if_pos hd, hn]
  obtain rfl | rfl := he
  · have hc : react .complete (errorHandler s) = completionHandler (errorHandler s) :=
      (react_complete (s := errorHandler s) hp ht).trans (if_pos ⟨hi, hm⟩)
    refine ⟨_, .inl rfl, ?_⟩
    rw [List.cons_append, drive_cons (by simp [hp]), react_error hp ht, if_pos (.inl hi), List.cons_append,
      drive_cons (by simp [hp]), hc]
    exact hresume hp ht rfl rfl
  · have hx : react .error (completionHandler s) = errorHandler (completionHandler s) :=
      (react_error (s := completionHandler s) hp ht).trans (if_pos (.inr rfl))
    refine ⟨_, .inr rfl, ?_⟩
    rw [List.cons_append, drive_cons (by simp [hp]), react_complete hp ht, if_pos ⟨hi, hm⟩, List.cons_append,
      drive_cons (by simp [hp]), hx]
    exact hresume hp ht rfl rfl

/-- Settles O34: with all bytes moved, the signal is taken with `err_flag` set, whichever event came first. -/
theorem asyncErrorAndCompletion : Obligations.AsyncErrorAndCompletion := by
  intro s i f ws left events bus expired bytes hr hw hb hws hgo hlen hev hm
  obtain ⟨p, ds, -, hexec⟩ := exec_started hb hr hw hws hgo hm
  generalize hv : startTransfer .a f _ = v at hexec
  have hp : v.phase = .waitDone := by simp [← hv]
  have ht : v.todo = [.bus .a f, resultTask f] := by simp [← hv, begun]
  have hi : v.inflight ≠ none := by simp [← hv]
  have hn : v.n = s.n := by simp [← hv, begun]
  have hmoved : v.moved = 0 := by simp [← hv]
  rw [drive_bytes_waitDone hp ht hi, hn] at hexec
  generalize hx : moveBytes _ _ bytes v = x at hexec
  have hxmoved : x.moved = frameLen x.n f := by simp [← hx, hn, moveBytes_moved, hmoved, hlen]
  obtain ⟨u, hu, hdrive⟩ := drive_error_and_complete (rest := [resultTask f]) (by simp [← hx, hp])
    (by simp [← hx, ht]) (by simp [← hx, hi]) hxmoved hev left
  rw [hdrive, drive_runTasks_resultTask] at hexec
  have hxn : x.n = s.n := by simp [← hx, hn]
  have herr : u.errFlag = true := by obtain rfl | rfl := hu <;> rfl
  have hcs : u.cs = true := by obtain rfl | rfl := hu <;> simp [← hx, ← hv]
  have hmark : u.rxUnspec = if frameDir f = .duplex then 0 else max s.rxUnspec (frameLen s.n f) := by
    obtain rfl | rfl := hu <;> simp [← hx, ← hv, begun]
  refine ⟨_, hexec, rfl, ?failed, ?cs, rxUnspecified_of_exec hb hexec ?marked ?mark⟩
  case failed => simpa [herr] using busFailed_of_exec hb hexec
  case cs => cases hd : frameDir f <;> simp [csAfter, hd, hcs]
  case marked => simp [herr, hxn]
  case mark =>
    intro hd
    simp [herr, hmark, hd, hxn]

end Sys2Proof.Machine
end

section
/-! SUPPORT. Family 43_transport: bus operations whatever the environment does, in each transfer mode: a move either keeps
the operation in its wait or its transfer or ends it, and the induction over the moves of `drive`
(43_transport.md R158, R160 to R167; 70_reset_and_hazards.md R261). -/

namespace Sys2Proof.Machine

/-- What the moves of `es` keep while the operation is not over holds when it gets its next state. -/
theorem drive_induction {P : State → Prop} {es : List EnvEvent} {s : State}
    (hscript : ∀ s es, P s → P { s with script := es })
    (hreact : ∀ e ∈ es, ∀ s, s.phase ≠ .idle → P s → P (react e s)) (h : P s) : P (drive es s) := by
  induction es generalizing s with
  | nil => exact hscript s [] h
  | cons e rest ih =>
    simp only [drive]
    split
    · exact hscript s _ h
    · rename_i hp
      exact ih (fun e' he' => hreact e' (List.mem_cons_of_mem e he')) (hreact e List.mem_cons_self s hp h)

/-! ### A blocking operation -/

/-- A blocking operation has its transfer running, or waits for the bus with chip-select released
(43_transport.md R156). -/
abbrev BlockingHeld (s : State) : Prop := s.phase = .xferB ∨ s.phase = .waitIdle ∧ s.cs = false

/-- A move keeps a blocking operation in its wait or transfer, or ends it with chip-select released: the stages after it
run (43_transport.md R158). -/
theorem react_blocking {s : State} {tmo : BitVec 32} {f : Frame} {rest : List Task}
    (ht : s.todo = .bus (.b tmo) f :: rest) (h : BlockingHeld s) (e : EnvEvent) :
    ((react e s).todo = s.todo ∧ BlockingHeld (react e s)) ∨ ∃ u, u.cs = false ∧ react e s = runTasks rest u := by
  obtain hp | ⟨hp, hc⟩ := h
  · rw [react_xferB hp ht]
    cases e with
    | byte b => exact .inl ⟨by simp [inXferB], .inl (by simpa [inXferB] using hp)⟩
    | ret st =>
      simp only [inXferB]
      split
      · exact .inr ⟨_, finishBlocking_cs _ _ _, rfl⟩
      · exact .inl ⟨rfl, .inl hp⟩
    | _ => exact .inl ⟨rfl, .inl hp⟩
  · rw [react_waitIdle hp ht]
    cases e with
    | poll bus expired =>
      simp only [inWaitIdle]
      split
      · exact .inl ⟨by simp, .inl (by simp)⟩
      · split
        · exact .inr ⟨_, idleTimeout_cs _, rfl⟩
        · exact .inl ⟨rfl, .inr ⟨hp, hc⟩⟩
    | _ => exact .inl ⟨rfl, .inr ⟨hp, hc⟩⟩

/-- Stages leave chip-select released: a transfer that begins to wait has it released by its refresh
(43_transport.md R152). -/
theorem runTasks_cs {s : State} (h : s.cs = false) (ts : List Task) : (runTasks ts s).cs = false := by
  induction ts generalizing s with
  | nil => exact h
  | cons t rest ih =>
    cases ht : transferOf t with
    | none =>
      rw [runTasks_stage ht]
      exact ih (by cases t <;> simp [stage, h])
    | some mf => simp [runTasks, ht]

/-- Where a blocking bus operation stands from the start of its idle wait on: held, or over with chip-select released
(43_transport.md R158). -/
abbrev BlockingPath (tmo : BitVec 32) (f : Frame) (s : State) : Prop :=
  (s.phase = .idle ∧ s.cs = false) ∨ (s.todo = [.bus (.b tmo) f, resultTask f] ∧ BlockingHeld s)

theorem blockingPath_react {tmo : BitVec 32} {f : Frame} {s : State} (hp : s.phase ≠ .idle)
    (h : BlockingPath tmo f s) (e : EnvEvent) : BlockingPath tmo f (react e s) := by
  obtain ⟨ht, hheld⟩ := h.resolve_left fun h => hp h.1
  obtain ⟨ht', hheld'⟩ | ⟨u, hc, hu⟩ := react_blocking ht hheld e
  · exact .inr ⟨ht'.trans ht, hheld'⟩
  · refine .inl ⟨?_, hu ▸ runTasks_cs hc _⟩
    rw [hu, runTasks_resultTask]
    exact phase_resultTask f u

/-- Settles O36: `react_blocking` for one move, and along the moves of an operation. -/
theorem blockingReleasesChipSelect : Obligations.BlockingReleasesChipSelect := by
  refine ⟨fun s t i tmo f hb hexec hcs => ?_, fun s e tmo f rest ht h hcs => ?_⟩
  · obtain ⟨-, -, rfl⟩ := exec_bus_next hb hexec
    have hpath : BlockingPath tmo f (drive s.script (begun (.b tmo) f s)) :=
      drive_induction (fun _ _ h => h) (fun e _ _ hp h => blockingPath_react hp h e)
        (.inr ⟨begun_todo _ f s, .inr ⟨begun_phase _ f s, by simp [begun]⟩⟩)
    obtain ⟨-, hc⟩ | ⟨-, hp | ⟨-, hc⟩⟩ := hpath
    · simp [hc] at hcs
    · exact hp
    · simp [hc] at hcs
  · obtain ⟨-, hp | ⟨-, hc⟩⟩ | ⟨u, hc, hu⟩ := react_blocking ht h e
    · exact hp
    · simp [hc] at hcs
    · rw [hu, runTasks_cs hc] at hcs
      cases hcs

/-! ### An asynchronous operation -/

/-- An asynchronous operation waits for the bus, or is suspended with chip-select asserted (43_transport.md R160). -/
abbrev AsyncHeld (s : State) : Prop := s.phase = .waitIdle ∨ s.phase = .waitDone ∧ s.cs = true

/-- What the taking of the signal leaves of a transfer: chip-select by its direction, the status by `err_flag`
(43_transport.md R161, R162, R167). -/
abbrev AsyncEnded (f : Frame) (s : State) : Prop :=
  s.cs = csAfter .a f ∧ s.status = if s.errFlag then .busError else .ok

theorem asyncEnded_takeCompletion {s : State} (h : s.cs = true) (f : Frame) :
    AsyncEnded f (takeCompletion (frameLen s.n f) (frameDir f) s) := by
  cases hd : frameDir f <;> simp [AsyncEnded, csAfter, hd, h]

/-- A move keeps an asynchronous operation in its wait or transfer, or it is the taking of the signal
(43_transport.md R160, R167). -/
theorem react_async {s : State} {f : Frame} {rest : List Task} (ht : s.todo = .bus .a f :: rest) (h : AsyncHeld s)
    (e : EnvEvent) :
    ((react e s).todo = s.todo ∧ AsyncHeld (react e s)) ∨ ∃ u, AsyncEnded f u ∧ react e s = runTasks rest u := by
  obtain hp | ⟨hp, hc⟩ := h
  · rw [react_waitIdle hp ht]
    cases e with
    | poll bus expired =>
      simp only [inWaitIdle]
      split
      · exact .inl ⟨by simp, .inr (by simp)⟩
      · exact .inl ⟨rfl, .inl hp⟩
    | _ => exact .inl ⟨rfl, .inl hp⟩
  · cases e with
    | byte b =>
      rw [react_waitDone hp ht, inWaitDone]
      split
      · exact .inl ⟨rfl, .inr ⟨hp, hc⟩⟩
      · exact .inl ⟨by simp, .inr (by simp [hp, hc])⟩
    | complete =>
      rw [react_complete hp ht]
      split <;> exact .inl ⟨rfl, .inr ⟨hp, hc⟩⟩
    | error =>
      rw [react_error hp ht]
      split <;> exact .inl ⟨rfl, .inr ⟨hp, hc⟩⟩
    | resume =>
      rw [react_resume hp ht]
      split
      · exact .inr ⟨_, asyncEnded_takeCompletion hc f, rfl⟩
      · exact .inl ⟨rfl, .inr ⟨hp, hc⟩⟩
    | poll _ _ | ret _ | sleep =>
      rw [react_waitDone hp ht]
      exact .inl ⟨rfl, .inr ⟨hp, hc⟩⟩

/-- Where an asynchronous bus operation stands from the start of its idle wait on: held, or over. -/
abbrev AsyncPath (f : Frame) (s : State) : Prop :=
  (s.phase = .idle ∧ AsyncEnded f s) ∨ (s.todo = [.bus .a f, resultTask f] ∧ AsyncHeld s)

theorem asyncPath_react {f : Frame} {s : State} (hp : s.phase ≠ .idle) (h : AsyncPath f s) (e : EnvEvent) :
    AsyncPath f (react e s) := by
  obtain ⟨ht, hheld⟩ := h.resolve_left fun h => hp h.1
  obtain ⟨ht', hheld'⟩ | ⟨u, hended, hu⟩ := react_async ht hheld e
  · exact .inr ⟨ht'.trans ht, hheld'⟩
  · rw [hu, runTasks_resultTask]
    exact .inl ⟨phase_resultTask f u, by simpa [AsyncEnded] using hended⟩

/-- Settles O37: `react_async` along the moves of an operation, and the step that takes the signal. -/
theorem asyncOperationOver : Obligations.AsyncOperationOver := by
  refine ⟨fun s t i f hb hexec hidle => ?_, fun s f hp ht hd => ?_⟩
  · obtain ⟨-, -, rfl⟩ := exec_bus_next hb hexec
    have hpath : AsyncPath f (drive s.script (begun .a f s)) :=
      drive_induction (fun _ _ h => h) (fun e _ _ hp h => asyncPath_react hp h e)
        (.inr ⟨begun_todo _ f s, .inl (begun_phase _ f s)⟩)
    obtain ⟨-, hended⟩ | ⟨-, hp | ⟨hp, -⟩⟩ := hpath
    · exact hended
    · simp [hidle] at hp
    · simp [hidle] at hp
  · have hr : react .resume s =
        { stage (resultTask f) (takeCompletion (frameLen s.n f) (frameDir f) s) with todo := [] } := by
      rw [react_resume hp ht, if_pos hd, runTasks_resultTask]
    have hanswer := answer_resultTask f (takeCompletion (frameLen s.n f) (frameDir f) s)
    rw [takeCompletion_status] at hanswer
    rw [hr]
    exact ⟨phase_resultTask f _, by simp, by simp, by simp, hanswer⟩

/-! ### Without a completion -/

/-- A transfer of a frame `f` is in flight on a chain of `n` chips, its signal not given (43_transport.md R163, R166). -/
structure Outstanding (n : Nat) (f : Frame) (s : State) : Prop where
  phase : s.phase = .waitDone
  todo : s.todo = [.bus .a f, resultTask f]
  cs : s.cs = true
  doneSig : s.doneSig = false
  inflight : s.inflight = some { len := frameLen n f, dir := frameDir f }

/-- Of the moves only Complete ends the flight of a transfer (43_transport.md R164). -/
theorem Outstanding.react {n : Nat} {f : Frame} {s : State} (h : Outstanding n f s) {e : EnvEvent}
    (he : e ≠ .complete) : Outstanding n f (react e s) := by
  obtain ⟨hp, ht, hc, hd, hi⟩ := h
  cases e with
  | byte b =>
    rw [react_byte ht (.inr ⟨hp, by simp [hi]⟩)]
    exact ⟨by simpa, by simpa, by simpa, by simpa, by simpa⟩
  | complete => exact absurd rfl he
  | error =>
    rw [react_error hp ht, if_pos (.inl (by simp [hi]))]
    exact ⟨hp, ht, hc, hd, hi⟩
  | resume =>
    rw [react_resume hp ht, if_neg (by simp [hd])]
    exact ⟨hp, ht, hc, hd, hi⟩
  | poll _ _ | ret _ | sleep =>
    rw [react_waitDone hp ht]
    exact ⟨hp, ht, hc, hd, hi⟩

/-- Settles O35: the transfer that has started stays outstanding. -/
theorem noCompletionNoEnd : Obligations.NoCompletionNoEnd := by
  intro s i f ws others bus expired hr hw hb hdone hws hgo hothers hm
  obtain ⟨p, ds, -, hexec⟩ := exec_started hb hr hw hws hgo hm
  obtain ⟨hp, -, hc, hd, hi⟩ : Outstanding s.n f (drive others _) :=
    drive_induction (fun _ _ ⟨hp, ht, hc, hd, hi⟩ => ⟨hp, ht, hc, hd, hi⟩) (fun e he _ _ h => h.react (hothers e he))
      (s := startTransfer .a f { begun .a f s with
        pwr := p, busState := bus, ports := (begun .a f s).ports ++ ds })
      ⟨by simp, by simp [begun], by simp, by simp [begun, hdone], by simp [begun]⟩
  exact ⟨_, hexec, hp, hc, hd, hi⟩

end Sys2Proof.Machine
end

section
/-! SUPPORT. Family 43_transport: what a read and the parses make of a chain that answers with the cleared pattern
(43_transport.md R175, 44_session_commands.md R188). -/

namespace Sys2Proof.Machine

/-- Each group of a cleared chain has the six bytes of a register group (43_transport.md R175). -/
theorem length_of_mem_cleared {n : Nat} : ∀ d ∈ List.replicate n clearedGroup, d.length = 6 :=
  fun _ hd => congrArg List.length (List.eq_of_mem_replicate hd)

/-- The byte pair of the cleared pattern is one code in either byte order (20_memory.md R43). -/
theorem regWord_ones (order : ByteOrder) : regWord order 0xFF 0xFF = 0xFFFF := by
  cases order <;> decide

section cleared
variable {s t : State} {noise : List Byte} (hn : noise.length = 4)
  (h : ReadDone (chainAnswer noise (List.replicate s.n clearedGroup)) s t) {i : Nat} (hi : i < s.n)
include hn h hi

/-- Every data byte of every block was received as 0xFF, and a parse finds it. -/
theorem rxValue_of_cleared {k : Nat} (hk : k < 6) : rxValue t (blockAt i + k) = some 0xFF := by
  have hblock : i < (List.replicate s.n clearedGroup).length := by simpa using hi
  have hlen : (chainAnswer noise (List.replicate s.n clearedGroup)).length = bufLen s.n := by
    rw [chainAnswer, List.length_append, length_flatten_chipBlocks length_of_mem_cleared, hn, List.length_replicate,
      bufLen]
  obtain ⟨hdata, -, -⟩ := getElem?_chipBlock (d := clearedGroup) rfl
  rw [h.rxValue_eq (by simp only [hlen, blockAt, bufLen]; omega), chainAnswer,
    getElem?_blockAt hn length_of_mem_cleared hblock (by omega), List.getElem_replicate, hdata k hk, clearedGroup,
    List.getElem?_replicate_of_lt hk]

theorem rxWord_of_cleared {k : Nat} (hk : k < 3) : rxWord t i k = { val := 0xFFFF, known := true } := by
  have hfirst := rxValue_of_cleared hn h hi (k := 2 * k) (by omega)
  have hsecond := rxValue_of_cleared hn h hi (k := 2 * k + 1) (by omega)
  simp only [rxWord, Nat.add_assoc, hfirst, hsecond, regWord_ones]

theorem rxByte_of_cleared {k : Nat} (hk : k < 6) : rxByte t i k = { val := 0xFF, known := true } := by
  simp only [rxByte, rxValue_of_cleared hn h hi hk]

/-- The slice of a register array into which the block was parsed. -/
theorem setTriple_of_cleared {size : Nat} (v : Vector (Reg U16) size) {g k : Nat} (hk : k < 3)
    (hs : 3 * g + k < size) : (setTriple v g (rxWord t i))[3 * g + k]? = some { val := 0xFFFF, known := true } := by
  rw [setTriple_getElem? v _ hk hs, rxWord_of_cleared hn h hi hk]

end cleared

/-- Settles O31: the read leaves the cleared pattern in `rx`, and each parse takes it from there. -/
theorem clearedGroupsReadAllOnes : Obligations.ClearedGroupsReadAllOnes := by
  intro s m addr noise moves left hr hboard hn hs hm
  obtain ⟨t, hexec, h⟩ := exec_rdreg_served (addr := addr) hr hs hm
  obtain ⟨t', hexec', -, -, hstatus, -⟩ := rdregServed s m addr _ moves left hr hs hm
  obtain rfl := Host.Outcome.next.inj (hexec.symm.trans hexec')
  have hentry (grp : Group) {i : Nat} (hi : i < s.n) :
      ∃ b, (t.board.mapIdx (parseBoard t grp))[i]? = some (parseBoard t grp i b) :=
    ⟨t.board[i]'(by rw [h.board]; omega), by simp [h.board, hboard, hi]⟩
  refine ⟨t, hexec, hstatus, ?flags, fun g hg => ?cv, fun g hg => ?pair, ?cfg⟩
  case flags => simpa [h.flags] using readFlags_chainAnswer hn (length_of_mem_cleared (n := s.n))
  case cv =>
    refine ⟨_, exec_parse_ready rfl h.ready (decide_eq_true hg : okCvGroup g = true), fun i hi => ?_⟩
    obtain ⟨b, hb⟩ := hentry (.cv g.toNat) hi
    exact ⟨_, hb, fun k hk => setTriple_of_cleared hn h hi _ hk (by omega)⟩
  case pair =>
    have hin : okPairGroup g = true := decide_eq_true hg
    refine ⟨_, _, exec_parse_ready (i := .parseaux g) rfl h.ready hin,
      exec_parse_ready (i := .parsestat g) rfl h.ready hin, fun i hi => ?_⟩
    obtain ⟨b, hb⟩ := hentry (.aux g.toNat) hi
    obtain ⟨c, hc⟩ := hentry (.stat g.toNat) hi
    exact ⟨_, _, hb, hc, fun k hk =>
      ⟨setTriple_of_cleared hn h hi _ hk (by omega), setTriple_of_cleared hn h hi _ hk (by omega)⟩⟩
  case cfg =>
    refine ⟨_, exec_parse_ready (i := .parsecfg) rfl h.ready rfl, fun i hi => ?_⟩
    obtain ⟨b, hb⟩ := hentry .cfg hi
    exact ⟨_, hb, fun k hk => by simpa [parseBoard] using rxByte_of_cleared hn h hi hk⟩

end Sys2Proof.Machine
end

section
/-! SUPPORT. Family 44_session_commands: where SETCONV places its operands, and the session commands whose transfer is
served (44_session_commands.md R180 to R187). -/

namespace Sys2Proof.Machine

/-! ### The bits of the templates -/

/-- An operand has no bit above its field. -/
theorem getElem_of_toNat_lt {w k : Nat} {b : Byte} (hb : b.toNat < 2 ^ w) (h8 : k < 8) (hk : w ≤ k) :
    b[k] = false :=
  Nat.testBit_lt_two_pow (hb.trans_le (Nat.pow_le_pow_right Nat.two_pos hk))

theorem modeHighByte_getLsbD (pos : Fin 8) (b0 mode : Byte) {k : Nat} (hk : k < 8) :
    (modeHighByte pos b0 mode).getLsbD k = if k = pos.val then mode.getLsbD 1 else b0.getLsbD k := by
  obtain hlt | rfl | hgt := Nat.lt_trichotomy k pos.val
  · simp [modeHighByte, hk, hlt, hlt.ne]
  · simp [modeHighByte, hk]
  · have hoff : k - pos.val ≠ 0 := by omega
    simp [modeHighByte, hk, hgt.ne', hgt.not_gt, hoff]

theorem cellLowByte_getLsbD (b1 mode : Byte) {dcp ch : Byte} (hdcp : dcp.toNat < 2) (hch : ch.toNat < 8) {k : Nat}
    (hk : k < 8) :
    (cellLowByte b1 mode dcp ch).getLsbD k =
      if k = 7 then mode.getLsbD 0 else if k = 4 then dcp.getLsbD 0 else if k < 3 then ch.getLsbD k
        else b1.getLsbD k := by
  have hd {k : Nat} (h8 : k < 8) : 1 ≤ k → dcp[k] = false := getElem_of_toNat_lt hdcp h8
  have hc {k : Nat} (h8 : k < 8) : 3 ≤ k → ch[k] = false := getElem_of_toNat_lt hch h8
  interval_cases k <;> simp [cellLowByte, hd, hc]

theorem auxLowByte_getLsbD (b1 mode : Byte) {chg : Byte} (hchg : chg.toNat < 8) {k : Nat} (hk : k < 8) :
    (auxLowByte b1 mode chg).getLsbD k =
      if k = 7 then mode.getLsbD 0 else if k < 3 then chg.getLsbD k else b1.getLsbD k := by
  have hc {k : Nat} (h8 : k < 8) : 3 ≤ k → chg[k] = false := getElem_of_toNat_lt hchg h8
  interval_cases k <;> simp [auxLowByte, hc]

theorem okConv_iff {mode dcp ch chg : Byte} :
    okConv mode dcp ch chg = true ↔ mode.toNat < 4 ∧ dcp.toNat < 2 ∧ ch.toNat < 8 ∧ chg.toNat < 8 := by
  simp [okConv, and_assoc]

/-! ### SETCONV -/

/-- The operands of SETCONV have no part that depends on the chain length (30_encoding.md R71). -/
theorem wellFormed_setconv (mode dcp ch chg : Byte) (n : Nat) :
    Instr.wellFormed n (.setconv mode dcp ch chg) = okConv mode dcp ch chg :=
  Bool.and_true _

/-- In a ready block SETCONV writes the templates alone, beside the answer and the recorded phases
(44_session_commands.md R180). -/
theorem exec_setconv_ready {s : State} (hr : s.Ready) {mode dcp ch chg : Byte} (hok : okConv mode dcp ch chg = true) :
    exec (.setconv mode dcp ch chg) s = .next { placeConversion mode dcp ch chg s with
      answer := .done
      ports := s.ports ++ [.phase .compute, .phase .idle] } := by
  rw [exec_setconv, request_of_ready hr ((wellFormed_setconv ..).trans hok),
    computing_of_idle (s := { s with answer := .none }) hr.1 fun _ _ _ => rfl]
  rfl

/-- Settles O46: the one next state of SETCONV, and the four bytes of its templates bit by bit. -/
theorem setconvPlacesFields : Obligations.SetconvPlacesFields := by
  refine ⟨fun mode dcp ch chg => (Laws.RequestByte.setconv mode dcp ch chg).trans
      (congrArg some (by decide : requestByte false 0x0D = 0x0D)),
    fun s mode dcp ch chg hr hout => ?_, fun s mode dcp ch chg hr hmode hdcp hch hchg => ?_⟩
  · have hbad : okConv mode dcp ch chg = false := by
      rw [← Bool.not_eq_true, okConv_iff]
      omega
    exact exec_of_not_inRange hr hbad
  · exact ⟨_, _, exec_setconv_ready hr (okConv_iff.2 ⟨hmode, hdcp, hch, hchg⟩),
      fun k hk => ⟨modeHighByte_getLsbD _ _ _ hk, modeHighByte_getLsbD _ _ _ hk⟩,
      fun k hk => cellLowByte_getLsbD _ _ hdcp hch hk, fun k hk => auxLowByte_getLsbD _ _ hchg hk⟩

/-- What an accepted SETCONV leaves of the state it came to, as far as a next one reads it. -/
theorem exec_setconv_next {s t : State} {mode dcp ch chg : Byte} (h : exec (.setconv mode dcp ch chg) s = .next t) :
    okConv mode dcp ch chg = true ∧ t.par = s.par ∧
      t.tmplCv = (placeConversion mode dcp ch chg s).tmplCv ∧ t.tmplAx = (placeConversion mode dcp ch chg s).tmplAx := by
  obtain ⟨hr, hw, -⟩ := exec_next_iff.1 h
  have hok := (wellFormed_setconv ..).symm.trans hw
  obtain rfl := Host.Outcome.next.inj (h.symm.trans (exec_setconv_ready hr hok))
  exact ⟨hok, rfl, rfl, rfl⟩

/-! ### Overwriting (44_session_commands.md R181) -/

theorem modeHighByte_modeHighByte (pos : Fin 8) (b0 mode mode' : Byte) :
    modeHighByte pos (modeHighByte pos b0 mode) mode' = modeHighByte pos b0 mode' :=
  BitVec.eq_of_getLsbD_eq fun k hk => by
    simp only [modeHighByte_getLsbD _ _ _ hk]
    split <;> rfl

theorem cellLowByte_cellLowByte (b1 mode mode' : Byte) {dcp ch dcp' ch' : Byte} (hdcp : dcp.toNat < 2)
    (hch : ch.toNat < 8) (hdcp' : dcp'.toNat < 2) (hch' : ch'.toNat < 8) :
    cellLowByte (cellLowByte b1 mode dcp ch) mode' dcp' ch' = cellLowByte b1 mode' dcp' ch' :=
  BitVec.eq_of_getLsbD_eq fun k hk => by
    simp only [cellLowByte_getLsbD _ _ hdcp hch hk, cellLowByte_getLsbD _ _ hdcp' hch' hk]
    split_ifs <;> rfl

theorem auxLowByte_auxLowByte (b1 mode mode' : Byte) {chg chg' : Byte} (hchg : chg.toNat < 8)
    (hchg' : chg'.toNat < 8) : auxLowByte (auxLowByte b1 mode chg) mode' chg' = auxLowByte b1 mode' chg' :=
  BitVec.eq_of_getLsbD_eq fun k hk => by
    simp only [auxLowByte_getLsbD _ _ hchg hk, auxLowByte_getLsbD _ _ hchg' hk]
    split_ifs <;> rfl

/-- Settles O47: in every byte of the templates the second call writes each bit that the first wrote. -/
theorem setconvOverwrites : Obligations.SetconvOverwrites := by
  intro s t u v mode dcp ch chg mode' dcp' ch' chg' ht hu hv
  obtain ⟨hok, hpar, htcv, htax⟩ := exec_setconv_next ht
  obtain ⟨hok', -, hucv, huax⟩ := exec_setconv_next hu
  obtain ⟨-, -, hvcv, hvax⟩ := exec_setconv_next hv
  obtain ⟨-, hdcp, hch, hchg⟩ := okConv_iff.1 hok
  obtain ⟨-, hdcp', hch', hchg'⟩ := okConv_iff.1 hok'
  constructor
  · rw [hucv, hvcv, placeConversion_tmplCv, htcv, hpar]
    simp [modeHighByte_modeHighByte, cellLowByte_cellLowByte _ _ _ hdcp hch hdcp' hch']
  · rw [huax, hvax, placeConversion_tmplAx, htax, hpar]
    simp [modeHighByte_modeHighByte, auxLowByte_auxLowByte _ _ _ hchg hchg']

/-! ### The session commands with a transfer -/

/-- Settles O25: each start is the WRCMD that `pseudoOperationsExpand` names, served. -/
theorem conversionStartsServed : Obligations.ConversionStartsServed := by
  intro s m bytes moves left hr hs hm
  obtain ⟨hcv, hax, hcomb, -⟩ := pseudoOperationsExpand m s
  rw [hcv, hax, hcomb]
  exact ⟨wrcmdServed s m _ _ _ _ hr hs hm, wrcmdServed s m _ _ _ _ hr hs hm, wrcmdServed s m _ _ _ _ hr hs hm⟩

/-- Settles O26: each clear is the WRCMD that `pseudoOperationsExpand` names, served; that the mirror keeps its values is
part of `WriteServed`. -/
theorem clearsServed : Obligations.ClearsServed := by
  intro s m bytes moves left hr hs hm
  obtain ⟨-, -, -, hcell, haux, hstat, -⟩ := pseudoOperationsExpand m s
  rw [hcell, haux, hstat]
  exact ⟨wrcmdServed s m _ _ _ _ hr hs hm, wrcmdServed s m _ _ _ _ hr hs hm, wrcmdServed s m _ _ _ _ hr hs hm⟩

end Sys2Proof.Machine
end

section
/-! SUPPORT. Family 45_host_sequences: what a list of stages makes of a session while the environment serves its
transfers, composed stage by stage (45_host_sequences.md R202 to R212). -/

namespace Sys2Proof.Machine

/-! ### Where a host sequence stands -/

/-- What a host sequence works on: its session's constants, the mirror, its codes, `err_count` and the lines. -/
structure Progress where
  n : Nat
  par : Params
  board : List Board
  code : U16
  agg : U16
  errCount : Int
  lines : List PortEvent

/-- The progress a state shows. -/
def State.progress (s : State) : Progress :=
  { n := s.n, par := s.par, board := s.board, code := s.code, agg := s.agg, errCount := s.errCount
    lines := lineTrace s.ports }

/-- Between two operations of a sequence: the block is ready, its mirror has one entry per chip, and it shows `p`. -/
structure StandsAt (p : Progress) (s : State) : Prop where
  ready : s.Ready
  size : s.board.length = s.n
  shows : s.progress = p

/-- The stages `ts`, their `transfers` served one after the other, lead from `p` to `q`, whatever stages and moves come
after them. -/
def Serves (m : Mode) (ts : List Task) (transfers : List (Nat × List Byte)) (p q : Progress) : Prop :=
  ∀ ⦃s : State⦄ ⦃moves : List EnvEvent⦄, StandsAt p s → ServedAll m transfers moves →
    ∀ (rest : List Task) (es : List EnvEvent), ∃ t, StandsAt q t ∧
      drive (moves ++ es) (runTasks (ts ++ rest) s) = drive es (runTasks rest t)

theorem ServedAll.of_append {m : Mode} {xs ys : List (Nat × List Byte)} {moves : List EnvEvent}
    (h : ServedAll m (xs ++ ys) moves) :
    ∃ first more, moves = first ++ more ∧ ServedAll m xs first ∧ ServedAll m ys more := by
  induction xs generalizing moves with
  | nil => exact ⟨[], moves, rfl, rfl, h⟩
  | cons x xs ih =>
    obtain ⟨now, later, rfl, hnow, hlater⟩ := h
    obtain ⟨first, more, rfl, hfirst, hmore⟩ := ih hlater
    exact ⟨now ++ first, more, by rw [List.append_assoc], ⟨now, first, rfl, hnow, hfirst⟩, hmore⟩

section
variable {m : Mode} {p q r : Progress}

theorem Serves.refl : Serves m [] [] p p := by
  rintro s moves hs rfl rest es
  exact ⟨s, hs, rfl⟩

/-- One part of a sequence after another. -/
theorem Serves.trans {ts us : List Task} {xs ys : List (Nat × List Byte)} (h : Serves m ts xs p q)
    (h' : Serves m us ys q r) : Serves m (ts ++ us) (xs ++ ys) p r := by
  intro s moves hs hmoves rest es
  obtain ⟨first, more, rfl, hfirst, hmore⟩ := hmoves.of_append
  obtain ⟨t, ht, hst⟩ := h hs hfirst (us ++ rest) (more ++ es)
  obtain ⟨u, hu, htu⟩ := h' ht hmore rest es
  exact ⟨u, hu, by rw [List.append_assoc, List.append_assoc, hst, htu]⟩

/-- Every stage without a transfer leaves a ready block with one entry per chip. -/
theorem StandsAt.after_stage {s : State} (h : StandsAt p s) {t : Task} (hq : (stage t s).progress = q) :
    StandsAt q (stage t s) := by
  have hkept := sequenceKept_of_untouched (untouched_stage t s)
  obtain ⟨hboard, -⟩ := board_of_commBytes (commBytes_of_untouched (untouched_stage t s))
  obtain ⟨hphase, htorn, hpos⟩ := h.ready
  exact ⟨⟨stage_phase hphase t, by rw [hkept.tornDown, htorn], by rwa [hkept.n]⟩, by rw [hboard, hkept.n, h.size], hq⟩

/-- A stage that makes no transfer, by what it makes of the progress. -/
theorem serves_stage {t : Task} (ht : transferOf t = none) {F : Progress → Progress}
    (hF : ∀ s, (stage t s).progress = F s.progress) : Serves m [t] [] p (F p) := by
  rintro s moves hs rfl rest es
  exact ⟨stage t s, hs.after_stage (by rw [hF, hs.shows]),
    by rw [List.nil_append, List.singleton_append, runTasks_stage ht]⟩

/-- A sequence starts with one mirror entry per chip. -/
theorem serves_of_size {ts : List Task} {xs : List (Nat × List Byte)} (h : p.board.length = p.n → Serves m ts xs p q) :
    Serves m ts xs p q := by
  intro s moves hs
  have hsize := hs.size
  obtain rfl := hs.shows
  exact h hsize hs

end

end Sys2Proof.Machine
end

section
/-! SUPPORT. Family 45_host_sequences: what the parts of a host sequence do, a write, a settle delay, a group that is
read and checked (45_host_sequences.md R204, R211). -/

namespace Sys2Proof.Machine

/-! ### How a part shows in the progress -/

/-- The entry of position `i` after the parse of a group received in `bytes` (42_frame_read_parse.md R133 to R135). No
test reads the configuration group. -/
def entryParsed (par : Params) (bytes : List Byte) (grp : Group) (i : Nat) (b : Board) : Board :=
  let word (k : Nat) : Reg U16 := { val := blockCode par.regDataOrder bytes i k, known := true }
  match grp with
  | .cv g => { b with cellVoltage := setTriple b.cellVoltage g word }
  | .aux g => { b with auxVoltage := setTriple b.auxVoltage g word }
  | .stat g => { b with status := setTriple b.status g word }
  | .cfg => b

/-- A part of a sequence: the groups it reads and parses, with what it receives, its fault code, what the lines do. -/
def Progress.advance (p : Progress) (reads : List (Group × List Byte)) (code : U16) (trace : List PortEvent) :
    Progress :=
  { p with
    board := reads.foldl (fun bs r => bs.mapIdx (entryParsed p.par r.2 r.1)) p.board
    code := code
    errCount := p.errCount - ((reads.map fun r => badBlocks p.n r.2).sum : Nat)
    lines := p.lines ++ trace }

@[simp] theorem Progress.advance_par (p : Progress) (reads : List (Group × List Byte)) (code : U16)
    (trace : List PortEvent) : (p.advance reads code trace).par = p.par := rfl

theorem Progress.advance_advance (p : Progress) (reads reads' : List (Group × List Byte)) (code code' : U16)
    (trace trace' : List PortEvent) :
    (p.advance reads code trace).advance reads' code' trace' = p.advance (reads ++ reads') code' (trace ++ trace') := by
  simp [Progress.advance, Int.sub_sub]

/-- The groups a test reads: cell voltages, auxiliary voltages, status (45_host_sequences.md R205 to R210). -/
def measured (grp : Group) : Bool :=
  match grp with
  | .cv g => g < 4
  | .aux g => g < 2
  | .stat g => g < 2
  | .cfg => false

/-! ### A served operation -/

theorem setTriple_congr {size : Nat} (v : Vector (Reg U16) size) (g : Nat) {w w' : Nat → Reg U16}
    (h : ∀ k, k < 3 → w k = w' k) : setTriple v g w = setTriple v g w' := by
  simp only [setTriple, h 0 (by omega), h 1 (by omega), h 2 (by omega)]

/-- The parse of a measured group takes its codes from what was received (42_frame_read_parse.md R133 to R135). -/
theorem mapIdx_parseBoard_of_bytes {s : State} {bytes : List Byte} (h : memReadBytes s.rx 0 bytes.length = some bytes)
    (hu : s.rxUnspec = 0) {boards : List Board} (hlen : bytes.length = bufLen boards.length) {grp : Group}
    (hg : measured grp = true) :
    boards.mapIdx (parseBoard s grp) = boards.mapIdx (entryParsed s.par bytes grp) := by
  refine List.ext_getElem (by simp) fun i hi _ => ?_
  have hi : i < boards.length := by simpa using hi
  have hword (k : Nat) (hk : k < 3) : rxWord s i k = { val := blockCode s.par.regDataOrder bytes i k, known := true } :=
    rxWord_of_bytes h hu (by simp only [blockAt, hlen, bufLen]; omega)
  rw [List.getElem_mapIdx, List.getElem_mapIdx]
  cases grp with
  | cv g => simp only [parseBoard, entryParsed, setTriple_congr _ g hword]
  | aux g => simp only [parseBoard, entryParsed, setTriple_congr _ g hword]
  | stat g => simp only [parseBoard, entryParsed, setTriple_congr _ g hword]
  | cfg => cases hg

/-- Only a read is duplex, and it receives all of `rx` (30_encoding.md R65). -/
theorem frameLen_of_duplex {f : Frame} (h : frameDir f = .duplex) {n : Nat} : frameLen n f = bufLen n := by
  cases f with
  | rd code => rfl
  | cmd code => cases h
  | wr code blocks => cases h

section
variable {m : Mode} {p : Progress}

/-- A served bus operation inside a sequence: its transfer and its stage 4. After a read the received bytes are in `rx`
with their flags (41_frame_write.md R110, 42_frame_read_parse.md R130, R131). -/
theorem operation_served {s : State} (hs : StandsAt p s) {f : Frame} (hf : frameFits p.n f = true) {bytes : List Byte}
    {moves : List EnvEvent} (h : Served m (frameLen p.n f) bytes moves) (rest : List Task) (es : List EnvEvent) :
    ∃ t, StandsAt (p.advance [] p.code (transferTrace p.n p.par.given m f)) t ∧
      (frameDir f = .duplex → ReadDone bytes s t) ∧
      drive (moves ++ es) (runTasks (.bus m f :: resultTask f :: rest) s) = drive es (runTasks rest t) := by
  obtain ⟨⟨-, htorn, hpos⟩, hsize, rfl⟩ := hs
  have hlen : bytes.length = frameLen s.n f := h.length_eq
  obtain ⟨pwr, b, ds, hy, hdrive⟩ := drive_runTasks_bus (resultTask f :: rest) h es
  have hlines := lineTrace_transfer (m := m) (.bus m f :: resultTask f :: rest) hf hlen pwr b hy
  generalize hu : served m f bytes _ = u at hdrive hlines
  rw [runTasks_stage (transferOf_resultTask f)] at hdrive
  have hn : u.n = s.n := by simp [← hu]
  have hok : u.status = .ok := by simp [← hu]
  refine ⟨stage (resultTask f) u, ⟨⟨phase_resultTask f u, ?torn, ?pos⟩, ?size, ?shows⟩, fun hd => ?read, hdrive⟩
  case torn => cases hd : frameDir f <;> simp [resultTask, hd, stage, ← hu, htorn]
  case pos => simpa [hn] using hpos
  case size => cases hd : frameDir f <;> simp [resultTask, hd, stage, ← hu, hsize]
  case shows =>
    rw [State.progress, ports_resultTask f hok, lineTrace_append, hlines]
    cases hd : frameDir f <;> simp [resultTask, hd, stage, ← hu, State.progress, Progress.advance]
  case read =>
    have hrx : memReadBytes u.rx 0 bytes.length = some bytes := by
      rw [← hu, served_rx _ _ _ _ (by simp [hlen]), if_pos hd]
      exact memReadBytes_memWriteBytes _ 0 bytes
    have hresult : stage (resultTask f) u = endRead u := by rw [resultTask, hd]; rfl
    rw [hresult]
    exact {
      ready := ⟨by simp, by simp [← hu, htorn], by simpa [hn] using hpos⟩
      n := by simp [hn]
      par := by simp [← hu]
      board := by simp [← hu]
      rx := by simpa using hrx
      rxUnspec := by simp [← hu, hd]
      flags := by simpa [hok, hn] using readFlags_of_bytes hrx (hlen.trans (frameLen_of_duplex hd)) }

/-- A write inside a sequence shows on the lines alone. -/
theorem serves_write {f : Frame} (hf : frameFits p.n f = true) (hd : frameDir f = .writeOnly) (bytes : List Byte) :
    Serves m (writeTasks m f) [(frameLen p.n f, bytes)] p
      (p.advance [] p.code (transferTrace p.n p.par.given m f)) := by
  rintro s moves hs ⟨first, more, rfl, hfirst, rfl⟩ rest es
  obtain ⟨t, ht, -, hdrive⟩ := operation_served hs hf hfirst rest es
  have hresult : resultTask f = .endWrite := by rw [resultTask, hd]
  rw [hresult] at hdrive
  exact ⟨t, ht, by rwa [List.append_nil]⟩

/-- A group is read, its failing positions counted, and parsed (45_host_sequences.md R204, R211). -/
theorem serves_read (addr : U16) {grp : Group} (hg : measured grp = true) (bytes : List Byte) :
    Serves m (readTasks m addr ++ [Task.lull, .countErrors, .parse grp, .lull]) [(bufLen p.n, bytes)] p
      (p.advance [(grp, bytes)] p.code (transferTrace p.n p.par.given m (.rd addr))) := by
  rintro s moves hs ⟨first, more, rfl, hfirst, rfl⟩ rest es
  obtain ⟨t, ht, hread, hdrive⟩ := operation_served (f := .rd addr) hs rfl hfirst
    ([Task.lull, .countErrors, .parse grp, .lull] ++ rest) es
  specialize hread rfl
  have hlen : bytes.length = bufLen p.n := hfirst.length_eq
  have hn : t.n = p.n := congrArg Progress.n ht.shows
  have hcounted := (ht.after_stage (t := .lull) rfl).after_stage (t := .countErrors) rfl
  refine ⟨_, (hcounted.after_stage (t := .parse grp) rfl).after_stage (t := .lull) ?_, by rwa [List.append_nil]⟩
  have hparsed : t.board.mapIdx (parseBoard (countErrors (idleMoment t)) grp) =
      t.board.mapIdx (entryParsed t.par bytes grp) :=
    mapIdx_parseBoard_of_bytes (s := countErrors (idleMoment t)) hread.rx hread.rxUnspec (by rw [hlen, ht.size, hn]) hg
  have hcount : failCount (idleMoment t) = badBlocks t.n bytes := by
    rw [hread.n]
    exact congrArg (List.count true) hread.flags
  calc (stage .lull (stage (.parse grp) (stage .countErrors (stage .lull t)))).progress
      = { t.progress with
          board := t.progress.board.mapIdx (entryParsed t.progress.par bytes grp)
          errCount := t.progress.errCount - badBlocks t.progress.n bytes } := by
        simp [stage, State.progress, hparsed, hcount]
    _ = _ := by rw [ht.shows]; simp [Progress.advance]

theorem serves_lull : Serves m [.lull] [] p p := serves_stage (F := id) rfl fun _ => rfl

theorem serves_settle (d : Nat) : Serves m [.lull, .settle d, .lull] [] p (p.advance [] p.code [.delay .settle d]) :=
  (serves_lull.trans (serves_stage (F := fun p => p.advance [] p.code [.delay .settle d]) rfl fun s => by
    simp [stage, State.progress, Progress.advance])).trans serves_lull

/-- At the head of a test the code is cleared, its command sent, its settle delay waited (45_host_sequences.md R204). -/
theorem serves_command (cmd : U16) (d : Nat) (c : List Byte) :
    Serves m (Task.clearCode :: (writeTasks m (.cmd cmd) ++ [Task.lull, .settle d, .lull])) [(4, c)] p
      (p.advance [] 0 (transferTrace p.n p.par.given m (.cmd cmd) ++ [PortEvent.delay .settle d])) := by
  have hclear : Serves m [.clearCode] [] p (p.advance [] 0 []) :=
    serves_stage (F := fun p => p.advance [] 0 []) rfl fun s => by simp [stage, State.progress, Progress.advance]
  have h := (hclear.trans (serves_write (f := .cmd cmd) rfl rfl c)).trans (serves_settle d)
  simp only [Progress.advance_advance] at h
  exact h

/-- A check that computes the code from the mirror. -/
theorem serves_check {check : Task} (ht : transferOf check = none) {newCode : Params → List Board → U16 → U16}
    (hcheck : ∀ s, stage check s = { s with code := newCode s.par s.board s.code }) :
    Serves m [check] [] p (p.advance [] (newCode p.par p.board p.code) []) :=
  serves_stage (F := fun p => p.advance [] (newCode p.par p.board p.code) []) ht fun s => by
    rw [hcheck]; simp [State.progress, Progress.advance]

/-- A group is read and checked: `newCode` says what the check makes of the mirror. -/
theorem serves_group {check : Task} (ht : transferOf check = none) {newCode : Params → List Board → U16 → U16}
    (hcheck : ∀ s, stage check s = { s with code := newCode s.par s.board s.code }) (addr : U16) {grp : Group}
    (hg : measured grp = true) (bytes : List Byte) {code : U16}
    (hcode : p.board.length = p.n →
      newCode p.par (p.board.mapIdx (entryParsed p.par bytes grp)) p.code = code) :
    Serves m (groupTasks m addr grp check) [(bufLen p.n, bytes)] p
      (p.advance [(grp, bytes)] code (transferTrace p.n p.par.given m (.rd addr))) := by
  refine serves_of_size fun hsize => ?_
  obtain rfl := hcode hsize
  have h := (serves_read (m := m) (p := p) addr hg bytes).trans (serves_check ht hcheck)
  simp only [Progress.advance_advance, List.append_nil] at h
  exact h

end

end Sys2Proof.Machine
end

section
/-! SUPPORT. Family 45_host_sequences: the codes that the checks make of a mirror just parsed are those of what was
received (45_host_sequences.md R204, R208 to R210). -/

namespace Sys2Proof.Machine

/-! ### Loops -/

/-- A loop that assigns one value wherever a test holds. -/
theorem foldl_assign {α : Type} (test : α → Bool) (v : U16) (l : List α) (c : U16) :
    l.foldl (fun c a => if test a then v else c) c = if l.any test then v else c := by
  induction l generalizing c with
  | nil => rfl
  | cons a l ih => cases h : test a <;> simp [ih, h]

/-- A loop over chips whose entries all come from what was received goes by position. -/
theorem overChips_mapIdx {check : Nat → Board → U16 → U16} {entry : Nat → Board → Board} {next : U16 → Nat → U16}
    (h : ∀ i b c, check i (entry i b) c = next c i) (boards : List Board) (code : U16) :
    overChips check (boards.mapIdx entry) code = (List.range boards.length).foldl next code := by
  induction boards using List.reverseRecOn with
  | nil => rfl
  | append_singleton boards b ih =>
    rw [overChips] at ih ⊢
    simp [List.mapIdx_concat, List.zipIdx_append, List.range_succ, ih, h]

/-! ### What a check finds in the mirror -/

theorem patternCode_eq_overChips (p : Given) (grp : Group) (boards : List Board) (code : U16) :
    patternCode p grp boards code =
      overChips (fun _ b c => if (groupWords grp b).any (· != expectedPattern p) then groupFault p grp else c)
        boards code := by
  simp only [patternCode, overChips, ← bne_iff_ne, foldl_assign]
  conv_lhs => rw [← List.zipIdx_map_fst 0 boards, List.any_map]
  rfl

theorem elemVal_setTriple {size : Nat} (v : Vector (Reg U16) size) {g k : Nat} (w : Nat → Reg U16) (hk : k < 3)
    (hs : 3 * g + k < size) : elemVal (setTriple v g w) (3 * g + k) = (w k).val := by
  rw [elemVal, setTriple_getElem? v w hk hs]

/-- The codes of a group just parsed are those received (42_frame_read_parse.md R133 to R135). -/
theorem groupWords_entryParsed (par : Params) (bytes : List Byte) {grp : Group} (hg : measured grp = true) (i : Nat)
    (b : Board) :
    groupWords grp (entryParsed par bytes grp i b) = (List.range 3).map (blockCode par.regDataOrder bytes i) := by
  have hwords {size g : Nat} (v : Vector (Reg U16) size) (w : Nat → Reg U16) (hs : 3 * g + 2 < size) :
      [elemVal (setTriple v g w) (3 * g), elemVal (setTriple v g w) (3 * g + 1),
        elemVal (setTriple v g w) (3 * g + 2)] = (List.range 3).map fun k => (w k).val := by
    have h0 := elemVal_setTriple v w (g := g) (k := 0) (by omega) (by omega)
    have h1 := elemVal_setTriple v w (g := g) (k := 1) (by omega) (by omega)
    rw [← Nat.add_zero (3 * g), h0, Nat.add_zero, h1, elemVal_setTriple v w (by omega) hs]
    rfl
  cases grp with
  | cv g =>
    have hg : g < 4 := of_decide_eq_true hg
    simp only [groupWords, entryParsed]
    rw [hwords _ _ (by omega)]
  | aux g =>
    have hg : g < 2 := of_decide_eq_true hg
    simp only [groupWords, entryParsed]
    rw [hwords _ _ (by omega)]
  | stat g =>
    have hg : g < 2 := of_decide_eq_true hg
    simp only [groupWords, entryParsed]
    rw [hwords _ _ (by omega)]
  | cfg => cases hg

/-- The comparison loop over what was received (45_host_sequences.md R204). -/
theorem patternCode_entryParsed (par : Params) (bytes : List Byte) {grp : Group} (hg : measured grp = true)
    (boards : List Board) (code : U16) :
    patternCode par.given grp (boards.mapIdx (entryParsed par bytes grp)) code =
      if patternMissed boards.length par bytes then groupFault par.given grp else code := by
  rw [patternCode_eq_overChips, overChips_mapIdx fun i b c => by rw [groupWords_entryParsed par bytes hg, List.any_map],
    foldl_assign]
  rfl

/-- Element `3g + k` of a status group just parsed is the code received (42_frame_read_parse.md R135). -/
theorem status_entryParsed (par : Params) (bytes : List Byte) {g k : Nat} (hg : g < 2) (hk : k < 3) (i : Nat)
    (b : Board) :
    elemVal (entryParsed par bytes (.stat g) i b).status (3 * g + k) = blockCode par.regDataOrder bytes i k := by
  rw [entryParsed, elemVal_setTriple _ _ hk (by omega)]

/-- The loop over status group A as received (45_host_sequences.md R208). -/
def supplyLoop (n : Nat) (p : Params) (bytes : List Byte) (code : U16) : U16 :=
  (List.range n).foldl
    (fun c i => if inBand p.given.bandVa (blockCode p.regDataOrder bytes i p.given.idxVa) then c else chipFault i 2)
    code

/-- The loop over status group B as received (45_host_sequences.md R208). -/
def flagsLoop (n : Nat) (p : Params) (bytes : List Byte) (code : U16) : U16 :=
  (List.range n).foldl
    (fun c i =>
      let flags := blockCode p.regDataOrder bytes i p.given.idxFlags
      let c := if flags &&& p.given.maskThsd ≠ 0 then chipFault i 1 else c
      let c := if flags &&& p.given.maskMuxfail ≠ 0 then chipFault i 4 else c
      if inBand p.given.bandVd (blockCode p.regDataOrder bytes i p.given.idxVd) then c else chipFault i 3)
    code

theorem adstatCode_eq_loops (n : Nat) (p : Params) (a b : List Byte) :
    adstatCode n p a b = flagsLoop n p b (supplyLoop n p a 0) := rfl

theorem supplyCode_entryParsed (par : Params) (bytes : List Byte) (boards : List Board) (code : U16) :
    overChips (supplyCode par.given) (boards.mapIdx (entryParsed par bytes (.stat 0))) code =
      supplyLoop boards.length par bytes code := by
  refine overChips_mapIdx (fun i b c => ?_) boards code
  have hva := status_entryParsed par bytes (g := 0) (by omega) par.given.idxVa.isLt i b
  rw [Nat.mul_zero, Nat.zero_add] at hva
  rw [supplyCode, hva]

theorem flagsCode_entryParsed (par : Params) (bytes : List Byte) (boards : List Board) (code : U16) :
    overChips (flagsCode par.given) (boards.mapIdx (entryParsed par bytes (.stat 1))) code =
      flagsLoop boards.length par bytes code := by
  refine overChips_mapIdx (fun i b c => ?_) boards code
  have hflags := status_entryParsed par bytes (g := 1) (by omega) par.given.idxFlags.isLt i b
  have hvd := status_entryParsed par bytes (g := 1) (by omega) par.given.idxVd.isLt i b
  rw [Nat.mul_one] at hflags hvd
  rw [flagsCode, hflags, hvd]

/-- The loop over auxiliary group B as received (45_host_sequences.md R210). -/
def ref2Loop (n : Nat) (p : Params) (bytes : List Byte) (code : U16) : U16 :=
  (List.range n).foldl
    (fun c i => if inBand p.given.bandVref2 (blockCode p.regDataOrder bytes i p.idxRef2) then c else chipFault i 1) code

theorem accCode_eq_loop (n : Nat) (p : Params) (bytes : List Byte) : accCode n p bytes = ref2Loop n p bytes 0 := rfl

theorem ref2Code_entryParsed (par : Params) (bytes : List Byte) (boards : List Board) (code : U16) :
    overChips (ref2Code par) (boards.mapIdx (entryParsed par bytes (.aux 1))) code =
      ref2Loop boards.length par bytes code := by
  refine overChips_mapIdx (fun i b c => ?_) boards code
  have href := elemVal_setTriple b.auxVoltage (g := 1) (k := par.idxRef2)
    (fun k => { val := blockCode par.regDataOrder bytes i k, known := true }) par.idxRef2.isLt (by omega)
  rw [Nat.mul_one] at href
  rw [ref2Code, entryParsed, href]

end Sys2Proof.Machine
end

section
/-! SUPPORT. Family 45_host_sequences: the tests, from their stages to the answer on the request port
(45_host_sequences.md R204 to R212). -/

namespace Sys2Proof.Machine

/-! ### The stages of a test -/

section
variable {m : Mode} {p : Progress}

/-- The reads of a self-test, one after the other (45_host_sequences.md R204). -/
theorem serves_patternGroups {reads : List (U16 × Group × List Byte)} (hg : ∀ r ∈ reads, measured r.2.1 = true) :
    Serves m (reads.flatMap fun r => groupTasks m r.1 r.2.1 (.checkPattern r.2.1))
      (reads.map fun r => (bufLen p.n, r.2.2)) p
      (p.advance (reads.map (·.2))
        ((reads.map (·.2)).foldl
          (fun c r => if patternMissed p.n p.par r.2 then groupFault p.par.given r.1 else c) p.code)
        (reads.flatMap fun r => transferTrace p.n p.par.given m (.rd r.1))) := by
  induction reads generalizing p with
  | nil => simpa [Progress.advance] using Serves.refl (p := p)
  | cons r reads ih =>
    have hr : measured r.2.1 = true := hg r (by simp)
    have hgroup := serves_group (m := m) (p := p) (check := .checkPattern r.2.1) rfl
      (newCode := fun par boards c => patternCode par.given r.2.1 boards c) (fun s => rfl) r.1 hr r.2.2
      fun hsize => by rw [patternCode_entryParsed p.par r.2.2 hr, hsize]
    have h := hgroup.trans (ih fun r' hr' => hg r' (by simp [hr']))
    rw [Progress.advance_advance] at h
    exact h

/-- A self-test, all its transfers served (45_host_sequences.md R204). -/
theorem serves_selfTest (cmd : U16) {reads : List (U16 × Group × List Byte)}
    (hg : ∀ r ∈ reads, measured r.2.1 = true) (c : List Byte) :
    Serves m (selfTestTasks m p.par.given cmd (reads.map fun r => (r.1, r.2.1)))
      ((4, c) :: reads.map fun r => (bufLen p.n, r.2.2)) p
      (p.advance (reads.map (·.2)) (selfTestCode p.n p.par (reads.map (·.2)))
        (selfTestTrace p.n p.par.given m cmd (reads.map (·.1)))) := by
  have h := (serves_command (m := m) (p := p) cmd p.par.given.tSt c).trans (serves_patternGroups hg)
  rw [Progress.advance_advance] at h
  have hts : selfTestTasks m p.par.given cmd (reads.map fun r => (r.1, r.2.1)) =
      Task.clearCode :: (writeTasks m (.cmd cmd) ++ [Task.lull, .settle p.par.given.tSt, .lull]) ++
        reads.flatMap fun r => groupTasks m r.1 r.2.1 (.checkPattern r.2.1) := by
    simp [selfTestTasks, List.flatMap_map]
  rw [hts, selfTestTrace, List.flatMap_map]
  exact h

/-- CVTEST (45_host_sequences.md R205). -/
theorem serves_cvTasks (c b0 b1 b2 b3 : List Byte) :
    Serves m (cvTasks m p.par.given)
      [(4, c), (bufLen p.n, b0), (bufLen p.n, b1), (bufLen p.n, b2), (bufLen p.n, b3)] p
      (p.advance [(.cv 0, b0), (.cv 1, b1), (.cv 2, b2), (.cv 3, b3)]
        (selfTestCode p.n p.par [(.cv 0, b0), (.cv 1, b1), (.cv 2, b2), (.cv 3, b3)])
        (selfTestTrace p.n p.par.given m (pickSelector p.par.given.cmdCvst p.par.given.sel)
          [p.par.given.cmdRdcv[0], p.par.given.cmdRdcv[1], p.par.given.cmdRdcv[2], p.par.given.cmdRdcv[3]])) :=
  serves_selfTest _ (reads := [(p.par.given.cmdRdcv[0], .cv 0, b0), (p.par.given.cmdRdcv[1], .cv 1, b1),
    (p.par.given.cmdRdcv[2], .cv 2, b2), (p.par.given.cmdRdcv[3], .cv 3, b3)]) (by simp [measured]) c

/-- AUXTEST (45_host_sequences.md R206). -/
theorem serves_auxTasks (c b0 b1 : List Byte) :
    Serves m (auxTasks m p.par.given) [(4, c), (bufLen p.n, b0), (bufLen p.n, b1)] p
      (p.advance [(.aux 0, b0), (.aux 1, b1)] (selfTestCode p.n p.par [(.aux 0, b0), (.aux 1, b1)])
        (selfTestTrace p.n p.par.given m (pickSelector p.par.given.cmdAxst p.par.given.sel)
          [p.par.given.cmdRdaux[0], p.par.given.cmdRdaux[1]])) :=
  serves_selfTest _ (reads := [(p.par.given.cmdRdaux[0], .aux 0, b0), (p.par.given.cmdRdaux[1], .aux 1, b1)])
    (by simp [measured]) c

/-- STATTEST (45_host_sequences.md R207). -/
theorem serves_statTasks (c b0 b1 : List Byte) :
    Serves m (statTasks m p.par.given) [(4, c), (bufLen p.n, b0), (bufLen p.n, b1)] p
      (p.advance [(.stat 0, b0), (.stat 1, b1)] (selfTestCode p.n p.par [(.stat 0, b0), (.stat 1, b1)])
        (selfTestTrace p.n p.par.given m (pickSelector p.par.given.cmdStatst p.par.given.sel)
          [p.par.given.cmdRdstat[0], p.par.given.cmdRdstat[1]])) :=
  serves_selfTest _ (reads := [(p.par.given.cmdRdstat[0], .stat 0, b0), (p.par.given.cmdRdstat[1], .stat 1, b1)])
    (by simp [measured]) c

/-- ADSTATTEST (45_host_sequences.md R208). -/
theorem serves_adstatTasks (c c' a b : List Byte) :
    Serves m (adstatTasks m p.par.given) [(4, c), (4, c'), (bufLen p.n, a), (bufLen p.n, b)] p
      (p.advance [(.stat 0, a), (.stat 1, b)] (adstatCode p.n p.par a b) (adstatTrace p.n p.par.given m)) := by
  have hcommands := (serves_command (m := m) (p := p) p.par.given.cmdAdstat p.par.given.tDiag c).trans
    ((serves_write (f := .cmd p.par.given.cmdDiagn) rfl rfl c').trans serves_lull)
  have h := (hcommands.trans (serves_group (check := .checkSupply) rfl
    (newCode := fun par boards c => overChips (supplyCode par.given) boards c) (fun s => rfl)
    p.par.given.cmdRdstat[0] (grp := .stat 0) rfl a fun hsize => by rw [supplyCode_entryParsed, hsize])).trans
    (serves_group (check := .checkFlags) rfl
      (newCode := fun par boards c => overChips (flagsCode par.given) boards c) (fun s => rfl)
      p.par.given.cmdRdstat[1] (grp := .stat 1) rfl b fun hsize => by rw [flagsCode_entryParsed, hsize])
  simp only [Progress.advance_advance] at h
  rw [adstatCode_eq_loops]
  exact h

/-- ACCTEST (45_host_sequences.md R210). -/
theorem serves_accTasks (c b : List Byte) :
    Serves m (accTasks m p.par.given) [(4, c), (bufLen p.n, b)] p
      (p.advance [(.aux 1, b)] (accCode p.n p.par b) (accTrace p.n p.par.given m)) := by
  have h := (serves_command (m := m) (p := p) p.par.given.cmdRef2 p.par.given.tAcc c).trans
    (serves_group (check := .checkRef2) rfl (newCode := fun par boards c => overChips (ref2Code par) boards c)
      (fun s => rfl) p.par.given.cmdRdaux[1] (grp := .aux 1) rfl b
      fun hsize => by rw [ref2Code_entryParsed, hsize])
  rw [Progress.advance_advance] at h
  rw [accCode_eq_loop]
  exact h

end

/-! ### A sequence from its request to its answer -/

/-- Where a sequence ends: its last stage answers a code that its progress shows. -/
theorem exec_sequence_served {s : State} {i : Instr} (hr : s.Ready) (hsize : s.board.length = s.n)
    (hw : i.wellFormed s.n = true) {ts : List Task} {final : Task}
    (hstages : requestStages { s with answer := .none } i = some (ts ++ [final])) (hfinal : transferOf final = none)
    {result : Progress → U16} (hresult : ∀ t, stage final t = { t with answer := .code (result t.progress) }) {m : Mode}
    {transfers : List (Nat × List Byte)} {q : Progress} (h : Serves m ts transfers s.progress q)
    {moves left : List EnvEvent} (hmoves : ServedAll m transfers moves) (hscript : s.script = moves ++ left) :
    ∃ t, exec i s = .next t ∧ SequenceOver (result q) left s t ∧ t.progress = q := by
  obtain ⟨t, ht, hdrive⟩ := h (s := { s with answer := .none }) ⟨hr, hsize, rfl⟩ hmoves [final] left
  rw [runTasks_stage hfinal, runTasks_nil, hresult] at hdrive
  have hover := (congrArg (drive · (runTasks (ts ++ [final]) { s with answer := .none })) hscript).trans
    (hdrive.trans (drive_idle (s := { t with answer := .code (result t.progress), todo := [] }) ht.ready.1 left))
  have hkept := untouched_operate (ts ++ [final]) { s with answer := .none }
  rw [operate, hover] at hkept
  refine ⟨{ t with answer := .code (result t.progress), todo := [], script := left }, ?next, ?ended, ht.shows⟩
  case next => exact exec_next_iff.2 ⟨hr, hw, by rw [effect, hstages]; exact hover.symm⟩
  case ended => exact {
    answer := by rw [ht.shows]
    phase := ht.ready.1
    script := rfl
    todo := rfl
    kept := sequenceKept_of_untouched hkept }

/-- Its reads keep a part of the mirror that no parse of theirs writes (42_frame_read_parse.md R137 (d)). -/
theorem map_board_advance {α : Type} {part : Board → α} {p : Progress} {reads : List (Group × List Byte)}
    (h : ∀ r ∈ reads, ∀ i b, part (entryParsed p.par r.2 r.1 i b) = part b) {code : U16} {trace : List PortEvent} :
    (p.advance reads code trace).board.map part = p.board.map part := by
  rw [Progress.advance]
  generalize p.board = boards
  induction reads generalizing boards with
  | nil => rfl
  | cons r reads ih =>
    rw [List.foldl_cons, ih fun r' hr' => h r' (by simp [hr'])]
    refine List.ext_getElem (by simp) fun i _ _ => ?_
    simp only [List.getElem_map, List.getElem_mapIdx]
    exact h r (by simp) i _

@[simp] theorem wireBytes_transferTrace (n : Nat) (p : Given) (m : Mode) (f : Frame) :
    wireBytes (transferTrace n p m f) = frameBytes n f := by
  rw [transferTrace]
  cases csAfter m f <;> simp [refreshTrace]

/-- A test of the host, served: its code, `err_count`, the wire, the lines, and the `part` of the mirror that its reads
do not write (45_host_sequences.md R204 to R212). -/
theorem exec_test_served {s : State} {i : Instr} (hr : s.Ready) (hsize : s.board.length = s.n)
    (hw : i.wellFormed s.n = true) {ts : List Task}
    (hstages : requestStages { s with answer := .none } i = some (ts ++ [Task.answerCode])) {m : Mode}
    {transfers : List (Nat × List Byte)} {reads : List (Group × List Byte)} {code : U16} {trace : List PortEvent}
    (h : Serves m ts transfers s.progress (s.progress.advance reads code trace)) {α : Type} {part : Board → α}
    (hpart : ∀ r ∈ reads, ∀ i b, part (entryParsed s.par r.2 r.1 i b) = part b) {moves left : List EnvEvent}
    (hmoves : ServedAll m transfers moves) (hscript : s.script = moves ++ left) :
    ∃ t, exec i s = .next t ∧ SequenceOver code left s t ∧ t.agg = s.agg ∧ t.board.map part = s.board.map part ∧
      t.errCount = s.errCount - ((reads.map fun r => badBlocks s.n r.2).sum : Nat) ∧
      wireBytes t.ports = wireBytes s.ports ++ wireBytes trace ∧
      lineTrace t.ports = lineTrace s.ports ++ trace := by
  obtain ⟨t, hexec, hover, ht⟩ :=
    exec_sequence_served hr hsize hw hstages rfl (result := Progress.code) (fun _ => rfl) h hmoves hscript
  have hlines : lineTrace t.ports = lineTrace s.ports ++ trace := congrArg Progress.lines ht
  refine ⟨t, hexec, hover, congrArg Progress.agg ht, ?_, congrArg Progress.errCount ht, ?_, hlines⟩
  · exact (congrArg (fun p => p.board.map part) ht).trans (map_board_advance (p := s.progress) hpart)
  · rw [← wireBytes_lineTrace, hlines, wireBytes_append, wireBytes_lineTrace]

/-- Settles O55: the four reads of `serves_cvTasks` write cell voltages alone. -/
theorem cvtestServed : Obligations.CvtestServed := by
  intro s m c b0 b1 b2 b3 moves left hr hsize hmoves hscript
  obtain ⟨t, hexec, hover, hagg, hboard, herr, hwire, hlines⟩ := exec_test_served hr hsize (i := .cvtest m) rfl rfl
    (serves_cvTasks (p := s.progress) c b0 b1 b2 b3) (part := besideCells) (by simp [entryParsed, besideCells])
    hmoves hscript
  refine ⟨t, hexec, hover, hagg, hboard, ?_, ?_, hlines⟩
  · simpa [Nat.add_assoc] using herr
  · simpa [selfTestTrace, frameBytes, State.progress] using hwire

/-- Settles O56: `serves_auxTasks` writes auxiliary voltages alone, `serves_statTasks` status alone. -/
theorem auxtestAndStattestServed : Obligations.AuxtestAndStattestServed := by
  intro s m c b0 b1 moves left hr hsize hmoves hscript
  constructor
  · obtain ⟨t, hexec, hover, hagg, hboard, herr, hwire, hlines⟩ := exec_test_served hr hsize (i := .auxtest m) rfl rfl
      (serves_auxTasks (p := s.progress) c b0 b1) (part := besideAux) (by simp [entryParsed, besideAux]) hmoves hscript
    refine ⟨t, hexec, hover, hagg, hboard, ?_, ?_, hlines⟩
    · simpa using herr
    · simpa [selfTestTrace, frameBytes, State.progress] using hwire
  · obtain ⟨t, hexec, hover, hagg, hboard, herr, hwire, hlines⟩ := exec_test_served hr hsize (i := .stattest m) rfl rfl
      (serves_statTasks (p := s.progress) c b0 b1) (part := besideStatus) (by simp [entryParsed, besideStatus])
      hmoves hscript
    refine ⟨t, hexec, hover, hagg, hboard, ?_, ?_, hlines⟩
    · simpa using herr
    · simpa [selfTestTrace, frameBytes, State.progress] using hwire

/-- Settles O58: `serves_adstatTasks`, whose two loops read what its two reads received. -/
theorem adstattestServed : Obligations.AdstattestServed := by
  intro s m c c' a b moves left hr hsize hmoves hscript
  obtain ⟨t, hexec, hover, hagg, hboard, herr, hwire, hlines⟩ := exec_test_served hr hsize (i := .adstattest m) rfl rfl
    (serves_adstatTasks (p := s.progress) c c' a b) (part := besideStatus) (by simp [entryParsed, besideStatus])
    hmoves hscript
  refine ⟨t, hexec, hover, hagg, hboard, ?_, ?_, hlines⟩
  · simpa using herr
  · simpa [adstatTrace, frameBytes, State.progress] using hwire

/-- Settles O59: `serves_accTasks`, whose one loop reads what its one read received. -/
theorem acctestServed : Obligations.AcctestServed := by
  intro s m c b moves left hr hsize hmoves hscript
  obtain ⟨t, hexec, hover, hagg, hboard, herr, hwire, hlines⟩ := exec_test_served hr hsize (i := .acctest m) rfl rfl
    (serves_accTasks (p := s.progress) c b) (part := besideAux) (by simp [entryParsed, besideAux]) hmoves hscript
  refine ⟨t, hexec, hover, hagg, hboard, ?_, ?_, hlines⟩
  · simpa using herr
  · simpa [accTrace, frameBytes, State.progress] using hwire

end Sys2Proof.Machine
end

section
/-! SUPPORT. Family 45_host_sequences: the tests over a chain that answers with the pattern, and INIT
(45_host_sequences.md R202, R203, R205 to R207). -/

namespace Sys2Proof.Machine

/-! ### The pattern everywhere -/

theorem length_of_mem_replicate {d : List Byte} (hd : d.length = 6) {n : Nat} :
    ∀ e ∈ List.replicate n d, e.length = 6 :=
  fun _ he => by rw [List.eq_of_mem_replicate he, hd]

section
variable {n : Nat} {par : Params} {d noise : List Byte} (hn : noise.length = 4) (hd : d.length = 6)
  (hpat : ∀ k, k < 3 → regWord par.regDataOrder (d.getD (2 * k) 0) (d.getD (2 * k + 1) 0) = expectedPattern par.given)
include hn hd

/-- Blocks that carry their own checksum count no failure (45_host_sequences.md R211). -/
theorem badBlocks_replicate : badBlocks n (chainAnswer noise (List.replicate n d)) = 0 := by
  have hflags := readFlags_chainAnswer hn (length_of_mem_replicate hd (n := n))
  rw [List.length_replicate] at hflags
  rw [badBlocks, hflags, List.count_replicate]
  rfl

include hpat

/-- A chain whose every group is the pattern misses it nowhere (45_host_sequences.md R204). -/
theorem patternMissed_replicate : patternMissed n par (chainAnswer noise (List.replicate n d)) = false := by
  refine List.any_eq_false.2 fun i hi => ?_
  have hi : i < (List.replicate n d).length := by simpa using hi
  rw [Bool.not_eq_true]
  refine List.any_eq_false.2 fun k hk => ?_
  have hk : k < 3 := List.mem_range.1 hk
  rw [chainAnswer, blockCode_of_chipBlock hn (length_of_mem_replicate hd) hi _ hk, List.getElem_replicate, hpat k hk]
  simp

end

/-- No group misses the pattern: the code is 0 (45_host_sequences.md R204). -/
theorem selfTestCode_of_not_missed {n : Nat} {par : Params} {reads : List (Group × List Byte)}
    (h : ∀ r ∈ reads, patternMissed n par r.2 = false) : selfTestCode n par reads = 0 := by
  induction reads using List.reverseRecOn with
  | nil => rfl
  | append_singleton reads r ih =>
    rw [selfTestCode] at ih ⊢
    rw [List.foldl_append, ih fun r' hr' => h r' (by simp [hr'])]
    simp [h r]

/-- Settles O57: the codes and counts of O55 and O56, where no group misses the pattern and no block fails. -/
theorem patternEverywherePasses : Obligations.PatternEverywherePasses := by
  intro s m c n0 n1 n2 n3 d moves left hr hsize h0 h1 h2 h3 hd hpat hscript
  have hmissed {noise : List Byte} (hn : noise.length = 4) :
      patternMissed s.n s.par (chainAnswer noise (List.replicate s.n d)) = false := patternMissed_replicate hn hd hpat
  have hbad {noise : List Byte} (hn : noise.length = 4) :
      badBlocks s.n (chainAnswer noise (List.replicate s.n d)) = 0 := badBlocks_replicate hn hd
  refine ⟨fun hmoves => ?_, fun hmoves => ?_⟩
  · obtain ⟨t, hexec, hover, -, -, herr, -⟩ := cvtestServed s m c _ _ _ _ moves left hr hsize hmoves hscript
    rw [selfTestCode_of_not_missed (by simp [hmissed h0, hmissed h1, hmissed h2, hmissed h3])] at hover
    exact ⟨t, hexec, hover, by simp [herr, hbad h0, hbad h1, hbad h2, hbad h3]⟩
  · obtain ⟨⟨t, hexec, hover, -, -, herr, -⟩, u, hexec', hover', -, -, herr', -⟩ :=
      auxtestAndStattestServed s m c _ _ moves left hr hsize hmoves hscript
    rw [selfTestCode_of_not_missed (by simp [hmissed h0, hmissed h1])] at hover hover'
    exact ⟨⟨t, hexec, hover, by simp [herr, hbad h0, hbad h1]⟩, u, hexec', hover', by simp [herr', hbad h0, hbad h1]⟩

/-! ### INIT -/

/-- Settles O54: a code that is not zero replaces the aggregate, and with FINAL_ONLY every code does. -/
theorem initAggregate : Obligations.InitAggregate := by
  refine ⟨fun codes => ?_, fun codes c => by simp [aggregateCode]⟩
  induction codes using List.reverseRecOn with
  | nil => rfl
  | append_singleton codes c ih =>
    rw [List.foldl_append, ih, List.filter_append]
    by_cases hc : c = 0
    · simp [aggregateCode, hc]
    · have hkept : [c].filter (fun c => c != 0) = [c] :=
        List.filter_cons_of_pos (p := fun c => c != 0) (bne_iff_ne.2 hc)
      rw [hkept, List.getLast?_concat]
      exact if_pos hc

/-- The progress with another aggregate. -/
def Progress.withAgg (p : Progress) (agg : U16) : Progress := { p with agg := agg }

@[simp] theorem Progress.withAgg_par (p : Progress) (a : U16) : (p.withAgg a).par = p.par := rfl

@[simp] theorem Progress.withAgg_board (p : Progress) (a : U16) : (p.withAgg a).board = p.board := rfl

section
variable {m : Mode} {p : Progress} {a : U16}

theorem serves_clearAgg : Serves m [.clearAgg] [] p (p.withAgg 0) :=
  serves_stage (F := fun p => p.withAgg 0) rfl fun _ => rfl

theorem serves_refresh : Serves m [.refresh] [] p (p.advance [] p.code (refreshTrace p.par.given)) :=
  serves_stage (F := fun p => p.advance [] p.code (refreshTrace p.par.given)) rfl fun s => by
    simp [stage, State.progress, Progress.advance, refreshTrace]

/-- INIT takes in the code of the test before (45_host_sequences.md R203). -/
theorem Serves.aggregate {ts : List Task} {xs : List (Nat × List Byte)} {reads : List (Group × List Byte)} {code : U16}
    {trace : List PortEvent} (h : Serves m ts xs (p.withAgg a) ((p.withAgg a).advance reads code trace)) :
    Serves m (ts ++ [Task.aggregate]) xs (p.withAgg a)
      ((p.advance reads code trace).withAgg (aggregateCode p.par.initAgg a code)) := by
  have haggregate : Serves m [.aggregate] [] _ _ := serves_stage (m := m) (p := (p.withAgg a).advance reads code trace)
    (F := fun p => p.withAgg (aggregateCode p.par.initAgg p.agg p.code)) rfl fun _ => rfl
  have hboth := h.trans haggregate
  rw [List.append_nil] at hboth
  exact hboth

/-- INIT up to its tests: the configuration write, the settle delay and the refresh (45_host_sequences.md R202). -/
theorem serves_initHead {payloads : List (List Byte)} (hfit : okPayloads p.n payloads = true) (w : List Byte) :
    Serves m (Task.clearAgg :: (writeTasks m (.wr p.par.given.cmdWrcfg payloads) ++
        [Task.lull, .settle p.par.given.tRefup, .lull, .refresh, .lull])) [(bufLen p.n, w)] p
      ((p.advance [] p.code (transferTrace p.n p.par.given m (.wr p.par.given.cmdWrcfg payloads) ++
        [PortEvent.delay .settle p.par.given.tRefup] ++ refreshTrace p.par.given)).withAgg 0) := by
  have hwrite : Serves m _ [(bufLen p.n, w)] (p.withAgg 0) _ :=
    serves_write (p := p.withAgg 0) (f := .wr p.par.given.cmdWrcfg payloads) hfit rfl w
  have h := ((serves_clearAgg.trans hwrite).trans (serves_settle p.par.given.tRefup)).trans
    (serves_refresh.trans serves_lull)
  simp only [Progress.advance_advance, List.append_assoc] at h ⊢
  exact h

/-- INIT up to its answer, all its transfers served (45_host_sequences.md R202, R203). -/
theorem serves_initTasks {payloads : List (List Byte)} (hfit : okPayloads p.n payloads.reverse = true)
    (w cv v0 v1 v2 v3 cx x0 x1 cs s0 s1 cd ce d0 d1 cr r : List Byte) :
    ∃ ts, initTasks m p.par.given (.wr p.par.given.cmdWrcfg payloads.reverse) = ts ++ [Task.answerAgg] ∧ Serves m ts
      [(bufLen p.n, w), (4, cv), (bufLen p.n, v0), (bufLen p.n, v1), (bufLen p.n, v2), (bufLen p.n, v3),
        (4, cx), (bufLen p.n, x0), (bufLen p.n, x1), (4, cs), (bufLen p.n, s0), (bufLen p.n, s1),
        (4, cd), (4, ce), (bufLen p.n, d0), (bufLen p.n, d1), (4, cr), (bufLen p.n, r)] p
      ((p.advance
        [(.cv 0, v0), (.cv 1, v1), (.cv 2, v2), (.cv 3, v3), (.aux 0, x0), (.aux 1, x1), (.stat 0, s0), (.stat 1, s1),
          (.stat 0, d0), (.stat 1, d1), (.aux 1, r)]
        (accCode p.n p.par r) (initTrace p.n p.par.given m payloads)).withAgg
        ([selfTestCode p.n p.par [(.cv 0, v0), (.cv 1, v1), (.cv 2, v2), (.cv 3, v3)],
          selfTestCode p.n p.par [(.aux 0, x0), (.aux 1, x1)], selfTestCode p.n p.par [(.stat 0, s0), (.stat 1, s1)],
          adstatCode p.n p.par d0 d1, accCode p.n p.par r].foldl (aggregateCode p.par.initAgg) 0)) := by
  have h := (serves_initHead (m := m) hfit w).trans (serves_cvTasks cv v0 v1 v2 v3).aggregate |>.trans
    (serves_auxTasks cx x0 x1).aggregate |>.trans (serves_statTasks cs s0 s1).aggregate |>.trans
    (serves_adstatTasks cd ce d0 d1).aggregate |>.trans (serves_accTasks cr r).aggregate
  simp only [Progress.advance_advance] at h
  refine ⟨_, ?_, h⟩
  simp [initTasks]

end

/-- Settles O60: the stages of `serves_initTasks`, their last one answering the aggregate. -/
theorem initServed : Obligations.InitServed := by
  intro s m payloads w cv v0 v1 v2 v3 cx x0 x1 cs s0 s1 cd ce d0 d1 cr r moves left hr hsize hlen h6 hmoves hscript
  have hok : okPayloads s.n payloads = true := okPayloads_iff.2 ⟨hlen, h6⟩
  have hfit : okPayloads s.n payloads.reverse = true := okPayloads_iff.2 ⟨by simp [hlen], by simpa using h6⟩
  obtain ⟨ts, hts, hserves⟩ := serves_initTasks (m := m) (p := s.progress) hfit w cv v0 v1 v2 v3 cx x0 x1 cs s0 s1 cd ce
    d0 d1 cr r
  have hconfig : configFrame { s with answer := .none } payloads = .wr s.par.given.cmdWrcfg payloads.reverse :=
    congrArg (Frame.wr _) (configBlocks_eq_reverse hlen)
  have hstages : requestStages { s with answer := .none } (.init m payloads) = some (ts ++ [Task.answerAgg]) :=
    congrArg some ((congrArg (initTasks m s.par.given) hconfig).trans hts)
  have hw : Instr.wellFormed s.n (.init m payloads) = true := by rw [(wellFormed_perChip m payloads s.n).2, hok]
  obtain ⟨t, hexec, hover, ht⟩ := exec_sequence_served hr hsize hw hstages rfl (result := Progress.agg) (fun _ => rfl)
    hserves hmoves hscript
  have herr := congrArg Progress.errCount ht
  refine ⟨t, hexec, hover, ?_, congrArg Progress.lines ht, ?_⟩
  · simpa [State.progress, Progress.advance, Progress.withAgg, Nat.add_assoc] using herr
  · refine (congrArg (fun p => p.board.map besideMeasured) ht).trans ?_
    rw [Progress.withAgg_board]
    exact map_board_advance (by simp [entryParsed, besideMeasured])

end Sys2Proof.Machine
end

section
/-! SUPPORT. Family 30_encoding: the decoder and the encoder are inverse to each other on requests in range
(30_encoding.md R69 to R71; logs 1, 2). Each operand decoder has one law for the bytes the encoder writes and one for
the bytes it accepts. -/

namespace Sys2Proof

open Machine

/-! ### The mode of a bus operation -/

/-- The mode bit of a bus operation (30_encoding.md R69). -/
def Mode.bit (m : Mode) : Bool :=
  match m with
  | .b _ => false
  | .a => true

/-- The operand bytes that come with a mode: the timeout, where the operation takes one (30_encoding.md R69; log 1). -/
def Mode.operand (m : Mode) : List Byte :=
  match m with
  | .b tmo => split32 tmo
  | .a => []

theorem modeHead_eq (m : Mode) (o : BitVec 5) : modeHead m o = requestByte m.bit o :: m.operand := by
  cases m <;> rfl

/-- Four bytes are joined into a timeout and split again, high byte first (log 2). -/
theorem split32_be32 (a b c d : Byte) : split32 (be32 a b c d) = [a, b, c, d] := by
  simp only [split32, be32, List.cons.injEq, and_true]
  refine ⟨?_, ?_, ?_, ?_⟩ <;> (ext i hi; grind)

/-! ### What an operand decoder makes of the bytes the encoder writes -/

theorem withMode_operand_append (m : Mode) (ops : List Byte) (k : Mode → List Byte → Except DecodeError Instr) :
    withMode m.bit (m.operand ++ ops) k = k m ops := by
  cases m with
  | b tmo => simp [withMode, Mode.bit, Mode.operand, split32]
  | a => rfl

theorem withMode_operand (m : Mode) (k : Mode → List Byte → Except DecodeError Instr) :
    withMode m.bit m.operand k = k m [] := by
  simpa using withMode_operand_append m [] k

theorem word16_hi_lo (v : U16) (ops : List Byte) (k : U16 → List Byte → Except DecodeError Instr) :
    word16 (hi v :: lo v :: ops) k = k v ops := by
  simp [word16]

theorem okPayloadSizes_iff {payloads : List (List Byte)} :
    okPayloadSizes payloads = true ↔ ∀ d ∈ payloads, d.length = 6 := by
  simp [okPayloadSizes, okPayload]

theorem payloadList_flatten {payloads : List (List Byte)} (h : okPayloadSizes payloads = true)
    (k : List (List Byte) → Instr) : payloadList payloads.flatten k = .ok (k payloads) := by
  simp [payloadList, splitPayloads_flatten (okPayloadSizes_iff.1 h)]

/-! ### What an operand decoder that succeeds was given -/

section
variable {i j : Instr} {ops : List Byte}

theorem modeless_eq_ok {m : Bool} {r : Except DecodeError Instr} (h : modeless m r = .ok i) :
    m = false ∧ r = .ok i := by
  cases m with
  | true => cases h
  | false => exact ⟨rfl, h⟩

theorem withMode_eq_ok {m : Bool} {k : Mode → List Byte → Except DecodeError Instr} (h : withMode m ops k = .ok i) :
    ∃ (md : Mode) (rest : List Byte), m = md.bit ∧ ops = md.operand ++ rest ∧ k md rest = .ok i := by
  cases m with
  | true => exact ⟨.a, ops, rfl, rfl, h⟩
  | false =>
    simp only [withMode, Bool.false_eq_true, if_false] at h
    split at h
    · exact ⟨_, _, rfl, by simp [Mode.operand, split32_be32], h⟩
    · cases h

theorem noOperand_eq_ok (h : noOperand j ops = .ok i) : ops = [] ∧ j = i := by
  cases ops with
  | nil => exact ⟨rfl, Except.ok.inj h⟩
  | cons b rest => cases h

theorem word16_eq_ok {k : U16 → List Byte → Except DecodeError Instr} (h : word16 ops k = .ok i) :
    ∃ (v : U16) (rest : List Byte), ops = hi v :: lo v :: rest ∧ k v rest = .ok i := by
  unfold word16 at h
  split at h
  · exact ⟨_, _, by simp, h⟩
  · cases h

theorem payloadList_eq_ok {k : List (List Byte) → Instr} (h : payloadList ops k = .ok i) :
    ∃ payloads : List (List Byte), ops = payloads.flatten ∧ okPayloadSizes payloads = true ∧ k payloads = i := by
  unfold payloadList at h
  split at h
  · rename_i payloads hs
    obtain ⟨hflat, h6⟩ := splitPayloads_eq_some hs
    exact ⟨payloads, hflat.symm, okPayloadSizes_iff.2 h6, Except.ok.inj h⟩
  · cases h

theorem payload_eq_ok {k : List Byte → Instr} (h : payload ops k = .ok i) : okPayload ops = true ∧ k ops = i := by
  unfold payload at h
  split at h
  · exact ⟨‹_›, Except.ok.inj h⟩
  · cases h

theorem groupOperand_eq_ok {ok : Byte → Bool} {k : Byte → Instr} (h : groupOperand ok ops k = .ok i) :
    ∃ g : Byte, ops = [g] ∧ ok g = true ∧ k g = i := by
  unfold groupOperand at h
  split at h
  · rename_i g
    split at h
    · exact ⟨g, rfl, ‹_›, Except.ok.inj h⟩
    · cases h
  · cases h

theorem convOperands_eq_ok (h : convOperands ops = .ok i) :
    ∃ mode dcp ch chg : Byte, ops = [mode, dcp, ch, chg] ∧ okConv mode dcp ch chg = true ∧
      .setconv mode dcp ch chg = i := by
  unfold convOperands at h
  split at h
  · split at h
    · exact ⟨_, _, _, _, rfl, ‹_›, Except.ok.inj h⟩
    · cases h
  · cases h

end

/-! ### The two directions -/

/-- The message of a request in range is decoded to it: the operation number picks the request's row of the table, and
its operand decoders take what `encode` wrote (30_encoding.md R70; log 1). -/
theorem decode_encode {i : Instr} (h : i.inRange = true) : decode (encode i) = .ok i := by
  cases i with
  | pec15 | wake | refresh | parsecfg => exact decode_requestByte _ _ _
  | pecchk p s => simp [encode, decode_requestByte, Instr.opNumber, decodeOperation, modeless, word16_hi_lo]
  | wrcmd m v | rdreg m v =>
    simp [encode, modeHead_eq, decode_requestByte, Instr.opNumber, decodeOperation, withMode_operand_append,
      word16_hi_lo, noOperand]
  | wrbcast m addr p6 =>
    simp only [Instr.inRange] at h
    simp [encode, modeHead_eq, decode_requestByte, Instr.opNumber, decodeOperation, withMode_operand_append,
      word16_hi_lo, payload, h]
  | wrcfg m payloads | init m payloads =>
    simp [encode, modeHead_eq, decode_requestByte, Instr.opNumber, decodeOperation, withMode_operand_append,
      payloadList_flatten h]
  | parsecv g | parseaux g | parsestat g =>
    simp only [Instr.inRange] at h
    simp [encode, decode_requestByte, Instr.opNumber, decodeOperation, modeless, groupOperand, h]
  | setconv mode dcp ch chg =>
    simp only [Instr.inRange] at h
    simp [encode, decode_requestByte, Instr.opNumber, decodeOperation, modeless, convOperands, h]
  | startcv m | startax m | startcomb m | clrcell m | clraux m | clrstat m | cvtest m | auxtest m | stattest m
  | adstattest m | acctest m =>
    simp [encode, modeHead_eq, decode_requestByte, Instr.opNumber, decodeOperation, withMode_operand, noOperand]

/-- A row of the table that accepts the bytes behind the request byte gives the request whose operands they are, in
range (30_encoding.md R70, R71). -/
theorem encode_of_decodeOperation {o : Nat} {m : Bool} {ops : List Byte} {i : Instr}
    (h : decodeOperation o m ops = .ok i) :
    i.opNumber.toNat = o ∧ encode i = requestByte m i.opNumber :: ops ∧ i.inRange = true := by
  unfold decodeOperation at h
  split at h
  case h_1 => -- PEC15
    obtain ⟨rfl, hrow⟩ := modeless_eq_ok h
    cases hrow
    exact ⟨rfl, rfl, rfl⟩
  case h_2 => -- PECCHK
    obtain ⟨rfl, hrow⟩ := modeless_eq_ok h
    obtain ⟨p, s, rfl, hrest⟩ := word16_eq_ok hrow
    cases hrest
    exact ⟨rfl, rfl, rfl⟩
  case h_3 | h_4 | h_12 => -- WAKE, REFRESH, PARSECFG
    obtain ⟨rfl, hrow⟩ := modeless_eq_ok h
    obtain ⟨rfl, rfl⟩ := noOperand_eq_ok hrow
    exact ⟨rfl, rfl, rfl⟩
  case h_5 | h_8 => -- WRCMD, RDREG
    obtain ⟨md, rest, rfl, rfl, hrow⟩ := withMode_eq_ok h
    obtain ⟨v, rest, rfl, hrest⟩ := word16_eq_ok hrow
    obtain ⟨rfl, rfl⟩ := noOperand_eq_ok hrest
    exact ⟨rfl, by simp [encode, modeHead_eq], rfl⟩
  case h_6 => -- WRBCAST
    obtain ⟨md, rest, rfl, rfl, hrow⟩ := withMode_eq_ok h
    obtain ⟨addr, p6, rfl, hrest⟩ := word16_eq_ok hrow
    obtain ⟨hok, rfl⟩ := payload_eq_ok hrest
    exact ⟨rfl, by simp [encode, modeHead_eq], hok⟩
  case h_7 | h_20 => -- WRCFG, INIT
    obtain ⟨md, rest, rfl, rfl, hrow⟩ := withMode_eq_ok h
    obtain ⟨payloads, rfl, hok, rfl⟩ := payloadList_eq_ok hrow
    exact ⟨rfl, by simp [encode, modeHead_eq], hok⟩
  case h_9 | h_10 | h_11 => -- PARSECV, PARSEAUX, PARSESTAT
    obtain ⟨rfl, hrow⟩ := modeless_eq_ok h
    obtain ⟨g, rfl, hok, rfl⟩ := groupOperand_eq_ok hrow
    exact ⟨rfl, rfl, hok⟩
  case h_13 => -- SETCONV
    obtain ⟨rfl, hrow⟩ := modeless_eq_ok h
    obtain ⟨mode, dcp, ch, chg, rfl, hok, rfl⟩ := convOperands_eq_ok hrow
    exact ⟨rfl, rfl, hok⟩
  case h_26 => cases h -- no row
  all_goals -- the operations with a mode and no operand of their own
    obtain ⟨md, rest, rfl, rfl, hrow⟩ := withMode_eq_ok h
    obtain ⟨rfl, rfl⟩ := noOperand_eq_ok hrow
    exact ⟨rfl, by simp [encode, modeHead_eq], rfl⟩

/-- A request byte with its reserved bits zero is made of its other two fields (30_encoding.md R69). -/
theorem requestByte_of_fields {r : Byte} (h : r.extractLsb' 6 2 = 0) :
    requestByte (r.getLsbD 5) (r.extractLsb' 0 5) = r := by
  revert r; decide

/-- Settles O7: the decoder reads the operands as the encoder writes them. -/
theorem decodeOfEncode : Obligations.DecodeOfEncode := fun _ => decode_encode

/-- Settles O8: the reserved bits are zero, and the row that the request byte picks accepts what `encode` writes. -/
theorem encodeOfDecode : Obligations.EncodeOfDecode := by
  intro bytes i h
  cases bytes with
  | nil => cases h
  | cons r ops =>
    by_cases hr : r.extractLsb' 6 2 = 0
    · rw [decode_cons hr] at h
      obtain ⟨ho, henc, hrange⟩ := encode_of_decodeOperation h
      rw [BitVec.eq_of_toNat_eq ho, requestByte_of_fields hr] at henc
      exact ⟨henc, hrange⟩
    · rw [decode_reservedBits hr] at h
      cases h

/-- Settles O9: each message is read byte by byte. -/
theorem sampleRequestWords : Obligations.SampleRequestWords :=
  ⟨by decide, by decide, by decide, by decide, by decide, by decide, by decide, by decide, by decide, by decide⟩

end Sys2Proof
end

section
/-! SUPPORT. Family 40_pec_engine: bit 15 of the remainder, the serial form of the generator, and the residue
(40_pec_engine.md R91, R92, R94, R95, R98). The serial form is linear in its register, and a register that is fed its
own high bits is shifted and feeds nothing back. -/

namespace Sys2Proof.Machine

/-! ### The low 15 bits of the remainder (40_pec_engine.md R92) -/

/-- The index into the table (40_pec_engine.md R91). -/
theorem tableIndex_eq (rem : U16) (b : Byte) :
    ((rem >>> 7) ^^^ b.setWidth 16).setWidth 8 = (rem.setWidth 15).extractLsb' 7 8 ^^^ b := by
  ext i hi
  grind

/-- The doubling at the end drops bit 15 (40_pec_engine.md R91). -/
theorem mul_two_eq (r : U16) : r * (2 : U16) = (r.setWidth 15).setWidth 16 <<< 1 := by
  have hr : r * (2 : U16) = r <<< 1 := (BitVec.shiftLeft_eq_mul_twoPow r 1).symm
  rw [hr]
  ext i hi
  grind

/-- One update with any table, in the low 15 bits (40_pec_engine.md R91). -/
theorem setWidth_update (table : Byte → U16) (rem : U16) (b : Byte) :
    ((rem <<< 8) ^^^ table (((rem >>> 7) ^^^ b.setWidth 16).setWidth 8)).setWidth 15 =
      (rem.setWidth 15 <<< 8) ^^^ (table ((rem.setWidth 15).extractLsb' 7 8 ^^^ b)).setWidth 15 := by
  rw [tableIndex_eq, BitVec.setWidth_xor, BitVec.setWidth_shiftLeft_of_le (by decide)]

/-- Settles O5: an update keeps two remainders equal in their low 15 bits, and the doubling drops bit 15. -/
theorem remainderBit15Immaterial : Obligations.RemainderBit15Immaterial := by
  refine ⟨fun s => rfl, fun table other seed start htable hseed s => ?_⟩
  unfold pecWith
  rw [mul_two_eq, mul_two_eq (List.foldl _ start s)]
  congr 2
  induction s generalizing seed start with
  | nil => exact hseed
  | cons b s ih => exact ih _ _ (by rw [setWidth_update, setWidth_update, hseed, htable])

/-! ### The serial form (40_pec_engine.md R95) -/

/-- What the feedback bit adds to the shifted register: the generator without its leading term. -/
def feedback (d : Bool) : BitVec 15 := if d then 0x4599 else 0

theorem serialBit_eq (x : BitVec 15) (d : Bool) : serialBit x d = (x <<< 1) ^^^ feedback (d ^^ x.getLsbD 14) := by
  unfold serialBit feedback
  split <;> simp

/-- The serial form is linear in its register. -/
theorem serialBit_xor (x y : BitVec 15) (d : Bool) : serialBit (x ^^^ y) d = serialBit x d ^^^ serialBit y false := by
  have hfeedback : ∀ a b : Bool, feedback (a ^^ b) = feedback a ^^^ feedback b := by decide
  simp only [serialBit_eq, BitVec.getLsbD_xor, BitVec.shiftLeft_xor_distrib, ← Bool.xor_assoc, hfeedback]
  ac_rfl

theorem foldl_serialBit_xor (ds : List Bool) (x y : BitVec 15) :
    ds.foldl serialBit (x ^^^ y) =
      ds.foldl serialBit x ^^^ (List.replicate ds.length false).foldl serialBit y := by
  induction ds generalizing x y with
  | nil => rfl
  | cons d ds ih =>
    rw [List.foldl_cons, serialBit_xor, ih]
    rfl

/-- The register's high bits, bit 14 first. -/
def highBits (x : BitVec 15) (n : Nat) : List Bool := (List.range n).map fun k => x.getLsbD (14 - k)

/-- Fed its own high bits, the register is shifted and feeds nothing back. -/
theorem foldl_highBits (x : BitVec 15) {n : Nat} (hn : n ≤ 15) : (highBits x n).foldl serialBit x = x <<< n := by
  induction n with
  | zero => simp [highBits]
  | succ n ih =>
    have htop : (x <<< n).getLsbD 14 = x.getLsbD (14 - n) := by grind
    rw [highBits, List.range_succ, List.map_append, List.foldl_append]
    change serialBit ((highBits x n).foldl serialBit x) (x.getLsbD (14 - n)) = _
    rw [ih (by omega), serialBit_eq, htop, Bool.xor_self, BitVec.shiftLeft_add]
    exact BitVec.xor_zero

/-- One of the divisions that build the table is a step of the serial form on a zero bit (40_pec_engine.md R94). -/
theorem setWidth_pecShift (r : U16) : (pecShift r).setWidth 15 = serialBit (r.setWidth 15) false := by
  have htop : (r.setWidth 15).getLsbD 14 = r.getLsbD 14 := by simp
  rw [pecShift, serialBit_eq, htop, ← BitVec.setWidth_shiftLeft_of_le (by decide), Bool.false_xor]
  cases r.getLsbD 14 with
  | false => exact BitVec.xor_zero.symm
  | true => exact BitVec.setWidth_xor

theorem setWidth_iterate_pecShift (n : Nat) (r : U16) :
    (pecShift^[n] r).setWidth 15 = (List.replicate n false).foldl serialBit (r.setWidth 15) := by
  induction n generalizing r with
  | zero => rfl
  | succ n ih => rw [Function.iterate_succ_apply, ih, setWidth_pecShift]; rfl

theorem setWidth_pecTable (i : Byte) :
    (pecTable i).setWidth 15 = (List.replicate 8 false).foldl serialBit (i.setWidth 15 <<< 7) := by
  rw [pecTable, setWidth_iterate_pecShift, BitVec.setWidth_shiftLeft_of_le (by decide),
    BitVec.setWidth_setWidth (by decide)]

/-- With the table's index added to its high bits, the register has the byte there (40_pec_engine.md R91). -/
theorem bitsOf_eq_highBits (x : BitVec 15) (b : Byte) :
    bitsOf b = highBits (x ^^^ (x.extractLsb' 7 8 ^^^ b).setWidth 15 <<< 7) 8 := by
  simp [bitsOf, highBits, List.range_succ]

/-- One update of the remainder is eight steps of the serial form. The register `x` differs from one whose high bits are
those of `b` by the table's index in its high bits: that one is shifted, and the index runs through the table. -/
theorem setWidth_pecStep (rem : U16) (b : Byte) :
    (pecStep rem b).setWidth 15 = (bitsOf b).foldl serialBit (rem.setWidth 15) := by
  rw [pecStep, setWidth_update, setWidth_pecTable]
  generalize rem.setWidth 15 = x
  have hbits := bitsOf_eq_highBits x b
  have hindex : ((x.extractLsb' 7 8 ^^^ b).setWidth 15 <<< 7) <<< 8 = 0#15 := by
    rw [← BitVec.shiftLeft_add]; simp
  generalize (x.extractLsb' 7 8 ^^^ b).setWidth 15 <<< 7 = z at hbits hindex ⊢
  have hx : x = (x ^^^ z) ^^^ z := by rw [BitVec.xor_assoc, BitVec.xor_self, BitVec.xor_zero]
  calc x <<< 8 ^^^ (List.replicate 8 false).foldl serialBit z
      = (x ^^^ z) <<< 8 ^^^ (List.replicate 8 false).foldl serialBit z := by
        rw [BitVec.shiftLeft_xor_distrib, hindex, BitVec.xor_zero]
    _ = (bitsOf b).foldl serialBit (x ^^^ z) ^^^ (List.replicate 8 false).foldl serialBit z := by
        rw [hbits, foldl_highBits _ (by decide)]
    _ = (bitsOf b).foldl serialBit x := by
        conv_rhs => rw [hx]
        exact (foldl_serialBit_xor (bitsOf b) _ z).symm

/-- The register of the serial form after `s` (40_pec_engine.md R95). -/
def serialRegister (s : List Byte) : BitVec 15 := (s.flatMap bitsOf).foldl serialBit 0x0010#15

theorem setWidth_foldl_pecStep (s : List Byte) : (s.foldl pecStep pecSeed).setWidth 15 = serialRegister s := by
  induction s using List.reverseRecOn with
  | nil => rfl
  | append_singleton s b ih => simp [serialRegister, setWidth_pecStep, ih]

/-- Settles O1: byte by byte the low 15 bits of the remainder are the serial register. -/
theorem pecMatchesSerialForm : Obligations.PecMatchesSerialForm := by
  intro s
  rw [pec15, mul_two_eq, setWidth_foldl_pecStep]
  rfl

/-! ### The residue (40_pec_engine.md R98) -/

/-- The feedback bit of a step stands in bit 0 of the register after it. -/
theorem serialBit_getLsbD_zero (x : BitVec 15) (d : Bool) : (serialBit x d).getLsbD 0 = (d ^^ x.getLsbD 14) := by
  rw [serialBit_eq]
  cases d <;> cases x.getLsbD 14 <;> simp [feedback]

/-- A step of the serial form loses nothing of the register. -/
theorem serialBit_injective (d : Bool) : Function.Injective fun x => serialBit x d := by
  intro x y h
  have htop : x.getLsbD 14 = y.getLsbD 14 := by
    simpa only [serialBit_getLsbD_zero, Bool.xor_right_inj] using congrArg (BitVec.getLsbD · 0) h
  simp only [serialBit_eq, htop, BitVec.xor_left_inj] at h
  ext k hk
  by_cases hlast : k = 14
  · grind
  · have hnext := congrArg (BitVec.getLsbD · (k + 1)) h
    grind

theorem foldl_serialBit_injective (ds : List Bool) : Function.Injective fun x => ds.foldl serialBit x := by
  induction ds with
  | nil => exact Function.injective_id
  | cons d ds ih => exact ih.comp (serialBit_injective d)

/-- A checksum with bit 0 clear is the high bits of its half, and then a zero bit. -/
theorem bitsOf_checksum {p : U16} (h : p.getLsbD 0 = false) :
    bitsOf (hi p) ++ bitsOf (lo p) = highBits ((p >>> 1).setWidth 15) 15 ++ [false] := by
  simpa [bitsOf, highBits, List.range_succ, hi, lo] using h

theorem serialRegister_append (s : List Byte) (p : U16) :
    serialRegister (s ++ [hi p, lo p]) = (bitsOf (hi p) ++ bitsOf (lo p)).foldl serialBit (serialRegister s) := by
  simp [serialRegister]

/-- Followed by a checksum with bit 0 clear, the register is zero exactly when it was half that checksum. -/
theorem serialRegister_append_eq_zero {p : U16} (h : p.getLsbD 0 = false) (s : List Byte) :
    serialRegister (s ++ [hi p, lo p]) = 0 ↔ serialRegister s = (p >>> 1).setWidth 15 := by
  have hown : (bitsOf (hi p) ++ bitsOf (lo p)).foldl serialBit ((p >>> 1).setWidth 15) = 0 := by
    rw [bitsOf_checksum h, List.foldl_append, foldl_highBits _ (by decide)]
    simp [serialBit_eq, feedback]
  rw [serialRegister_append, ← hown]
  exact (foldl_serialBit_injective _).eq_iff

theorem pec15_eq (s : List Byte) : pec15 s = (serialRegister s).setWidth 16 <<< 1 := pecMatchesSerialForm s

/-- A word with bit 0 clear is a register doubled exactly when the register is its half. -/
theorem setWidth_shiftLeft_one_eq_iff {x : BitVec 15} {p : U16} (h : p.getLsbD 0 = false) :
    x.setWidth 16 <<< 1 = p ↔ x = (p >>> 1).setWidth 15 := by
  constructor
  · rintro rfl
    ext k hk; grind
  · rintro rfl
    ext k hk; grind

/-- For a received checksum with bit 0 clear the residue test is the comparison. -/
theorem residue_eq_zero_iff {p : U16} (h : p.getLsbD 0 = false) (s : List Byte) :
    pec15 (s ++ [hi p, lo p]) = 0 ↔ pec15 s = p := by
  have hzero : pec15 (s ++ [hi p, lo p]) = 0 ↔ serialRegister (s ++ [hi p, lo p]) = 0 := by
    rw [pec15_eq, setWidth_shiftLeft_one_eq_iff (by decide)]; rfl
  rw [hzero, serialRegister_append_eq_zero h, pec15_eq, setWidth_shiftLeft_one_eq_iff h]

/-- Settles O2: the second clause is `residue_eq_zero_iff`, the first is its case of the checksum itself. -/
theorem pecResidueZero : Obligations.PecResidueZero :=
  ⟨fun s => (residue_eq_zero_iff (pec15_getLsbD_zero s) s).2 rfl, fun s _ h => residue_eq_zero_iff h s⟩

/-- Refutes O3: for the data 00 01 the received checksum F8F7, whose bit 0 is set, leaves the residue zero, and the
checksum is 3D6E (log 32). -/
theorem not_residueTestAcceptsSameFrames : ¬ Obligations.ResidueTestAcceptsSameFrames := by
  intro h
  obtain ⟨hresidue, hne⟩ : pec15 ([0x00, 0x01] ++ [hi 0xF8F7, lo 0xF8F7]) = 0 ∧ pec15 [0x00, 0x01] ≠ 0xF8F7 := by
    decide
  exact hne ((h [0x00, 0x01] 0xF8F7).1 hresidue)

end Sys2Proof.Machine
end

section
/-! SUPPORT. Family 41_frame_write: what stands in `tx` after a write carries its own checksums (41_frame_write.md
R117). -/

namespace Sys2Proof.Machine

/-- An envelope carries its own checksum (30_encoding.md R61). -/
theorem envelopeAccepted_envelope (code : U16) (rest : List Byte) : envelopeAccepted (envelope code ++ rest) = true := by
  simp [envelopeAccepted, envelope, pecCheck]

section
variable {m : Memory} {bytes : List Byte} (h : memReadBytes m 0 bytes.length = some bytes)
include h

/-- The envelope of a frame in a buffer passes PECCHK where the chips accept it (43_transport.md R174). -/
theorem pecCheck_envelope_of_bytes (h4 : 4 ≤ bytes.length) (hok : envelopeAccepted bytes = true) :
    ∃ c p q, memReadBytes m 0 2 = some c ∧ memRead m 2 = some p ∧ memRead m 3 = some q ∧
      pecCheck c (be16 p q) = true :=
  ⟨_, _, _, memReadBytes_part h (by omega), memRead_part h (by omega), memRead_part h (by omega), hok⟩

/-- A block of a frame in a buffer passes PECCHK where its chip accepts it (43_transport.md R174). -/
theorem pecCheck_block_of_bytes {j : Nat} (hj : blockAt j + 8 ≤ bytes.length) (hok : blockAccepted bytes j = true) :
    ∃ d p q, memReadBytes m (blockAt j) 6 = some d ∧ memRead m (blockAt j + 6) = some p ∧
      memRead m (blockAt j + 7) = some q ∧ pecCheck d (be16 p q) = true :=
  ⟨_, _, _, memReadBytes_part h (by omega), memRead_part h (by omega), memRead_part h (by omega), hok⟩

end

/-- The two operations that send a write frame (41_frame_write.md R112, R113). -/
theorem busFrame_of_write {i : Instr}
    (h : (∃ m addr p6, i = .wrbcast m addr p6) ∨ ∃ m payloads, i = .wrcfg m payloads) (s : State) :
    ∃ m code blocks, busFrame s i = some (m, .wr code blocks) := by
  obtain ⟨m, addr, p6, rfl⟩ | ⟨m, payloads, rfl⟩ := h
  · exact ⟨_, _, _, rfl⟩
  · exact ⟨_, _, _, rfl⟩

/-- Settles O18: `tx` holds the frame, whose envelope and blocks carry their own checksums. -/
theorem writtenFramesValidate : Obligations.WrittenFramesValidate := by
  intro s t i hi hexec
  obtain ⟨m, code, blocks, hb⟩ := busFrame_of_write hi s
  have hframe := (frameAssembledAfresh s t i m _ hb hexec).frame
  have hfit : frameFits s.n (.wr code blocks) = true := (underway_exec hb hexec).1
  obtain ⟨hcount, h6⟩ := okPayloads_iff.1 hfit
  have hlen : (frameBytes s.n (.wr code blocks)).length = 4 + 8 * s.n := length_frameBytes hfit
  rw [← length_frameBytes hfit] at hframe
  refine ⟨pecCheck_envelope_of_bytes hframe (by omega) (envelopeAccepted_envelope code _), fun j hj => ?_⟩
  exact pecCheck_block_of_bytes hframe (by simp only [blockAt]; omega)
    (blockAccepted_of_chipBlock rfl h6 (hcount.symm ▸ hj))

end Sys2Proof.Machine
end

section
/-! SUPPORT. The invariant of a new session (10_state.md R36, 70_reset_and_hazards.md R250). -/

namespace Sys2Proof.Machine

/-- A session of at least one chip begins with empty buffers and in phase IDLE. -/
theorem inv_fresh {n : Nat} (hn : 1 ≤ n) (par : Params) : (State.fresh n par).Inv :=
  inv_of_storesOk
    { chips := rfl
      pos := hn
      board := List.length_replicate
      flags := List.length_replicate
      tx := bufferOk_nil n
      rx := bufferOk_nil n
      rxUnspec := Nat.zero_le _ }
    (.idle rfl rfl rfl rfl)

/-- Settles O52: both are `State.fresh` of at least one chip. -/
theorem invariantAtReset : Obligations.InvariantAtReset := by
  refine ⟨inv_fresh (by decide) _, fun n par s h => ?_⟩
  unfold State.construct at h
  split at h
  · cases h
  · obtain rfl := Except.ok.inj h
    exact inv_fresh (by omega) par

end Sys2Proof.Machine
end
